-- ==== Sys2Proof/Word.lean ====
section
/-! DEFINITION. The word types of GCE: a host register is 32 bits (R22), a kernel weight 16 (R41), a channel value,
a table entry and a byte of frame memory 8 (R7, R42, R71). -/

namespace Sys2Proof

/-- A channel value, a lookup-table entry, a byte of frame memory (R7: 8 bits, unsigned). -/
abbrev Byte := BitVec 8

/-- One kernel weight: 16 bits, read as two's complement (R41). -/
abbrev Weight := BitVec 16

/-- A host register, and a command word (R22, R100): 32 bits. -/
abbrev Word := BitVec 32

/-- The three lookup tables `LUT[k][v]`, `k = 0..2`, `v = 0..255` (R42). `PSEUDO_ROM` has the same shape (R8). -/
abbrev Tables := Vector (Vector Byte 256) 3

end Sys2Proof
end

