-- ==== Sys2Proof/Config.lean ====
section
/-! DEFINITION. What one instance of GCE fixes (R8, R51: the parameters of the step functions), and the free values:
what the spec leaves open, as constants with no body. -/

namespace Sys2Proof

/-- `ROUND` (R8, R12, D12): how an exact rational becomes an integer before `clamp`. The spec decides `tiesToEven`
and asks that a model keep it a configuration field; `tiesUp` and `truncate` are the two others its test vectors
name (95, the vectors marked ROUND). DESIGN CHOICE, log entry 3. -/
inductive Rounding where
  | tiesToEven
  | tiesUp
  | truncate
deriving DecidableEq, Repr

/-- The parameters of one instance (R8). `NW`, `NR` and the slot size are derived below. -/
structure Config where
  /-- `RMAX`: the largest radius `CONV` accepts. -/
  rmax : Nat
  /-- `WMAX`: the largest `WIDTH` `CONV` accepts. -/
  wmax : Nat
  /-- `FM_BYTES`: the size of frame memory. -/
  fmBytes : Nat
  /-- `ROUND`. -/
  round : Rounding
  /-- `MONO_PICK`: the colour value a monochrome output keeps (R138). -/
  monoPick : Fin 3
  /-- `PSEUDO_ROM`: the three pseudocolor tables (R186). -/
  pseudoRom : Tables
deriving DecidableEq, Repr

/-- `NW = (2*RMAX+1)^2` (R8). -/
def Config.nw (c : Config) : Nat := (2 * c.rmax + 1) ^ 2

/-- `NR = 2*RMAX+1` (R8). -/
def Config.nr (c : Config) : Nat := 2 * c.rmax + 1

/-- A line-buffer slot holds `4*WMAX` bytes (R8, R260). -/
def Config.slotBytes (c : Config) : Nat := 4 * c.wmax

/-- The constraints R8 puts on the parameters. -/
def Config.valid (c : Config) : Bool :=
  decide (1 ≤ c.rmax) && decide (c.rmax ≤ 6) && decide (1 ≤ c.wmax) &&
    decide (1 ≤ c.fmBytes) && decide (c.fmBytes ≤ 2 ^ 32)

/-- `ID_VALUE` (R8, R23, D1). -/
def Config.idValue : Word := 0x47434531#32

/-- FREE VALUE: entry `v` of pseudocolor table `k` of the instance `State.reset` starts (R186, U2: the source does
not give the 768 bytes, and nothing may be assumed of them). Log entry 2. -/
opaque Config.openPseudoRom : Nat → Nat → Byte

/-- FREE VALUE: what `KW[j]` holds at power-up (R323, U4: unspecified, not 0). Log entry 4. -/
opaque Config.powerUpWeight : Nat → Weight

/-- FREE VALUE: what `LUT[k][v]` holds at power-up (R323, U4: unspecified, not 0). Log entry 4. -/
opaque Config.powerUpTable : Nat → Nat → Byte

/-- FREE VALUE: what byte `b` of line-buffer slot `i` holds at power-up (R52, U13). Log entry 5. -/
opaque Config.powerUpRow : Nat → Nat → Byte

/-- FREE VALUE: the `n`-th choice between an old and a new value, at position `i` (R322, R333, R84). Log entries
10, 11 and 12. -/
opaque Config.freeBit : Nat → Nat → Bool

/-- FREE VALUE: the `n`-th unspecified byte, at address `a` (R84: a destination region the host has disturbed). Log
entry 12. -/
opaque Config.freeByte : Nat → Nat → Byte

/-- The reference instance (R8, last column): the one `State.reset` starts. DESIGN CHOICE, log entry 1: the values
are not a claim about any instance, and every statement is about every `cfg`. -/
def Config.reference : Config where
  rmax := 2
  wmax := 4096
  fmBytes := 1048576
  round := .tiesToEven
  monoPick := 2
  pseudoRom := Vector.ofFn fun k => Vector.ofFn fun v => Config.openPseudoRom k.val v.val

end Sys2Proof
end

