-- ==== Sys2Proof/Syntax.lean ====
section
/-! DEFINITION. The commands of GCE: one constructor for each row of `spec/opcode_table.json` (R102 to R107, R114). -/

namespace Sys2Proof

/-- A decoded command word (R106). `mono` is the `MONO` bit, `med` the `MED` bit, `sub` the `SUB` field and `arg` or
`ch` the `ARG` field, each where the row leaves it free. -/
inductive Instr where
  /-- `NOP`, 0x00000000 (R133). -/
  | nop
  /-- `CONV[.MED][.MONO]` (R228). -/
  | conv (mono med : Bool)
  /-- `BUILD.BRIGHTNESS` (R181). -/
  | buildBrightness
  /-- `BUILD.CONTRAST` (R182). -/
  | buildContrast
  /-- `BUILD.POSTERIZE` (R183). -/
  | buildPosterize
  /-- `BUILD.THRESHOLD` (R184). -/
  | buildThreshold
  /-- `BUILD.SOLARIZE` (R185). -/
  | buildSolarize
  /-- `BUILD.PSEUDOCOLOR` (R186). -/
  | buildPseudocolor
  /-- `BUILD.INVERT` (R187). -/
  | buildInvert
  /-- `BUILD` with `SUB = 7` (R188). -/
  | buildUnknown7
  /-- `BUILD` with `SUB` 8 to 15 (R188). -/
  | buildUnknown8to15 (sub : BitVec 4)
  /-- `APPLY[.MONO]` (R189). -/
  | apply (mono : Bool)
  /-- `GRAY.LUMA[.MONO]` (R161). -/
  | grayLuma (mono : Bool)
  /-- `GRAY.AVERAGE[.MONO]` (R162). -/
  | grayAverage (mono : Bool)
  /-- `GRAY.SIMPLE[.MONO] ch`, any `ARG` (R163). -/
  | graySimple (ch : BitVec 4) (mono : Bool)
  /-- `GRAY` with `SUB = 3`, any `ARG` (R164). -/
  | grayUnknown3 (arg : BitVec 4) (mono : Bool)
  /-- `GRAY` with `SUB` 4 to 7, any `ARG` (R164). -/
  | grayUnknown4to7 (sub arg : BitVec 4) (mono : Bool)
  /-- `GRAY` with `SUB` 8 to 15, any `ARG` (R164). -/
  | grayUnknown8to15 (sub arg : BitVec 4) (mono : Bool)
  /-- `VALID`, 0x00000005 (R134). -/
  | valid
  /-- Every word that no other row matches (R107, R114): `ILLEGAL`. -/
  | illegal (w : Word)
deriving DecidableEq, Repr

/-- One row of the machine-readable opcode map (R114): `(w AND mask) = pattern` selects it. -/
structure TableRow where
  mnemonic : String
  mask : Word
  pattern : Word
deriving DecidableEq, Repr

end Sys2Proof
end

