-- ==== Sys2Proof/WellFormed.lean ====
section
/-! DEFINITION. When a command is one a word encodes: `SUB` lies in its row's range, and an `illegal` carries a word
that R107 reserves. The reserved words are written here on numbers, apart from the decoder. -/

namespace Sys2Proof

/-- R107: `OP` above 5, a nonzero bit in 31:18, or a field that R102 requires to be 0 and is not. The fields are
numbers of `w` as R101 places them. -/
def reservedWord (w : Word) : Bool :=
  let n := w.toNat
  let op := n % 256
  let sub := n / 2 ^ 8 % 16
  let arg := n / 2 ^ 12 % 16
  let mono := n / 2 ^ 16 % 2
  let med := n / 2 ^ 17 % 2
  decide (n / 2 ^ 18 ≠ 0) || decide (5 < op) ||
    (decide (op = 0 ∨ op = 5) && decide (sub ≠ 0 ∨ arg ≠ 0 ∨ mono ≠ 0 ∨ med ≠ 0)) ||
    (decide (op = 1) && decide (sub ≠ 0 ∨ arg ≠ 0)) ||
    (decide (op = 2) && decide (arg ≠ 0 ∨ mono ≠ 0 ∨ med ≠ 0)) ||
    (decide (op = 3) && decide (sub ≠ 0 ∨ arg ≠ 0 ∨ med ≠ 0)) ||
    (decide (op = 4) && decide (med ≠ 0 ∨ (sub ≤ 1 ∧ arg ≠ 0)))

/-- The commands that words encode (R106, R114). -/
def Instr.wellFormed : Instr → Bool
  | .nop => true
  | .conv _ _ => true
  | .buildBrightness => true
  | .buildContrast => true
  | .buildPosterize => true
  | .buildThreshold => true
  | .buildSolarize => true
  | .buildPseudocolor => true
  | .buildInvert => true
  | .buildUnknown7 => true
  | .buildUnknown8to15 sub => decide (8 ≤ sub.toNat)
  | .apply _ => true
  | .grayLuma _ => true
  | .grayAverage _ => true
  | .graySimple _ _ => true
  | .grayUnknown3 _ _ => true
  | .grayUnknown4to7 sub _ _ => decide (4 ≤ sub.toNat) && decide (sub.toNat ≤ 7)
  | .grayUnknown8to15 sub _ _ => decide (8 ≤ sub.toNat)
  | .valid => true
  | .illegal w => reservedWord w

end Sys2Proof
end

