-- ==== Sys2Proof/Decode.lean ====
section
/-! DEFINITION. The decoder of command words (R106), total on all 2^32 words, the encoder written from the same field
table (R101 to R105, R110), and the machine-readable opcode map (R114). No word is turned away: a word that names no
operation decodes to `illegal`, one that names an unknown kind or mode to its own constructor. -/

namespace Sys2Proof

/-! The fields of `CMDW` (R101). -/

/-- `OP`, bits 7:0. -/
def opField (w : Word) : BitVec 8 := w.extractLsb' 0 8

/-- `SUB`, bits 11:8. -/
def subField (w : Word) : BitVec 4 := w.extractLsb' 8 4

/-- `ARG`, bits 15:12. -/
def argField (w : Word) : BitVec 4 := w.extractLsb' 12 4

/-- `MONO`, bit 16. -/
def monoField (w : Word) : Bool := w.getLsbD 16

/-- `MED`, bit 17. -/
def medField (w : Word) : Bool := w.getLsbD 17

/-- `RSV`, bits 31:18. -/
def rsvField (w : Word) : BitVec 14 := w.extractLsb' 18 14

/-- The kinds of `BUILD` by `SUB` (R103, R188). -/
def decodeBuild (sub : BitVec 4) : Instr :=
  if sub = 0#4 then .buildBrightness
  else if sub = 1#4 then .buildContrast
  else if sub = 2#4 then .buildPosterize
  else if sub = 3#4 then .buildThreshold
  else if sub = 4#4 then .buildSolarize
  else if sub = 5#4 then .buildPseudocolor
  else if sub = 6#4 then .buildInvert
  else if sub = 7#4 then .buildUnknown7
  else .buildUnknown8to15 sub

/-- The modes of `GRAY` by `SUB` (R104, R164), on a word whose `ARG` R106 has let pass. -/
def decodeGray (sub arg : BitVec 4) (mono : Bool) : Instr :=
  if sub = 0#4 then .grayLuma mono
  else if sub = 1#4 then .grayAverage mono
  else if sub = 2#4 then .graySimple arg mono
  else if sub = 3#4 then .grayUnknown3 arg mono
  else if sub.toNat ≤ 7 then .grayUnknown4to7 sub arg mono
  else .grayUnknown8to15 sub arg mono

/-- `decode(w)` of R106: the tests in the spec's order, the first that fires decides. -/
def decode (w : Word) : Instr :=
  let sub := subField w
  let arg := argField w
  let mono := monoField w
  let med := medField w
  if rsvField w ≠ 0#14 then .illegal w
  else if opField w = 0#8 then
    if sub ≠ 0#4 ∨ arg ≠ 0#4 ∨ mono = true ∨ med = true then .illegal w else .nop
  else if opField w = 5#8 then
    if sub ≠ 0#4 ∨ arg ≠ 0#4 ∨ mono = true ∨ med = true then .illegal w else .valid
  else if opField w = 1#8 then
    if sub ≠ 0#4 ∨ arg ≠ 0#4 then .illegal w else .conv mono med
  else if opField w = 2#8 then
    if arg ≠ 0#4 ∨ mono = true ∨ med = true then .illegal w else decodeBuild sub
  else if opField w = 3#8 then
    if sub ≠ 0#4 ∨ arg ≠ 0#4 ∨ med = true then .illegal w else .apply mono
  else if opField w = 4#8 then
    if med = true then .illegal w
    else if 3 ≤ sub.toNat then decodeGray sub arg mono
    else if sub.toNat ≤ 1 ∧ arg ≠ 0#4 then .illegal w
    else decodeGray sub arg mono
  else .illegal w

/-- A word laid out field by field as R101 draws it: `RSV = 0`, `MED`, `MONO`, `ARG`, `SUB`, `OP`. -/
def cmdWord (op : BitVec 8) (sub arg : BitVec 4) (mono med : Bool) : Word :=
  0#14 ++ BitVec.ofBool med ++ BitVec.ofBool mono ++ arg ++ sub ++ op

/-- The word of a command (R102 to R105, R110). -/
def encode : Instr → Word
  | .nop => cmdWord 0 0 0 false false
  | .conv mono med => cmdWord 1 0 0 mono med
  | .buildBrightness => cmdWord 2 0 0 false false
  | .buildContrast => cmdWord 2 1 0 false false
  | .buildPosterize => cmdWord 2 2 0 false false
  | .buildThreshold => cmdWord 2 3 0 false false
  | .buildSolarize => cmdWord 2 4 0 false false
  | .buildPseudocolor => cmdWord 2 5 0 false false
  | .buildInvert => cmdWord 2 6 0 false false
  | .buildUnknown7 => cmdWord 2 7 0 false false
  | .buildUnknown8to15 sub => cmdWord 2 sub 0 false false
  | .apply mono => cmdWord 3 0 0 mono false
  | .grayLuma mono => cmdWord 4 0 0 mono false
  | .grayAverage mono => cmdWord 4 1 0 mono false
  | .graySimple ch mono => cmdWord 4 2 ch mono false
  | .grayUnknown3 arg mono => cmdWord 4 3 arg mono false
  | .grayUnknown4to7 sub arg mono => cmdWord 4 sub arg mono false
  | .grayUnknown8to15 sub arg mono => cmdWord 4 sub arg mono false
  | .valid => cmdWord 5 0 0 false false
  | .illegal w => w

/-- `opcode_table.json` in file order (R114): the mask and the pattern of each row as the table prints them. -/
def opcodeTable : List TableRow :=
  [ ⟨"NOP", 0xFFFFFFFF#32, 0x00000000#32⟩,
    ⟨"CONV", 0xFFFCFFFF#32, 0x00000001#32⟩,
    ⟨"BUILD.BRIGHTNESS", 0xFFFFFFFF#32, 0x00000002#32⟩,
    ⟨"BUILD.CONTRAST", 0xFFFFFFFF#32, 0x00000102#32⟩,
    ⟨"BUILD.POSTERIZE", 0xFFFFFFFF#32, 0x00000202#32⟩,
    ⟨"BUILD.THRESHOLD", 0xFFFFFFFF#32, 0x00000302#32⟩,
    ⟨"BUILD.SOLARIZE", 0xFFFFFFFF#32, 0x00000402#32⟩,
    ⟨"BUILD.PSEUDOCOLOR", 0xFFFFFFFF#32, 0x00000502#32⟩,
    ⟨"BUILD.INVERT", 0xFFFFFFFF#32, 0x00000602#32⟩,
    ⟨"BUILD.UNKNOWN", 0xFFFFFFFF#32, 0x00000702#32⟩,
    ⟨"BUILD.UNKNOWN", 0xFFFFF8FF#32, 0x00000802#32⟩,
    ⟨"APPLY", 0xFFFEFFFF#32, 0x00000003#32⟩,
    ⟨"GRAY.LUMA", 0xFFFEFFFF#32, 0x00000004#32⟩,
    ⟨"GRAY.AVERAGE", 0xFFFEFFFF#32, 0x00000104#32⟩,
    ⟨"GRAY.SIMPLE", 0xFFFE0FFF#32, 0x00000204#32⟩,
    ⟨"GRAY.UNKNOWN", 0xFFFE0FFF#32, 0x00000304#32⟩,
    ⟨"GRAY.UNKNOWN", 0xFFFE0CFF#32, 0x00000404#32⟩,
    ⟨"GRAY.UNKNOWN", 0xFFFE08FF#32, 0x00000804#32⟩,
    ⟨"VALID", 0xFFFFFFFF#32, 0x00000005#32⟩,
    ⟨"ILLEGAL", 0x00000000#32, 0x00000000#32⟩ ]

/-- R114: `(w AND mask) = match`. -/
def TableRow.selects (r : TableRow) (w : Word) : Bool := (w &&& r.mask) == r.pattern

/-- R114: the place in the table of the first row that a word selects. -/
def tableIndex (w : Word) : Nat := opcodeTable.findIdx (·.selects w)

/-- The place in the table of the row a command belongs to. -/
def Instr.rowIndex : Instr → Nat
  | .nop => 0
  | .conv _ _ => 1
  | .buildBrightness => 2
  | .buildContrast => 3
  | .buildPosterize => 4
  | .buildThreshold => 5
  | .buildSolarize => 6
  | .buildPseudocolor => 7
  | .buildInvert => 8
  | .buildUnknown7 => 9
  | .buildUnknown8to15 _ => 10
  | .apply _ => 11
  | .grayLuma _ => 12
  | .grayAverage _ => 13
  | .graySimple _ _ => 14
  | .grayUnknown3 _ _ => 15
  | .grayUnknown4to7 _ _ _ => 16
  | .grayUnknown8to15 _ _ _ => 17
  | .valid => 18
  | .illegal _ => 19

/-- The command the decoder reads from a table word: bit 0 is the least significant bit of the one 32-bit word a
command is (R100), and every bit above `nbits` is 0. No word is turned away (R106); a row wider than a command word
does not exist. -/
def decodeTableWord (nbits w : Nat) : Option Instr :=
  if nbits ≤ 32 then some (decode (BitVec.ofNat 32 (w % 2 ^ nbits))) else none

end Sys2Proof
end

