-- ==== Sys2Proof/Machine/State.lean ====
section
/-! DEFINITION. The state of GCE as plain data (R20), the moves of its three agents (R9), the reasons a step can stop,
and the state after reset (R52). -/

namespace Sys2Proof.Machine

/-- Frame memory (R71): the bytes that differ from what an unlisted address reads as, by rising address. -/
abbrev Memory := List Host.Cell

/-- The engine's phase (R48). -/
inductive Phase where
  | idle
  | busy
deriving DecidableEq, Repr

/-- The error kinds (R280); their codes are in `Flags.lean`. -/
inductive ErrKind where
  | shapeMismatch
  | unsupportedDepth
  | missingKernelParameters
  | unknownTransformType
  | invalidParameter
  | illegalCommand
  | addressRange
  | overlap
  | lineTooLong
deriving DecidableEq, Repr

/-- One line-buffer slot (R49, R260): `LB_TAG[i]` (`none` is `invalid`, `some q` is `valid(q)`) and `LB_ROW[i]`. -/
structure LineSlot where
  tag : Option Nat
  row : List Byte
deriving DecidableEq, Repr

/-- The line buffer (R260): slots 0 to `NR - 1`. -/
abbrev LineBuffer := List LineSlot

/-- A register of the map R22, or an unmapped offset (R43). -/
inductive Reg where
  | id
  | cmd
  | status
  | errcode
  | lastcmd
  | irqen
  | irqst
  | srcBase
  | srcLen
  | dstBase
  | dstLen
  | width
  | height
  | kradius
  | klen
  | divNum
  | divDen
  | lutParam
  | kw (j : Nat)
  | lut (k : Fin 3) (v : Fin 256)
  | unmapped
deriving DecidableEq, Repr

/-- One move of an agent (R9). The host reads and writes registers at byte offsets (R21) and bytes of frame memory
(R70); `engine` is the moment the engine takes its complete step (R131); `reset` is the `rst` input (R320). -/
inductive Event where
  | regWrite (off : BitVec 12) (v : Word)
  | regRead (off : BitVec 12)
  | memWrite (a : Nat) (b : Byte)
  | memRead (a : Nat)
  | engine
  | reset
deriving DecidableEq, Repr

/-- What `shape()` returns (R135): width, height, pixel count, byte length and channel depth of the source. -/
structure Shape where
  w : Nat
  h : Nat
  n : Nat
  l : Nat
  d : Nat
deriving DecidableEq, Repr

/-- Three colour values and an alpha value (R138, R139). -/
structure Pixel where
  c0 : Byte
  c1 : Byte
  c2 : Byte
  a : Byte
deriving DecidableEq, Repr

/-- `ok(fm_writes, lut_writes, out_len)` of R131. The `lut_writes` of a command are none or all 768 (R180). `lb` is
what a `CONV` leaves in the hidden line buffer (R266). -/
structure Effect where
  fmWrites : List Host.Cell
  lut : Option Tables
  outLen : Nat
  lb : Option LineBuffer
deriving DecidableEq, Repr

/-- The state of GCE (R20), the parameters of the instance, and what the model adds to run it. -/
structure State where
  /-- The parameters of the instance (R8, R51): no step changes them. -/
  cfg : Config
  /-- `STATUS`, bits 2:0: `BUSY`, `DONE`, `ERR` (R25). -/
  status : BitVec 3
  /-- `ERRCODE`, bits 3:0 (R26). -/
  errcode : BitVec 4
  /-- `LASTCMD` (R27). -/
  lastcmd : Word
  /-- `IRQEN`, bits 2:0 (R28). -/
  irqen : BitVec 3
  /-- `IRQST`, bits 2:0: `DONE`, `ERR`, `OVR` (R29). -/
  irqst : BitVec 3
  /-- `SRC_BASE` (R30). -/
  srcBase : Word
  /-- `SRC_LEN` (R31). -/
  srcLen : Word
  /-- `DST_BASE` (R32). -/
  dstBase : Word
  /-- `DST_LEN` (R33). -/
  dstLen : Word
  /-- `WIDTH` (R34). -/
  width : Word
  /-- `HEIGHT` (R35). -/
  height : Word
  /-- `KRADIUS` (R36). -/
  kradius : Word
  /-- `KLEN` (R37). -/
  klen : Word
  /-- `DIV_NUM` (R38). -/
  divNum : Word
  /-- `DIV_DEN` (R39). -/
  divDen : Word
  /-- `LUT_PARAM` (R40). -/
  lutParam : Word
  /-- `KW[0]` to `KW[NW-1]` (R41). -/
  kw : List Weight
  /-- `LUT[0..2][0..255]` (R42). -/
  lut : Tables
  /-- `phase` (R48). -/
  phase : Phase
  /-- The line buffer (R49, R260). -/
  lb : LineBuffer
  /-- Frame memory (R71). -/
  fm : Memory
  /-- The model's own: the agents' moves to come, the next one first (R9; log entry 6). -/
  inputs : List Event
  /-- The model's own: what the host's latest read returned (R21, R111; log entry 7). -/
  hostData : Word
  /-- The model's own: the host has written into a region of the command in execution (R84; log entry 12). -/
  disturbed : Bool
  /-- The model's own: how many times a free value has been taken (log entries 10 to 12). -/
  freeCount : Nat
deriving DecidableEq, Repr

/-- Why the machine stops. -/
inductive Fault where
  /-- Raised by a host byte access to frame memory at an address from `FM_BYTES` up: R71 gives frame memory the
  addresses 0 to `FM_BYTES - 1` and no other byte exists. Safe: the model stops where a platform may answer. No
  command raises it (R78). -/
  | noFrameByte (a : Nat)
deriving DecidableEq, Repr

/-- Why the model gives a move no meaning. -/
inductive Refusal where
  /-- Raised by an arm of `exec` whose command has no meaning yet. No arm raises it. Safe. -/
  | notModelled (mnemonic : String)
  /-- Raised by a host register access at an offset that is not a multiple of 4: R21, there is no such access and a
  model refuses it. Safe. -/
  | misalignedRegisterAccess (off : BitVec 12)
deriving DecidableEq, Repr

/-- The state after reset (R52), at power-up: `KW`, `LUT` and the line-buffer bytes hold unspecified values (log
entries 4 and 5), frame memory lists no byte (log entry 8), and no agent has a move to come. -/
def State.reset : State where
  cfg := Config.reference
  status := 0
  errcode := 0
  lastcmd := 0
  irqen := 0
  irqst := 0
  srcBase := 0
  srcLen := 0
  dstBase := 0
  dstLen := 0
  width := 0
  height := 0
  kradius := 0
  klen := 0
  divNum := 1
  divDen := 1
  lutParam := 0
  kw := (List.range Config.reference.nw).map Config.powerUpWeight
  lut := Vector.ofFn fun k => Vector.ofFn fun v => Config.powerUpTable k.val v.val
  phase := .idle
  lb := (List.range Config.reference.nr).map fun i =>
    ⟨none, (List.range Config.reference.slotBytes).map (Config.powerUpRow i)⟩
  fm := []
  inputs := []
  hostData := 0
  disturbed := false
  freeCount := 0

end Sys2Proof.Machine
end

