-- ==== Sys2Proof/Machine/Arith.lean ====
section
/-! DEFINITION. The arithmetic primitives of R12 on exact numbers, and the median's sort (R225). -/

namespace Sys2Proof.Machine

/-- `rnd(q)` of R12 for the exact rational `q = n / d`, `d ≠ 0`, sign included. With `d` made positive, `f` is
`floor(q)` and `r2 / d` twice the fraction. `Laws/Arith.lean` shows that it depends on the rational alone. -/
def rnd (mode : Rounding) (n d : Int) : Int :=
  let num := if d < 0 then -n else n
  let den := if d < 0 then -d else d
  let f := num / den
  let r2 := 2 * (num % den)
  match mode with
  | .tiesToEven => if r2 < den then f else if den < r2 then f + 1 else if f % 2 = 0 then f else f + 1
  | .tiesUp => if r2 < den then f else f + 1
  | .truncate => if num < 0 ∧ r2 ≠ 0 then f + 1 else f

/-- `clamp(i)` of R12: the source's "clamped on write". -/
def clamp (i : Int) : Byte :=
  if i < 0 then 0#8 else if 255 < i then 255#8 else BitVec.ofNat 8 i.toNat

/-- `clamp(rnd(n / d))`, the form of every computed channel value (R12). -/
def clampRnd (mode : Rounding) (n d : Int) : Byte := clamp (rnd mode n d)

/-- Put a byte into its place in a sorted list. -/
def insertAsc (b : Byte) : List Byte → List Byte
  | [] => [b]
  | x :: xs => if b.toNat ≤ x.toNat then b :: x :: xs else x :: insertAsc b xs

/-- `sort_asc(list)` of R12: non-decreasing order of the unsigned values. -/
def sortAsc : List Byte → List Byte
  | [] => []
  | x :: xs => insertAsc x (sortAsc xs)

end Sys2Proof.Machine
end

