-- ==== Sys2Proof/Machine/Flags.lean ====
section
/-! DEFINITION. The flags of GCE (R46): the values of `STATUS` (R25), the codes of `ERRCODE` (R280), the bits of
`IRQST` (R29, R295) and the `irq` line (R296). There are no arithmetic flags. -/

namespace Sys2Proof.Machine

/-- `STATUS` while a command is in execution: `BUSY` (R25). -/
def statusBusy : BitVec 3 := 0b001#3

/-- `STATUS` after a command that succeeded: `DONE` (R25). -/
def statusDone : BitVec 3 := 0b010#3

/-- `STATUS` after a command that failed: `DONE` and `ERR` (R25). -/
def statusFailed : BitVec 3 := 0b110#3

/-- The error codes of R280. -/
def ErrKind.code : ErrKind → BitVec 4
  | .shapeMismatch => 1#4
  | .unsupportedDepth => 2#4
  | .missingKernelParameters => 3#4
  | .unknownTransformType => 4#4
  | .invalidParameter => 5#4
  | .illegalCommand => 6#4
  | .addressRange => 7#4
  | .overlap => 8#4
  | .lineTooLong => 9#4

/-- `IRQST.DONE` (R295). -/
def irqDone : BitVec 3 := 0b001#3

/-- `IRQST.ERR` (R295). -/
def irqErr : BitVec 3 := 0b010#3

/-- `IRQST.OVR` (R295). -/
def irqOvr : BitVec 3 := 0b100#3

/-- A host write of `m` to `IRQST` (R29): `IRQST AND NOT m` on bits 2:0. -/
def ackIrq (irqst : BitVec 3) (m : Word) : BitVec 3 := irqst &&& ~~~(m.extractLsb' 0 3)

/-- The `irq` line (R296). -/
def State.irq (s : State) : Bool := (s.irqst &&& s.irqen &&& 0b111#3) != 0#3

end Sys2Proof.Machine
end

