-- ==== Sys2Proof/Machine/Ops.lean ====
section
/-! DEFINITION. The named operations: reading and writing frame memory (R71), weights (R41) and tables (R42), the
accept step (R130), and the two ends of a command (R131, R290). -/

namespace Sys2Proof.Machine

/-! Frame memory. -/

/-- What an address that memory does not list reads as. DESIGN CHOICE, log entry 8: the spec leaves the contents of
frame memory at power-up open (R324). -/
def Memory.fill : Byte := 0#8

/-- `MemRead(a, 1)` (R13, R71). -/
def Memory.read : Memory → Nat → Byte
  | [], _ => Memory.fill
  | (k, b) :: m, a => if k = a then b else Memory.read m a

/-- `MemWrite(a, 1, v)` (R13, R71), in canonical form. -/
def Memory.write : Memory → Nat → Byte → Memory
  | [], a, v => if v = Memory.fill then [] else [(a, v)]
  | (k, b) :: m, a, v =>
    if a < k then (if v = Memory.fill then (k, b) :: m else (a, v) :: (k, b) :: m)
    else if a = k then (if v = Memory.fill then m else (a, v) :: m)
    else (k, b) :: Memory.write m a v

/-- The writes of a command, one after another (R131). -/
def Memory.writeAll : Memory → List Host.Cell → Memory
  | m, [] => m
  | m, (a, v) :: ws => Memory.writeAll (Memory.write m a v) ws

/-- Every listed address is above `lo`, addresses strictly rise, and no entry holds the fill byte. -/
def Memory.wfFrom : Nat → Memory → Bool
  | _, [] => true
  | lo, (k, b) :: m => decide (lo ≤ k) && decide (b ≠ Memory.fill) && Memory.wfFrom (k + 1) m

/-- The canonical form: addresses strictly rising, no entry equal to what an unlisted address reads as. -/
def Memory.wf (m : Memory) : Bool := Memory.wfFrom 0 m

/-- Every listed address exists in a frame memory of `size` bytes (R71). -/
def Memory.below (m : Memory) (size : Nat) : Bool := m.all fun c => decide (c.1 < size)

/-! The weight file and the tables. -/

/-- `sext_16(KW[j])` (R41). A state that meets the invariant holds every weight a command reads. -/
def State.weight (s : State) (j : Nat) : Int := (s.kw.getD j 0#16).toInt

/-- `LUT[k][v]` (R42). -/
def State.lutEntry (s : State) (k : Fin 3) (v : Fin 256) : Byte := s.lut[k][v]

/-- Three tables given entry by entry. -/
def tablesOf (f : Fin 3 → Fin 256 → Byte) : Tables := Vector.ofFn fun k => Vector.ofFn fun v => f k v

/-- The tables with one entry replaced (R42). -/
def setEntry (t : Tables) (k : Fin 3) (v : Fin 256) (b : Byte) : Tables := t.set k (t[k].set v b)

/-! The life cycle of a command. -/

/-- Accept (R130). `disturbed` is the model's own: no host move has yet broken R84 for this command. -/
def accept (w : Word) (s : State) : State :=
  { s with lastcmd := w, errcode := 0#4, status := statusBusy, phase := .busy, disturbed := false }

/-- Complete without error (R131). -/
def completeOk (e : Effect) (s : State) : State :=
  { s with
    fm := s.fm.writeAll e.fmWrites
    lut := e.lut.getD s.lut
    lb := e.lb.getD s.lb
    dstLen := BitVec.ofNat 32 e.outLen
    errcode := 0#4
    status := statusDone
    irqst := s.irqst ||| irqDone
    phase := .idle }

/-- Complete with an error: what taking an exception is on this hardware (R131, R290). `ERRCODE` is the cause,
`LASTCMD` already holds the word, and no byte of memory, table or weight changes. The return from it is the accept
step of the host's next command (R293). -/
def completeErr (k : ErrKind) (s : State) : State :=
  { s with
    dstLen := 0#32
    errcode := k.code
    status := statusFailed
    irqst := s.irqst ||| (irqDone ||| irqErr)
    phase := .idle }

/-- The complete step (R131) on the result of `exec`. -/
def complete (r : Except ErrKind Effect) (s : State) : State :=
  match r with
  | .ok e => completeOk e s
  | .error k => completeErr k s

/-- A host write that the write lock discards (R44, R294). -/
def overrun (s : State) : State := { s with irqst := s.irqst ||| irqOvr }

/-- `raise k` when `c` holds (R13). -/
def raiseIf (c : Prop) [Decidable c] (k : ErrKind) : Except ErrKind Unit :=
  if c then .error k else .ok ()

end Sys2Proof.Machine
end

