-- ==== Sys2Proof/Machine/Operands.lean ====
section
/-! DEFINITION. How a command reads its operands (R113): the shape check (R135), the region checks (R78, R79), the
source and destination layout (R72, R73), `fetch_pixel` (R139) and `pack` (R138). -/

namespace Sys2Proof.Machine

/-! Registers as numbers (R11, R113). -/

/-- `zext(x[SRC_BASE])` (R30). -/
def State.sb (s : State) : Nat := s.srcBase.toNat

/-- `zext(x[DST_BASE])` (R32). -/
def State.db (s : State) : Nat := s.dstBase.toNat

/-- `zext(x[SRC_LEN])` (R31). -/
def State.len (s : State) : Nat := s.srcLen.toNat

/-- `zext(x[KRADIUS])` (R36). -/
def State.radius (s : State) : Nat := s.kradius.toNat

/-- `zext(x[KLEN])` (R37). -/
def State.nWeights (s : State) : Nat := s.klen.toNat

/-- `sext_32(x[DIV_NUM])` (R38). -/
def State.num (s : State) : Int := s.divNum.toInt

/-- `zext(x[DIV_DEN])` (R39). -/
def State.den (s : State) : Nat := s.divDen.toNat

/-- `sext_32(x[LUT_PARAM])` (R40), for brightness, threshold and, over 65536, contrast. -/
def State.signedParam (s : State) : Int := s.lutParam.toInt

/-- `zext(x[LUT_PARAM])` (R40), for posterize. -/
def State.levels (s : State) : Nat := s.lutParam.toNat

/-! Checks. -/

/-- `shape()` (R135). -/
def shape (s : State) : Except ErrKind Shape := do
  let w := s.width.toNat
  let h := s.height.toNat
  let l := s.len
  raiseIf (w = 0 ∨ h = 0) .shapeMismatch
  let n := w * h
  raiseIf (l % n ≠ 0) .shapeMismatch
  let d := l / n
  raiseIf (d ≠ 1 ∧ d ≠ 4) .unsupportedDepth
  return ⟨w, h, n, l, d⟩

/-- `od` (R136). -/
def outDepth (mono : Bool) : Nat := if mono then 1 else 4

/-- `check_range(useDst = false)` (R78). -/
def checkSrcRange (s : State) (sh : Shape) : Except ErrKind Unit :=
  raiseIf (s.sb + sh.l > s.cfg.fmBytes) .addressRange

/-- `check_range(useDst = true)` (R78). -/
def checkRange (s : State) (sh : Shape) (od : Nat) : Except ErrKind Unit := do
  checkSrcRange s sh
  raiseIf (s.db + sh.n * od > s.cfg.fmBytes) .addressRange

/-- `check_overlap()` (R79). -/
def checkOverlap (s : State) (sh : Shape) (od : Nat) : Except ErrKind Unit :=
  raiseIf (s.sb < s.db + sh.n * od ∧ s.db < s.sb + sh.l) .overlap

/-! Layout. -/

/-- `SA(x, y, c)` (R72). -/
def srcAddr (s : State) (sh : Shape) (x y c : Nat) : Nat := s.sb + (y * sh.w + x) * sh.d + c

/-- `MemRead(SA(x, y, c), 1)` (R72). -/
def srcByte (s : State) (sh : Shape) (x y c : Nat) : Byte := s.fm.read (srcAddr s sh x y c)

/-- `src(p, c)` (R14). -/
def src (s : State) (sh : Shape) (p c : Nat) : Byte := s.fm.read (s.sb + p * sh.d + c)

/-- The address of output channel `c` of pixel `p` (R14, R73). -/
def dstAddr (s : State) (od p c : Nat) : Nat := s.db + p * od + c

/-- `fetch_pixel(p)` (R139). -/
def fetchPixel (s : State) (sh : Shape) (p : Nat) : Pixel :=
  if sh.d = 4 then ⟨src s sh p 0, src s sh p 1, src s sh p 2, src s sh p 3⟩
  else ⟨src s sh p 0, src s sh p 0, src s sh p 0, 255#8⟩

/-- Colour value `k` of a pixel. -/
def Pixel.colour (px : Pixel) (k : Fin 3) : Byte :=
  match k with
  | 0 => px.c0
  | 1 => px.c1
  | 2 => px.c2

/-- `pack(p, c0, c1, c2, a)` (R138). -/
def pack (s : State) (mono : Bool) (p : Nat) (px : Pixel) : List Host.Cell :=
  if mono then [(dstAddr s 1 p 0, px.colour s.cfg.monoPick)]
  else [(dstAddr s 4 p 0, px.c0), (dstAddr s 4 p 1, px.c1), (dstAddr s 4 p 2, px.c2), (dstAddr s 4 p 3, px.a)]

/-- The result of a buffer command that passed its checks (R140): every pixel packed, `out_len = N*od`. -/
def bufferEffect (s : State) (sh : Shape) (mono : Bool) (pixel : Nat → Pixel) : Effect where
  fmWrites := (List.range sh.n).flatMap fun p => pack s mono p (pixel p)
  lut := none
  outLen := sh.n * outDepth mono
  lb := none

end Sys2Proof.Machine
end

