-- ==== Sys2Proof/Machine/Control.lean ====
section
/-! DEFINITION. `NOP` (R133), `VALID` (R134), and the words that name no operation (R107, R286). Each command has its
effect, the `exec(c)` of R132, and its meaning, the complete step (R131) on that effect. -/

namespace Sys2Proof.Machine

/-- A command whose decode raises an error (R132): nothing is read. -/
def raiseEffect (k : ErrKind) : Except ErrKind Effect := .error k

/-- The meaning of a command from its effect: the complete step (R131). -/
def finish (r : Except ErrKind Effect) (s : State) : Host.Outcome State Fault Refusal := .next (complete r s)

/-- `exec(NOP)` (R133). -/
def nopEffect : Except ErrKind Effect := .ok ⟨[], none, 0, none⟩

/-- `NOP` (R133). -/
def execNop (s : State) : Host.Outcome State Fault Refusal := finish nopEffect s

/-- `exec(VALID)` (R134). -/
def validEffect (s : State) : Except ErrKind Effect := do
  let sh ← shape s
  checkSrcRange s sh
  return ⟨[], none, 0, none⟩

/-- `VALID` (R134). -/
def execValid (s : State) : Host.Outcome State Fault Refusal := finish (validEffect s) s

/-- `ILLEGAL` (R107, R286): `IllegalCommand`; the word is in `LASTCMD`. -/
def execIllegal (s : State) : Host.Outcome State Fault Refusal := finish (raiseEffect .illegalCommand) s

end Sys2Proof.Machine
end

