-- ==== Sys2Proof/Machine/LineBuffer.lean ====
section
/-! DEFINITION. The line-buffer row cache (R260 to R264): invalidate, fetch a row into its slot, tap a byte. -/

namespace Sys2Proof.Machine

/-- One tag set to `invalid`; the row bytes stay (R261, R320). -/
def LineSlot.invalidate (x : LineSlot) : LineSlot := { x with tag := none }

/-- Every tag set to `invalid` (R261). -/
def LineBuffer.invalidate (lb : LineBuffer) : LineBuffer := lb.map LineSlot.invalidate

/-- The `W*d` bytes of source row `q` in frame memory (R263). -/
def rowBytes (s : State) (sh : Shape) (q : Nat) : List Byte :=
  (List.range (sh.w * sh.d)).map fun b => s.fm.read (s.sb + q * sh.w * sh.d + b)

/-- `fetch_row(q)` (R263): row `q` goes to slot `q mod NR`; bytes of the slot from `W*d` up stay. -/
def fetchRow (s : State) (sh : Shape) (lb : LineBuffer) (q : Nat) : LineBuffer :=
  lb.modify (q % s.cfg.nr) fun x => ⟨some q, rowBytes s sh q ++ x.row.drop (sh.w * sh.d)⟩

/-- `tap(xx, yy, c)` (R264): nothing unless the slot holds row `yy`. -/
def tap (s : State) (sh : Shape) (lb : LineBuffer) (xx yy c : Nat) : Option Byte :=
  match lb[yy % s.cfg.nr]? with
  | some x => if x.tag = some yy then x.row[xx * sh.d + c]? else none
  | none => none

/-- The line buffer after a `CONV` (R261, R266): invalidated, then every source row fetched once, in ascending
order. -/
def fetchAll (s : State) (sh : Shape) : LineBuffer :=
  (List.range sh.h).foldl (fetchRow s sh) (LineBuffer.invalidate s.lb)

end Sys2Proof.Machine
end

