-- ==== Sys2Proof/Machine/Conv.lean ====
section
/-! DEFINITION. The convolution engine, `CONV` (R220 to R229), straight from frame memory as R228 states it, and its
streamed form through the line buffer (R262, R265, R266). -/

namespace Sys2Proof.Machine

/-- `check_kernel(med, W)` (R221): the radius, or the first error. -/
def checkKernel (med : Bool) (s : State) (sh : Shape) : Except ErrKind Nat := do
  let r := s.radius
  let n := s.nWeights
  raiseIf (n = 0 ∨ r = 0) .missingKernelParameters
  raiseIf (s.num = 0 ∨ s.den = 0) .invalidParameter
  raiseIf (r > s.cfg.rmax) .invalidParameter
  raiseIf (med = false ∧ n ≠ (2 * r + 1) ^ 2) .invalidParameter
  raiseIf (sh.w > s.cfg.wmax) .lineTooLong
  return r

/-- Interior pixels (R222); `W - r` is an integer there, so the test is written without it. -/
def interior (sh : Shape) (r x y : Nat) : Bool :=
  decide (r ≤ x) && decide (x + r < sh.w) && decide (r ≤ y) && decide (y + r < sh.h)

/-- `s = 2*r+1` (R223). -/
def side (r : Nat) : Nat := 2 * r + 1

/-- `K = (2r+1)^2` (R223). -/
def windowSize (r : Nat) : Nat := side r * side r

/-- `win(x, y, c)` (R223), for an interior pixel: from the upper left, along a row first, not flipped. -/
def window (s : State) (sh : Shape) (r x y c : Nat) : List Byte :=
  (List.range (windowSize r)).map fun j => srcByte s sh (x + j % side r - r) (y + j / side r - r) c

/-- `acc` (R224): the exact sum of byte times weight, the weights from `KW[j]` on. -/
def accumulate (s : State) : Nat → List Byte → Int
  | _, [] => 0
  | j, b :: bs => b.toNat * s.weight j + accumulate s (j + 1) bs

/-- The weighted value (R224): `clamp(rnd(acc * DIV_DEN / DIV_NUM))`. -/
def weightedValue (s : State) (win : List Byte) : Byte :=
  clampRnd s.cfg.round (accumulate s 0 win * s.den) s.num

/-- The median value (R225): element `K div 2` of the sorted window. -/
def medianValue (win : List Byte) : Byte := (sortAsc win).getD (win.length / 2) 0#8

/-- The value of a full window (R224, R225). -/
def windowValue (med : Bool) (s : State) (win : List Byte) : Byte :=
  if med then medianValue win else weightedValue s win

/-- The value of source channel `c` at `(x, y)` (R224 to R226): a window's, or the source byte on the border. -/
def convValue (med : Bool) (s : State) (sh : Shape) (r x y c : Nat) : Byte :=
  if interior sh r x y then windowValue med s (window s sh r x y c) else srcByte s sh x y c

/-- The source channel that supplies colour `k` (R228). -/
def colourChannel (sh : Shape) (k : Nat) : Nat := if sh.d = 4 then k else 0

/-- The pixel `CONV` hands to `pack` (R228); the alpha is never convolved (R227). -/
def convPixel (med : Bool) (s : State) (sh : Shape) (r p : Nat) : Pixel :=
  let x := p % sh.w
  let y := p / sh.w
  let value := fun k => convValue med s sh r x y (colourChannel sh k)
  ⟨value 0, value 1, value 2, if sh.d = 4 then srcByte s sh x y 3 else 255#8⟩

/-- `exec(CONV(mono, med))` (R228). The line buffer is left as R266 says. -/
def convEffect (mono med : Bool) (s : State) : Except ErrKind Effect := do
  let sh ← shape s
  let r ← checkKernel med s sh
  checkRange s sh (outDepth mono)
  checkOverlap s sh (outDepth mono)
  return { bufferEffect s sh mono (convPixel med s sh r) with lb := some (fetchAll s sh) }

/-- `CONV` (R228). -/
def execConv (mono med : Bool) (s : State) : Host.Outcome State Fault Refusal := finish (convEffect mono med s) s

/-! The streamed form (R262, R265, R266). It reads no source byte but through `tap`. -/

/-- `top(y)` (R262). -/
def topRow (sh : Shape) (r y : Nat) : Nat := if r ≤ y ∧ y + r < sh.h then y + r else y

/-- `value(form(x, y, c))` (R265): nothing if a tap finds its row missing. -/
def streamValue (med : Bool) (s : State) (sh : Shape) (r : Nat) (lb : LineBuffer) (x y c : Nat) : Option Byte :=
  if interior sh r x y then
    ((List.range (windowSize r)).mapM fun j => tap s sh lb (x + j % side r - r) (y + j / side r - r) c).map
      (windowValue med s)
  else tap s sh lb x y c

/-- The pixel the window former hands to `pack` (R266). -/
def streamPixel (med : Bool) (s : State) (sh : Shape) (r : Nat) (lb : LineBuffer) (x y : Nat) : Option Pixel := do
  let c0 ← streamValue med s sh r lb x y (colourChannel sh 0)
  let c1 ← streamValue med s sh r lb x y (colourChannel sh 1)
  let c2 ← streamValue med s sh r lb x y (colourChannel sh 2)
  let a ← if sh.d = 4 then tap s sh lb x y 3 else some 255#8
  return ⟨c0, c1, c2, a⟩

/-- Fetch rows while `nxt <= top` (R266). -/
def fetchTo (s : State) (sh : Shape) (nxt top : Nat) (lb : LineBuffer) : LineBuffer :=
  (List.range' nxt (top + 1 - nxt)).foldl (fetchRow s sh) lb

/-- One output row of `conv_streamed` (R266): the line buffer, the next row to fetch, the writes so far. -/
def streamRow (mono med : Bool) (s : State) (sh : Shape) (r : Nat) (st : LineBuffer × Nat × List Host.Cell) (y : Nat) :
    Option (LineBuffer × Nat × List Host.Cell) := do
  let top := topRow sh r y
  let lb := fetchTo s sh st.2.1 top st.1
  let cells ← (List.range sh.w).mapM fun x =>
    (streamPixel med s sh r lb x y).map (pack s mono (y * sh.w + x))
  return (lb, max st.2.1 (top + 1), st.2.2 ++ cells.flatten)

/-- `conv_streamed` (R266): the line buffer and the writes at the end, or nothing if the `require` of R264 ever
failed. -/
def convStreamed (mono med : Bool) (s : State) (sh : Shape) (r : Nat) : Option (LineBuffer × List Host.Cell) :=
  ((List.range sh.h).foldlM (streamRow mono med s sh r) (LineBuffer.invalidate s.lb, 0, [])).map
    fun st => (st.1, st.2.2)

end Sys2Proof.Machine
end

