-- ==== Sys2Proof/Machine/Gray.lean ====
section
/-! DEFINITION. The grayscale reducer, `GRAY` (R160 to R164). -/

namespace Sys2Proof.Machine

/-- `exec(GRAY(mode, ch, mono))` (R160) for the luminance of one mode; `badChannel` is the test of R163. -/
def grayEffect (lum : Byte → Byte → Byte → Byte) (badChannel mono : Bool) (s : State) : Except ErrKind Effect := do
  let sh ← shape s
  raiseIf (sh.d ≠ 4) .unsupportedDepth
  raiseIf (badChannel = true) .invalidParameter
  checkRange s sh (outDepth mono)
  checkOverlap s sh (outDepth mono)
  return bufferEffect s sh mono fun p =>
    let v := lum (src s sh p 0) (src s sh p 1) (src s sh p 2)
    ⟨v, v, v, src s sh p 3⟩

/-- `luminance(0, ch, R, G, B)` (R161): `(299*R + 587*G + 114*B) / 1000`, exact, rounded, clamped. -/
def luma (mode : Rounding) (r g b : Byte) : Byte :=
  clampRnd mode (299 * r.toNat + 587 * g.toNat + 114 * b.toNat) 1000

/-- `luminance(1, ch, R, G, B)` (R162): `(R + G + B) / 3`. -/
def average (mode : Rounding) (r g b : Byte) : Byte := clampRnd mode (r.toNat + g.toNat + b.toNat) 3

/-- `luminance(2, ch, R, G, B)` (R163), for `ch` 0, 1, 2. -/
def channel (ch : BitVec 4) (r g b : Byte) : Byte := if ch = 0#4 then r else if ch = 1#4 then g else b

/-- The effect of `GRAY.LUMA` (R161). -/
def grayLumaEffect (mono : Bool) (s : State) : Except ErrKind Effect :=
  grayEffect (luma s.cfg.round) false mono s

/-- The effect of `GRAY.AVERAGE` (R162). -/
def grayAverageEffect (mono : Bool) (s : State) : Except ErrKind Effect :=
  grayEffect (average s.cfg.round) false mono s

/-- The effect of `GRAY.SIMPLE ch` (R163): `ARG` from 3 up selects no colour channel. -/
def graySimpleEffect (ch : BitVec 4) (mono : Bool) (s : State) : Except ErrKind Effect :=
  grayEffect (channel ch) (decide (3 ≤ ch.toNat)) mono s

/-- `GRAY.LUMA` (R161). -/
def execGrayLuma (mono : Bool) (s : State) : Host.Outcome State Fault Refusal := finish (grayLumaEffect mono s) s

/-- `GRAY.AVERAGE` (R162). -/
def execGrayAverage (mono : Bool) (s : State) : Host.Outcome State Fault Refusal :=
  finish (grayAverageEffect mono s) s

/-- `GRAY.SIMPLE ch` (R163). -/
def execGraySimple (ch : BitVec 4) (mono : Bool) (s : State) : Host.Outcome State Fault Refusal :=
  finish (graySimpleEffect ch mono s) s

/-- `GRAY` with `SUB = 3` (R164, R284). -/
def execGrayUnknown3 (s : State) : Host.Outcome State Fault Refusal := finish (raiseEffect .unknownTransformType) s

/-- `GRAY` with `SUB` 4 to 7 (R164, R284). -/
def execGrayUnknown4to7 (s : State) : Host.Outcome State Fault Refusal :=
  finish (raiseEffect .unknownTransformType) s

/-- `GRAY` with `SUB` 8 to 15 (R164, R284). -/
def execGrayUnknown8to15 (s : State) : Host.Outcome State Fault Refusal :=
  finish (raiseEffect .unknownTransformType) s

end Sys2Proof.Machine
end

