-- ==== Sys2Proof/Machine/Tone.lean ====
section
/-! DEFINITION. The tone-curve engine: `BUILD` (R180 to R188) and `APPLY` (R189). -/

namespace Sys2Proof.Machine

/-- `exec(BUILD(kind))` (R180) with the tables of the kind: all 768 entries, no buffer. -/
def buildEffect (t : Tables) : Effect := ⟨[], some t, 0, none⟩

/-- The one table of every kind but pseudocolor, three times (R180). -/
def sameTables (f : Nat → Byte) : Tables := tablesOf fun _ v => f v.val

/-- Brightness (R181): `clamp(v + level)`. -/
def brightnessEntry (level : Int) (v : Nat) : Byte := clamp (v + level)

/-- Contrast (R182): `clamp(rnd((v - 128)*level + 128))` with `level = p / 65536`, as one fraction over 65536. -/
def contrastEntry (mode : Rounding) (p : Int) (v : Nat) : Byte :=
  clampRnd mode ((v - 128) * p + 128 * 65536) 65536

/-- Posterize (R183), for `levels ≥ 2`. -/
def posterizeEntry (mode : Rounding) (levels v : Nat) : Byte :=
  let b := v * levels / 256
  if b = levels - 1 then 255#8 else clampRnd mode (b * 256) (levels - 1 : Nat)

/-- Threshold (R184). -/
def thresholdEntry (level : Int) (v : Nat) : Byte := if level ≤ v then 255#8 else 0#8

/-- Solarize (R185): three bands, the even ones ramp down from 255 and the odd one ramps up from 0. -/
def solarizeEntry (v : Nat) : Byte :=
  let b := 3 * v / 256
  if b = 0 then BitVec.ofNat 8 (255 - 3 * v)
  else if b = 1 then BitVec.ofNat 8 (3 * v - 256)
  else BitVec.ofNat 8 (767 - 3 * v)

/-- Invert (R187). -/
def invertEntry (v : Nat) : Byte := BitVec.ofNat 8 (255 - v)

/-- The effect of `BUILD.BRIGHTNESS` (R181). -/
def brightnessEffect (s : State) : Except ErrKind Effect :=
  .ok (buildEffect (sameTables (brightnessEntry s.signedParam)))

/-- The effect of `BUILD.CONTRAST` (R182). -/
def contrastEffect (s : State) : Except ErrKind Effect :=
  .ok (buildEffect (sameTables (contrastEntry s.cfg.round s.signedParam)))

/-- The effect of `BUILD.POSTERIZE` (R183). -/
def posterizeEffect (s : State) : Except ErrKind Effect := do
  raiseIf (s.levels < 2) .invalidParameter
  return buildEffect (sameTables (posterizeEntry s.cfg.round s.levels))

/-- The effect of `BUILD.THRESHOLD` (R184). -/
def thresholdEffect (s : State) : Except ErrKind Effect :=
  .ok (buildEffect (sameTables (thresholdEntry s.signedParam)))

/-- The effect of `BUILD.SOLARIZE` (R185). -/
def solarizeEffect : Except ErrKind Effect := .ok (buildEffect (sameTables solarizeEntry))

/-- The effect of `BUILD.PSEUDOCOLOR` (R186): the instance's own tables. -/
def pseudocolorEffect (s : State) : Except ErrKind Effect := .ok (buildEffect s.cfg.pseudoRom)

/-- The effect of `BUILD.INVERT` (R187). -/
def invertEffect : Except ErrKind Effect := .ok (buildEffect (sameTables invertEntry))

/-- `BUILD.BRIGHTNESS` (R181). -/
def execBuildBrightness (s : State) : Host.Outcome State Fault Refusal := finish (brightnessEffect s) s

/-- `BUILD.CONTRAST` (R182). -/
def execBuildContrast (s : State) : Host.Outcome State Fault Refusal := finish (contrastEffect s) s

/-- `BUILD.POSTERIZE` (R183). -/
def execBuildPosterize (s : State) : Host.Outcome State Fault Refusal := finish (posterizeEffect s) s

/-- `BUILD.THRESHOLD` (R184). -/
def execBuildThreshold (s : State) : Host.Outcome State Fault Refusal := finish (thresholdEffect s) s

/-- `BUILD.SOLARIZE` (R185). -/
def execBuildSolarize (s : State) : Host.Outcome State Fault Refusal := finish solarizeEffect s

/-- `BUILD.PSEUDOCOLOR` (R186). -/
def execBuildPseudocolor (s : State) : Host.Outcome State Fault Refusal := finish (pseudocolorEffect s) s

/-- `BUILD.INVERT` (R187). -/
def execBuildInvert (s : State) : Host.Outcome State Fault Refusal := finish invertEffect s

/-- `BUILD` with `SUB = 7` (R188, R284). -/
def execBuildUnknown7 (s : State) : Host.Outcome State Fault Refusal := finish (raiseEffect .unknownTransformType) s

/-- `BUILD` with `SUB` 8 to 15 (R188, R284). -/
def execBuildUnknown8to15 (s : State) : Host.Outcome State Fault Refusal :=
  finish (raiseEffect .unknownTransformType) s

/-- The colour byte `v` through table `k` (R189). -/
def remap (s : State) (k : Fin 3) (v : Byte) : Byte := s.lutEntry k v.toFin

/-- `exec(APPLY(mono))` (R189). -/
def applyEffect (mono : Bool) (s : State) : Except ErrKind Effect := do
  let sh ← shape s
  checkRange s sh (outDepth mono)
  checkOverlap s sh (outDepth mono)
  return bufferEffect s sh mono fun p =>
    let px := fetchPixel s sh p
    ⟨remap s 0 px.c0, remap s 1 px.c1, remap s 2 px.c2, px.a⟩

/-- `APPLY` (R189). -/
def execApply (mono : Bool) (s : State) : Host.Outcome State Fault Refusal := finish (applyEffect mono s) s

end Sys2Proof.Machine
end

