-- ==== Sys2Proof/Machine/Dispatch.lean ====
section
/-! DEFINITION. The complete step of a decoded command (R131, R132): one arm per constructor of `Instr`. -/

namespace Sys2Proof.Machine

def exec (i : Instr) (s : State) : Host.Outcome State Fault Refusal :=
  match i with
  | .nop => Sys2Proof.Machine.execNop s
  | .conv mono med => Sys2Proof.Machine.execConv mono med s
  | .buildBrightness => Sys2Proof.Machine.execBuildBrightness s
  | .buildContrast => Sys2Proof.Machine.execBuildContrast s
  | .buildPosterize => Sys2Proof.Machine.execBuildPosterize s
  | .buildThreshold => Sys2Proof.Machine.execBuildThreshold s
  | .buildSolarize => Sys2Proof.Machine.execBuildSolarize s
  | .buildPseudocolor => Sys2Proof.Machine.execBuildPseudocolor s
  | .buildInvert => Sys2Proof.Machine.execBuildInvert s
  | .buildUnknown7 => Sys2Proof.Machine.execBuildUnknown7 s
  | .buildUnknown8to15 _ => Sys2Proof.Machine.execBuildUnknown8to15 s
  | .apply mono => Sys2Proof.Machine.execApply mono s
  | .grayLuma mono => Sys2Proof.Machine.execGrayLuma mono s
  | .grayAverage mono => Sys2Proof.Machine.execGrayAverage mono s
  | .graySimple ch mono => Sys2Proof.Machine.execGraySimple ch mono s
  | .grayUnknown3 _ _ => Sys2Proof.Machine.execGrayUnknown3 s
  | .grayUnknown4to7 _ _ _ => Sys2Proof.Machine.execGrayUnknown4to7 s
  | .grayUnknown8to15 _ _ _ => Sys2Proof.Machine.execGrayUnknown8to15 s
  | .valid => Sys2Proof.Machine.execValid s
  | .illegal _ => Sys2Proof.Machine.execIllegal s

end Sys2Proof.Machine
end

