-- ==== Sys2Proof/Machine/Engine.lean ====
section
/-! DEFINITION. The engine as an agent: the effect a command in execution would have, its complete step (R131), what is
seen of it before that step (R45, R84, R333), and reset (R320, R322). -/

namespace Sys2Proof.Machine

/-- `exec(c)` of R132: what the complete step of a command would write, or the error it raises. -/
def commandEffect (i : Instr) (s : State) : Except ErrKind Effect :=
  match i with
  | .nop => nopEffect
  | .conv mono med => convEffect mono med s
  | .buildBrightness => brightnessEffect s
  | .buildContrast => contrastEffect s
  | .buildPosterize => posterizeEffect s
  | .buildThreshold => thresholdEffect s
  | .buildSolarize => solarizeEffect
  | .buildPseudocolor => pseudocolorEffect s
  | .buildInvert => invertEffect
  | .buildUnknown7 => raiseEffect .unknownTransformType
  | .buildUnknown8to15 _ => raiseEffect .unknownTransformType
  | .apply mono => applyEffect mono s
  | .grayLuma mono => grayLumaEffect mono s
  | .grayAverage mono => grayAverageEffect mono s
  | .graySimple ch mono => graySimpleEffect ch mono s
  | .grayUnknown3 _ _ => raiseEffect .unknownTransformType
  | .grayUnknown4to7 _ _ _ => raiseEffect .unknownTransformType
  | .grayUnknown8to15 _ _ _ => raiseEffect .unknownTransformType
  | .valid => validEffect s
  | .illegal _ => raiseEffect .illegalCommand

/-- The effect of the command in execution, if there is one and it will succeed. A failing command has none (R290). -/
def inFlight (s : State) : Option Effect :=
  match s.phase with
  | .idle => none
  | .busy => (commandEffect (decode s.lastcmd) s).toOption

/-- `a` lies in the destination region of the command in execution (R77). -/
def inDstRegion (s : State) (a : Nat) : Bool :=
  match inFlight s with
  | none => false
  | some e => decide (s.db ≤ a) && decide (a < s.db + e.outLen)

/-- `a` lies in the source region of the command in execution, one that has a destination too (R77, R84). -/
def inSrcRegion (s : State) (a : Nat) : Bool :=
  match inFlight s with
  | none => false
  | some e => decide (e.outLen ≠ 0) && decide (s.sb ≤ a) && decide (a < s.sb + s.len)

/-- What a host read of a `LUT` entry returns (R45, R333): while a `BUILD` is in execution its old value or its new
one, and which is a free value (U10, log entry 11). -/
def lutSeen (s : State) (k : Fin 3) (v : Fin 256) : Byte :=
  match inFlight s with
  | none => s.lutEntry k v
  | some e =>
    match e.lut with
    | none => s.lutEntry k v
    | some t => if Config.freeBit s.freeCount (256 * k.val + v.val) then t[k][v] else s.lutEntry k v

/-- What a host read of a frame-memory byte returns (R71, R84): in the destination region of the command in execution
the old byte or the new one, and which is a free value; any byte once the host has disturbed the regions (U7, log
entry 12). -/
def memSeen (s : State) (a : Nat) : Byte :=
  if inDstRegion s a then
    if s.disturbed then Config.freeByte s.freeCount a
    else
      match inFlight s with
      | none => s.fm.read a
      | some e =>
        if Config.freeBit s.freeCount a then Memory.read (s.fm.writeAll e.fmWrites) a else s.fm.read a
  else s.fm.read a

/-- `n` unspecified bytes from address `a` up (R84). -/
def freeCells (count a n : Nat) : List Host.Cell :=
  (List.range n).map fun i => (a + i, Config.freeByte count (a + i))

/-- The host wrote into a region of the command: its whole destination region is unspecified after completion (R84,
U7, log entry 12). `s` is the state before the complete step, `t` after. -/
def scramble (s t : State) : State :=
  { t with
    fm := t.fm.writeAll (freeCells s.freeCount s.db t.dstLen.toNat)
    disturbed := false
    freeCount := s.freeCount + 1 }

/-- The engine takes its complete step (R131) on the command in `LASTCMD`. -/
def engineStep (s : State) : Host.Outcome State Fault Refusal :=
  match exec (decode s.lastcmd) s with
  | .next t => .next (if s.disturbed then scramble s t else t)
  | .fault r => .fault r
  | .refused r => .refused r

/-- The `engine` move: a complete step while `BUSY`, and nothing while `IDLE` (R131, R321). -/
def engineMove (s : State) : Host.Outcome State Fault Refusal :=
  match s.phase with
  | .idle => .next s
  | .busy => engineStep s

/-! Reset. -/

/-- The destination bytes an abandoned command had already written (R322): each either landed or not, a free value
(U8, log entry 10). -/
def landedCells (s : State) : List Host.Cell :=
  match inFlight s with
  | none => []
  | some e =>
    (if s.disturbed then freeCells s.freeCount s.db e.outLen else e.fmWrites).filter fun c =>
      Config.freeBit s.freeCount c.1

/-- The tables after an abandoned `BUILD` (R322): each entry old or new, a free value. -/
def landedTables (s : State) : Tables :=
  match inFlight s with
  | none => s.lut
  | some e =>
    match e.lut with
    | none => s.lut
    | some t =>
      tablesOf fun k v => if Config.freeBit s.freeCount (256 * k.val + v.val) then t[k][v] else s.lutEntry k v

/-- The reset event (R320, R322): the values of R52; `KW`, `LUT`, the line-buffer bytes and frame memory stay, but for
what an abandoned command had already written. -/
def resetMove (s : State) : State :=
  { s with
    status := 0#3
    errcode := 0#4
    lastcmd := 0#32
    irqen := 0#3
    irqst := 0#3
    srcBase := 0#32
    srcLen := 0#32
    dstBase := 0#32
    dstLen := 0#32
    width := 0#32
    height := 0#32
    kradius := 0#32
    klen := 0#32
    divNum := 1#32
    divDen := 1#32
    lutParam := 0#32
    lut := landedTables s
    phase := .idle
    lb := LineBuffer.invalidate s.lb
    fm := s.fm.writeAll (landedCells s)
    disturbed := false
    freeCount := s.freeCount + 1 }

end Sys2Proof.Machine
end

