-- ==== Sys2Proof/Machine/HostPort.lean ====
section
/-! DEFINITION. The host as an agent: the register map (R22, R43), reads (R21, R45) and writes (R44) of registers, and
bytes of frame memory (R70, R84). -/

namespace Sys2Proof.Machine

/-- The registers of R22 outside the two windows. -/
def regMap : List (Nat × Reg) :=
  [ (0x000, .id), (0x004, .cmd), (0x008, .status), (0x00C, .errcode), (0x010, .lastcmd), (0x014, .irqen),
    (0x018, .irqst), (0x020, .srcBase), (0x024, .srcLen), (0x028, .dstBase), (0x02C, .dstLen), (0x030, .width),
    (0x034, .height), (0x040, .kradius), (0x044, .klen), (0x048, .divNum), (0x04C, .divDen), (0x050, .lutParam) ]

/-- The register at an offset that is a multiple of 4 (R22): `KW[j]` at `0x100 + 4*j`, `LUT[k][v]` at
`0x400 + 4*(256*k + v)`, and every other offset unmapped (R43). -/
def regAt (c : Config) (off : BitVec 12) : Reg :=
  let o := off.toNat
  if 0x400 ≤ o then
    .lut (Fin.ofNat 3 ((o - 0x400) / 4 / 256)) (Fin.ofNat 256 ((o - 0x400) / 4 % 256))
  else if 0x100 ≤ o then
    if o < 0x100 + 4 * c.nw then .kw ((o - 0x100) / 4) else .unmapped
  else
    match regMap.lookup o with
    | some r => r
    | none => .unmapped

/-- What a register reads as (R22 to R43). Reserved bits read 0 (R47). -/
def readReg (s : State) (r : Reg) : Word :=
  match r with
  | .id => Config.idValue
  | .cmd => 0#32
  | .status => s.status.setWidth 32
  | .errcode => s.errcode.setWidth 32
  | .lastcmd => s.lastcmd
  | .irqen => s.irqen.setWidth 32
  | .irqst => s.irqst.setWidth 32
  | .srcBase => s.srcBase
  | .srcLen => s.srcLen
  | .dstBase => s.dstBase
  | .dstLen => s.dstLen
  | .width => s.width
  | .height => s.height
  | .kradius => s.kradius
  | .klen => s.klen
  | .divNum => s.divNum
  | .divDen => s.divDen
  | .lutParam => s.lutParam
  | .kw j => (s.kw.getD j 0#16).signExtend 32
  | .lut k v => (lutSeen s k v).setWidth 32
  | .unmapped => 0#32

/-- The registers the write lock covers while `BUSY` (R44): `CMD`, the operand registers the host may write, `KW` and
`LUT`. -/
def Reg.locked : Reg → Bool
  | .cmd | .srcBase | .srcLen | .dstBase | .width | .height | .kradius | .klen | .divNum | .divDen | .lutParam => true
  | .kw _ | .lut _ _ => true
  | .id | .status | .errcode | .lastcmd | .irqen | .irqst | .dstLen | .unmapped => false

/-- A host write that is performed (R22 to R43): read-only registers and unmapped offsets ignore it. -/
def storeReg (s : State) (r : Reg) (v : Word) : State :=
  match r with
  | .cmd => accept v s
  | .irqen => { s with irqen := v.extractLsb' 0 3 }
  | .irqst => { s with irqst := ackIrq s.irqst v }
  | .srcBase => { s with srcBase := v }
  | .srcLen => { s with srcLen := v }
  | .dstBase => { s with dstBase := v }
  | .width => { s with width := v }
  | .height => { s with height := v }
  | .kradius => { s with kradius := v }
  | .klen => { s with klen := v }
  | .divNum => { s with divNum := v }
  | .divDen => { s with divDen := v }
  | .lutParam => { s with lutParam := v }
  | .kw j => { s with kw := s.kw.set j (v.extractLsb' 0 16) }
  | .lut k e => { s with lut := setEntry s.lut k e (v.extractLsb' 0 8) }
  | .id => s
  | .status => s
  | .errcode => s
  | .lastcmd => s
  | .dstLen => s
  | .unmapped => s

/-- A host write to a register: discarded with `IRQST.OVR` under the write lock (R44), else performed. -/
def writeReg (s : State) (r : Reg) (v : Word) : State :=
  if r.locked ∧ s.phase = .busy then overrun s else storeReg s r v

/-- The host writes the word at an offset (R21). -/
def hostWrite (off : BitVec 12) (v : Word) (s : State) : Host.Outcome State Fault Refusal :=
  if off.toNat % 4 ≠ 0 then .refused (.misalignedRegisterAccess off) else .next (writeReg s (regAt s.cfg off) v)

/-- The host reads the word at an offset (R21): no register changes. -/
def hostRead (off : BitVec 12) (s : State) : Host.Outcome State Fault Refusal :=
  if off.toNat % 4 ≠ 0 then .refused (.misalignedRegisterAccess off)
  else .next { s with hostData := readReg s (regAt s.cfg off), freeCount := s.freeCount + 1 }

/-- The host writes a byte of frame memory (R70, R84). -/
def hostMemWrite (a : Nat) (b : Byte) (s : State) : Host.Outcome State Fault Refusal :=
  if a < s.cfg.fmBytes then
    .next { s with fm := s.fm.write a b, disturbed := s.disturbed || inSrcRegion s a || inDstRegion s a }
  else .fault (.noFrameByte a)

/-- The host reads a byte of frame memory (R70, R84). -/
def hostMemRead (a : Nat) (s : State) : Host.Outcome State Fault Refusal :=
  if a < s.cfg.fmBytes then
    .next { s with hostData := (memSeen s a).setWidth 32, freeCount := s.freeCount + 1 }
  else .fault (.noFrameByte a)

/-- One move of an agent (R9). -/
def takeMove (e : Event) (s : State) : Host.Outcome State Fault Refusal :=
  match e with
  | .regWrite off v => hostWrite off v s
  | .regRead off => hostRead off s
  | .memWrite a b => hostMemWrite a b s
  | .memRead a => hostMemRead a s
  | .engine => engineMove s
  | .reset => .next (resetMove s)

/-- The state in which the very next move is the complete step of the command word `w`: `w` is accepted (R130), and
the engine moves next. -/
def fetchState (s : State) (w : Word) : State := { accept w s with inputs := .engine :: s.inputs }

end Sys2Proof.Machine
end

