-- ==== Sys2Proof/Machine/Step.lean ====
section
/-! DEFINITION. One step of the machine: the next move of an agent (R9), and with no move to come the engine finishes
the command in execution (R336) or nothing happens (R321). -/

namespace Sys2Proof.Machine

/-- One step. `inputs` says which agent moves next; when it is empty the engine, if busy, takes its complete step,
since every accepted command completes (R336), and an idle block does nothing (R321). -/
def step (s : State) : Host.Outcome State Fault Refusal :=
  match s.inputs with
  | [] => engineMove s
  | e :: rest => takeMove e { s with inputs := rest }

/-- `s` with the command word `w` accepted and the engine's complete step next. GCE fetches no instructions (R50): a
command word comes as the data of the host's write to `CMD`, and `LASTCMD` is where the engine finds it (R27, R131). -/
def State.withFetchWord (s : State) (nbits w : Nat) : State := fetchState s (BitVec.ofNat 32 (w % 2 ^ nbits))

end Sys2Proof.Machine
end

