-- ==== Sys2Proof/Safety.lean ====
section
/-! DEFINITION. What holds of every state a run reaches, and when a run is safe. -/

namespace Sys2Proof.Machine

/-- The values of `STATUS` that occur (R25), with the phase and the error code each goes with (R25, R26, R48). -/
def statusAgrees (s : State) : Prop :=
  (s.phase = .busy ∧ s.status = statusBusy ∧ s.errcode = 0#4) ∨
    (s.phase = .idle ∧ (s.status = 0#3 ∨ s.status = statusDone) ∧ s.errcode = 0#4) ∨
    (s.phase = .idle ∧ s.status = statusFailed ∧ ∃ k : ErrKind, s.errcode = k.code)

/-- Slot `i` of the line buffer (R260): a valid tag `q` has `q mod NR = i`, and the slot holds `4*WMAX` bytes. -/
def slotFits (c : Config) (i : Nat) (x : LineSlot) : Prop :=
  x.row.length = c.slotBytes ∧ ∀ q, x.tag = some q → q % c.nr = i

/-- The invariant of GCE. -/
structure State.Inv (s : State) : Prop where
  /-- The parameters meet their constraints (R8). -/
  cfgValid : s.cfg.valid = true
  /-- `STATUS`, `phase` and `ERRCODE` agree (R25, R26, R48). -/
  status : statusAgrees s
  /-- The weight file has `NW` weights (R41). -/
  weights : s.kw.length = s.cfg.nw
  /-- The line buffer has `NR` slots (R260). -/
  slots : s.lb.length = s.cfg.nr
  /-- Every slot fits (R260). -/
  slotsFit : ∀ i x, s.lb[i]? = some x → slotFits s.cfg i x
  /-- Frame memory keeps its canonical form. -/
  memory : s.fm.wf = true
  /-- Frame memory lists no byte that does not exist (R71). -/
  memoryBelow : s.fm.below s.cfg.fmBytes = true
  /-- Only a command in execution can be disturbed (R84). -/
  calm : s.disturbed = true → s.phase = .busy

/-- The offsets that the write lock covers (R44): `CMD`, the operand registers the host may write, `KW` and `LUT`, by
the register map R22. -/
def lockedOffset (c : Config) (off : BitVec 12) : Prop :=
  off ∈ [0x004#12, 0x020#12, 0x024#12, 0x028#12, 0x030#12, 0x034#12, 0x040#12, 0x044#12, 0x048#12, 0x04C#12,
      0x050#12] ∨ (0x100 ≤ off.toNat ∧ off.toNat < 0x100 + 4 * c.nw) ∨ 0x400 ≤ off.toNat

/-- A step that stops is one the host caused by an access that does not exist (R21, R71): no command stops it. -/
def stopsOnlyForHost (s : State) : Prop :=
  (∃ t, step s = .next t) ∨
    (∃ off rest, s.inputs = .regRead off :: rest ∧ off.toNat % 4 ≠ 0) ∨
    (∃ off v rest, s.inputs = .regWrite off v :: rest ∧ off.toNat % 4 ≠ 0) ∨
    (∃ a rest, s.inputs = .memRead a :: rest ∧ s.cfg.fmBytes ≤ a) ∨
    (∃ a b rest, s.inputs = .memWrite a b :: rest ∧ s.cfg.fmBytes ≤ a)

/-! ## The terms of the statements

They are written from the spec's rules on the registers, without the checks and effects of the meanings. -/

/-- `N = W*H` (R14). -/
def State.pixels (s : State) : Nat := s.width.toNat * s.height.toNat

/-- The buffer registers describe a source of depth `d` that lies in frame memory (R135, R78). -/
structure SourceOk (s : State) (d : Nat) : Prop where
  width : s.width.toNat ≠ 0
  height : s.height.toNat ≠ 0
  depth : d = 1 ∨ d = 4
  length : s.srcLen.toNat = s.pixels * d
  fits : s.srcBase.toNat + s.srcLen.toNat ≤ s.cfg.fmBytes

/-- The destination region lies in frame memory and shares no byte with the source region (R78, R79). -/
structure DestOk (s : State) (mono : Bool) : Prop where
  fits : s.dstBase.toNat + s.pixels * outDepth mono ≤ s.cfg.fmBytes
  apart : s.dstBase.toNat + s.pixels * outDepth mono ≤ s.srcBase.toNat ∨
    s.srcBase.toNat + s.srcLen.toNat ≤ s.dstBase.toNat

/-- The kernel registers pass the checks of R221. -/
structure KernelOk (s : State) (med : Bool) : Prop where
  radius : s.kradius.toNat ≠ 0
  radiusMax : s.kradius.toNat ≤ s.cfg.rmax
  supplied : s.klen.toNat ≠ 0
  num : s.divNum.toInt ≠ 0
  den : s.divDen.toNat ≠ 0
  count : med = false → s.klen.toNat = (2 * s.kradius.toNat + 1) ^ 2
  line : s.width.toNat ≤ s.cfg.wmax

/-- `s` after a complete step without error (R131), but for the bytes, tables and rows it wrote. -/
def passed (s : State) (outLen : Nat) : State :=
  { s with
    dstLen := BitVec.ofNat 32 outLen
    errcode := 0#4
    status := 0b010#3
    irqst := s.irqst ||| 0b001#3
    phase := .idle }

/-- `s` after a complete step with the error of code `code` (R290). -/
def failed (s : State) (code : BitVec 4) : State :=
  { s with
    dstLen := 0#32
    errcode := code
    status := 0b110#3
    irqst := s.irqst ||| 0b011#3
    phase := .idle }

/-- The source byte of channel `c` at column `x` and row `y` of a source of depth `d` (R72). -/
def sourceByte (s : State) (d x y c : Nat) : Byte :=
  s.fm.read (s.srcBase.toNat + (y * s.width.toNat + x) * d + c)

/-- In `t` the destination bytes of pixel `p` are `px` as R138 packs it. -/
def packedAs (s t : State) (mono : Bool) (p : Nat) (px : Pixel) : Prop :=
  if mono then t.fm.read (s.dstBase.toNat + p) = px.colour s.cfg.monoPick
  else
    t.fm.read (s.dstBase.toNat + p * 4) = px.c0 ∧ t.fm.read (s.dstBase.toNat + p * 4 + 1) = px.c1 ∧
      t.fm.read (s.dstBase.toNat + p * 4 + 2) = px.c2 ∧ t.fm.read (s.dstBase.toNat + p * 4 + 3) = px.a

/-- Every byte of frame memory outside the `n` bytes from `DST_BASE` reads in `t` as in `s`. -/
def outsideKept (s t : State) (n : Nat) : Prop :=
  ∀ a, ¬ (s.dstBase.toNat ≤ a ∧ a < s.dstBase.toNat + n) → t.fm.read a = s.fm.read a

/-- A successful `GRAY` with luminance `lum` (R160): registers, destination bytes, and every other byte kept. -/
def grayResult (s t : State) (mono : Bool) (lum : Byte → Byte → Byte → Byte) : Prop :=
  t = { passed s (s.pixels * outDepth mono) with fm := t.fm } ∧
    (∀ x y, x < s.width.toNat → y < s.height.toNat →
      let v := lum (sourceByte s 4 x y 0) (sourceByte s 4 x y 1) (sourceByte s 4 x y 2)
      packedAs s t mono (y * s.width.toNat + x) ⟨v, v, v, sourceByte s 4 x y 3⟩) ∧
    outsideKept s t (s.pixels * outDepth mono)

/-- A `BUILD` that succeeded (R180): the tables are new and nothing else is written but the registers of R131. -/
def buildResult (s t : State) : Prop := t = { passed s 0 with lut := t.lut }

/-- The pixel at `(x, y)` is interior for radius `r` (R222): `r <= x < W - r` and `r <= y < H - r` on integers. -/
def isInterior (s : State) (x y : Nat) : Prop :=
  (s.kradius.toNat : Int) ≤ x ∧ (x : Int) < s.width.toNat - s.kradius.toNat ∧
    (s.kradius.toNat : Int) ≤ y ∧ (y : Int) < s.height.toNat - s.kradius.toNat

/-- `win(x, y, c)[j]` (R223). -/
def windowByte (s : State) (d x y c j : Nat) : Byte :=
  let side := 2 * s.kradius.toNat + 1
  sourceByte s d (x + j % side - s.kradius.toNat) (y + j / side - s.kradius.toNat) c

/-- `acc` (R224): the sum of window byte times `sext_16(KW[j])`. -/
def windowSum (s : State) (d x y c : Nat) : Int :=
  ((List.range ((2 * s.kradius.toNat + 1) ^ 2)).map fun j =>
    ((windowByte s d x y c j).toNat : Int) * (s.kw.getD j 0#16).toInt).sum

/-- `b` is the median of the window (R225): it is one of the window's bytes, at most `K div 2` are below it and more
than `K div 2` are not above it. -/
def isMedian (s : State) (d x y c : Nat) (b : Byte) : Prop :=
  let k := (2 * s.kradius.toNat + 1) ^ 2
  (∃ j, j < k ∧ windowByte s d x y c j = b) ∧
    (List.range k).countP (fun j => decide ((windowByte s d x y c j).toNat < b.toNat)) ≤ k / 2 ∧
    k / 2 < (List.range k).countP (fun j => decide ((windowByte s d x y c j).toNat ≤ b.toNat))

/-- A successful `CONV` (R228) in which interior values satisfy `interiorValue x y c`: border values and alpha are the
source's (R226, R227), `d = 1` supplies every colour from channel 0, and nothing is written but the registers of R131,
the destination region and the hidden line buffer. -/
def convResult (s t : State) (d : Nat) (mono : Bool) (interiorValue : Nat → Nat → Nat → Byte → Prop) : Prop :=
  t = { passed s (s.pixels * outDepth mono) with fm := t.fm, lb := t.lb } ∧
    (∀ x y, x < s.width.toNat → y < s.height.toNat →
      ∃ px : Pixel, packedAs s t mono (y * s.width.toNat + x) px ∧
        px.a = (if d = 4 then sourceByte s d x y 3 else 255#8) ∧
        ∀ k : Fin 3,
          let c := if d = 4 then k.val else 0
          (isInterior s x y → interiorValue x y c (px.colour k)) ∧
            (¬ isInterior s x y → px.colour k = sourceByte s d x y c)) ∧
    outsideKept s t (s.pixels * outDepth mono)

end Sys2Proof.Machine

namespace Sys2Proof

/-- The commands that call `shape()` (R135). -/
def Instr.readsBuffer : Instr → Bool
  | .conv _ _ | .apply _ | .grayLuma _ | .grayAverage _ | .graySimple _ _ | .valid => true
  | .nop | .buildBrightness | .buildContrast | .buildPosterize | .buildThreshold | .buildSolarize
  | .buildPseudocolor | .buildInvert | .buildUnknown7 | .buildUnknown8to15 _ | .grayUnknown3 _ _
  | .grayUnknown4to7 _ _ _ | .grayUnknown8to15 _ _ _ | .illegal _ => false

/-- The output depth of a command that has a destination (R136). -/
def Instr.depthOut : Instr → Option Nat
  | .conv mono _ | .apply mono | .grayLuma mono | .grayAverage mono | .graySimple _ mono =>
    some (if mono then 1 else 4)
  | .nop | .buildBrightness | .buildContrast | .buildPosterize | .buildThreshold | .buildSolarize
  | .buildPseudocolor | .buildInvert | .buildUnknown7 | .buildUnknown8to15 _ | .grayUnknown3 _ _
  | .grayUnknown4to7 _ _ _ | .grayUnknown8to15 _ _ _ | .valid | .illegal _ => none

/-- `GRAY` of a known mode. -/
def Instr.isGray : Instr → Bool
  | .grayLuma _ | .grayAverage _ | .graySimple _ _ => true
  | .nop | .conv _ _ | .buildBrightness | .buildContrast | .buildPosterize | .buildThreshold | .buildSolarize
  | .buildPseudocolor | .buildInvert | .buildUnknown7 | .buildUnknown8to15 _ | .apply _ | .grayUnknown3 _ _
  | .grayUnknown4to7 _ _ _ | .grayUnknown8to15 _ _ _ | .valid | .illegal _ => false

/-- `CONV` in any form. -/
def Instr.isConv : Instr → Bool
  | .conv _ _ => true
  | .nop | .buildBrightness | .buildContrast | .buildPosterize | .buildThreshold | .buildSolarize
  | .buildPseudocolor | .buildInvert | .buildUnknown7 | .buildUnknown8to15 _ | .apply _ | .grayLuma _
  | .grayAverage _ | .graySimple _ _ | .grayUnknown3 _ _ | .grayUnknown4to7 _ _ _ | .grayUnknown8to15 _ _ _
  | .valid | .illegal _ => false

/-- `BUILD` of a known kind. -/
def Instr.isBuild : Instr → Bool
  | .buildBrightness | .buildContrast | .buildPosterize | .buildThreshold | .buildSolarize | .buildPseudocolor
  | .buildInvert => true
  | .nop | .conv _ _ | .buildUnknown7 | .buildUnknown8to15 _ | .apply _ | .grayLuma _ | .grayAverage _
  | .graySimple _ _ | .grayUnknown3 _ _ | .grayUnknown4to7 _ _ _ | .grayUnknown8to15 _ _ _ | .valid | .illegal _ => false

/-- A word that names no operation (R107). -/
def Instr.isIllegal : Instr → Bool
  | .illegal _ => true
  | .nop | .conv _ _ | .buildBrightness | .buildContrast | .buildPosterize | .buildThreshold | .buildSolarize
  | .buildPseudocolor | .buildInvert | .buildUnknown7 | .buildUnknown8to15 _ | .apply _ | .grayLuma _
  | .grayAverage _ | .graySimple _ _ | .grayUnknown3 _ _ | .grayUnknown4to7 _ _ _ | .grayUnknown8to15 _ _ _
  | .valid => false

/-- `BUILD` or `GRAY` of an unknown kind or mode (R164, R188). -/
def Instr.isUnknown : Instr → Bool
  | .buildUnknown7 | .buildUnknown8to15 _ | .grayUnknown3 _ _ | .grayUnknown4to7 _ _ _ | .grayUnknown8to15 _ _ _ => true
  | .nop | .conv _ _ | .buildBrightness | .buildContrast | .buildPosterize | .buildThreshold | .buildSolarize
  | .buildPseudocolor | .buildInvert | .apply _ | .grayLuma _ | .grayAverage _ | .graySimple _ _ | .valid
  | .illegal _ => false

/-- The causes of `InvalidParameter` that only one command has (R285): a weight count that is not `(2r+1)^2` in
weighted mode, fewer than 2 levels, a channel number above 2. -/
def Instr.badParameter (i : Instr) (s : Machine.State) : Bool :=
  match i with
  | .conv _ med => !med && decide (s.klen.toNat ≠ (2 * s.kradius.toNat + 1) ^ 2)
  | .buildPosterize => decide (s.lutParam.toNat < 2)
  | .graySimple ch _ => decide (3 ≤ ch.toNat)
  | .nop | .buildBrightness | .buildContrast | .buildThreshold | .buildSolarize | .buildPseudocolor | .buildInvert
  | .buildUnknown7 | .buildUnknown8to15 _ | .apply _ | .grayLuma _ | .grayAverage _ | .grayUnknown3 _ _
  | .grayUnknown4to7 _ _ _ | .grayUnknown8to15 _ _ _ | .valid | .illegal _ => false

end Sys2Proof

namespace Sys2Proof.Machine

/-- The causes of R281 to R289 in the order of R291, each with its code. Each is the cause alone: that no earlier one
holds comes from the order. -/
def errorCauses (i : Instr) (s : State) : List (Bool × BitVec 4) :=
  let n := s.pixels
  let l := s.srcLen.toNat
  let dstLen := match i.depthOut with
    | none => 0
    | some od => n * od
  [ (i.isIllegal, 6#4),
    (i.isUnknown, 4#4),
    (i.readsBuffer && (s.width == 0#32 || s.height == 0#32), 1#4),
    (i.readsBuffer && l % n != 0, 1#4),
    (i.readsBuffer && (l / n != 1 && l / n != 4), 2#4),
    (i.isGray && l / n == 1, 2#4),
    (i.isConv && (s.klen == 0#32 || s.kradius == 0#32), 3#4),
    (i.isConv && (s.divNum == 0#32 || s.divDen == 0#32), 5#4),
    (i.isConv && decide (s.cfg.rmax < s.kradius.toNat), 5#4),
    (i.badParameter s, 5#4),
    (i.isConv && decide (s.cfg.wmax < s.width.toNat), 9#4),
    (i.readsBuffer && decide (s.cfg.fmBytes < s.srcBase.toNat + l), 7#4),
    (i.depthOut.isSome && decide (s.cfg.fmBytes < s.dstBase.toNat + dstLen), 7#4),
    (i.depthOut.isSome &&
      (decide (s.srcBase.toNat < s.dstBase.toNat + dstLen) && decide (s.dstBase.toNat < s.srcBase.toNat + l)), 8#4) ]

/-- The code of the first cause that holds, or 0 (R291). -/
def firstError : List (Bool × BitVec 4) → BitVec 4
  | [] => 0#4
  | (holds, code) :: rest => if holds then code else firstError rest

end Sys2Proof.Machine
end

