-- ==== Sys2Proof/Certificates/Slice0/Obligations.lean ====
section
/-! DEFINITION. The statements about the model, from the spec's numbered rules. -/

open Sys2Proof Sys2Proof.Machine

/-! ## Encoding -/

/-- Decoding the word of a well-formed command gives it back, every operand at every value. -/
def Obligations.DecodeInvertsEncode : Prop :=
  ∀ i : Instr, i.wellFormed = true → decode (encode i) = i

/-- R106: every word decodes to a well-formed command, and encoding that command gives the word back, so no two words
name one command. -/
def Obligations.EncodeInvertsDecode : Prop :=
  ∀ w : Word, (decode w).wellFormed = true ∧ encode (decode w) = w

/-- R114: the first row of the table that a word selects is the row of the command the decoder reads, for all 2^32
words; the rows before the last are pairwise disjoint, and the last takes every word. -/
def Obligations.OpcodeTableAgreesWithDecoder : Prop :=
  opcodeTable.map TableRow.mnemonic =
      ["NOP", "CONV", "BUILD.BRIGHTNESS", "BUILD.CONTRAST", "BUILD.POSTERIZE", "BUILD.THRESHOLD", "BUILD.SOLARIZE",
        "BUILD.PSEUDOCOLOR", "BUILD.INVERT", "BUILD.UNKNOWN", "BUILD.UNKNOWN", "APPLY", "GRAY.LUMA", "GRAY.AVERAGE",
        "GRAY.SIMPLE", "GRAY.UNKNOWN", "GRAY.UNKNOWN", "GRAY.UNKNOWN", "VALID", "ILLEGAL"] ∧
    (∀ w : Word, tableIndex w = (decode w).rowIndex) ∧
    (∀ (w : Word) (p q : Nat) (a b : TableRow), p < q → q < 19 → opcodeTable[p]? = some a → opcodeTable[q]? = some b →
      ¬ (w &&& a.mask = a.pattern ∧ w &&& b.mask = b.pattern)) ∧
    (∀ (w : Word) (a : TableRow), opcodeTable[19]? = some a → w &&& a.mask = a.pattern)

/-- R107: exactly the words with `OP` above 5, a nonzero bit in 31:18, or a nonzero field that R102 requires to be 0
decode to `illegal`; each is accepted by an idle block, and its complete step records code 6, changes no byte of frame
memory and no table, and `LASTCMD` shows the word. -/
def Obligations.ReservedWordsFailAsIllegal : Prop :=
  (∀ w : Word, (decode w).isIllegal = reservedWord w) ∧
    ∀ (s : State) (w : Word) (rest : List Event), reservedWord w = true → s.phase = .idle →
      s.inputs = .regWrite 0x004#12 w :: .engine :: rest →
        ∃ t, step s = .next t ∧
          step t = .next { failed s 6#4 with lastcmd := w, disturbed := false, inputs := rest }

/-- Words written out bit by bit from R101 to R105 decode to the commands they stand for. -/
def Obligations.WrittenOutWordsDecode : Prop :=
  decode 0x00000000#32 = .nop ∧ decode 0x00000001#32 = .conv false false ∧
    decode 0x00010001#32 = .conv true false ∧ decode 0x00020001#32 = .conv false true ∧
    decode 0x00030001#32 = .conv true true ∧ decode 0x00000202#32 = .buildPosterize ∧
    decode 0x00000502#32 = .buildPseudocolor ∧ decode 0x00000F02#32 = .buildUnknown8to15 15#4 ∧
    decode 0x00010003#32 = .apply true ∧ decode 0x00010004#32 = .grayLuma true ∧
    decode 0x00000104#32 = .grayAverage false ∧ decode 0x00011204#32 = .graySimple 1#4 true ∧
    decode 0x00001304#32 = .grayUnknown3 1#4 false ∧ decode 0x00000005#32 = .valid ∧
    decode 0x00000101#32 = .illegal 0x00000101#32

/-! ## The life cycle of a command -/

/-- R130: a host write of `w` to `CMD` while idle writes `LASTCMD`, `ERRCODE`, `STATUS` and the phase and nothing else
(`disturbed` and `inputs` are the model's own); while busy it is discarded and sets `IRQST.OVR` only. -/
def Obligations.AcceptStepLatchesCommand : Prop :=
  ∀ (s : State) (w : Word) (rest : List Event), s.inputs = .regWrite 0x004#12 w :: rest →
    (s.phase = .idle → step s = .next { s with
        inputs := rest, lastcmd := w, errcode := 0#4, status := 0b001#3, phase := .busy, disturbed := false }) ∧
      (s.phase = .busy → step s = .next { s with inputs := rest, irqst := s.irqst ||| 0b100#3 })

/-- R131: when the engine of a busy block moves, the step is `exec` of the command `LASTCMD` decodes to. With no move
to come the engine moves (the model's choice, log entry 6). If the host has broken R84 the destination bytes of that
step are not `exec`'s (log entry 12), and everything else is. R321: the engine of an idle block does nothing, whether it
is its turn or no move is to come. -/
def Obligations.EngineTurnRunsDecodedCommand : Prop :=
  (∀ (s : State) (rest : List Event), s.phase = .busy → s.disturbed = false → s.inputs = .engine :: rest →
      step s = exec (decode s.lastcmd) { s with inputs := rest }) ∧
    (∀ s : State, s.phase = .busy → s.disturbed = false → s.inputs = [] → step s = exec (decode s.lastcmd) s) ∧
    (∀ (s : State) (i : Instr), i.wellFormed = true →
      step (s.withFetchWord 32 (encode i).toNat) = exec i { s with
        lastcmd := encode i, errcode := 0#4, status := 0b001#3, phase := .busy, disturbed := false }) ∧
    (∀ (s : State) (rest : List Event), s.phase = .busy → s.disturbed = true → s.inputs = .engine :: rest →
      ∃ u t, exec (decode s.lastcmd) { s with inputs := rest } = .next u ∧ step s = .next t ∧
        t = { u with fm := t.fm, disturbed := false, freeCount := s.freeCount + 1 } ∧
        ∀ a, ¬ (s.dstBase.toNat ≤ a ∧ a < s.dstBase.toNat + u.dstLen.toNat) → t.fm.read a = u.fm.read a) ∧
    (∀ (s : State) (rest : List Event), s.phase = .idle → s.inputs = .engine :: rest →
      step s = .next { s with inputs := rest }) ∧
    (∀ s : State, s.phase = .idle → s.inputs = [] → step s = .next s)

/-- R290: a command whose `exec` raises an error ends with its code; a complete step with an error writes `STATUS`,
`ERRCODE`, `DST_LEN`, the two `IRQST` bits and the phase, and nothing else, for every command. -/
def Obligations.FailedCommandChangesFiveItems : Prop :=
  (∀ (i : Instr) (s : State) (k : ErrKind), commandEffect i s = .error k → exec i s = .next (failed s k.code)) ∧
    ∀ (i : Instr) (s t : State), exec i s = .next t → t.errcode ≠ 0#4 → t = failed s t.errcode

/-- R131, R46: what a complete step of any command may write. -/
def Obligations.CommandsChangeOnlyResults : Prop :=
  ∀ (i : Instr) (s t : State), exec i s = .next t →
    t = { s with fm := t.fm, lut := t.lut, lb := t.lb, dstLen := t.dstLen, errcode := t.errcode, status := t.status,
                 irqst := t.irqst, phase := .idle } ∧
      (t.errcode = 0#4 → t.status = 0b010#3 ∧ t.irqst = s.irqst ||| 0b001#3) ∧
      (t.errcode ≠ 0#4 → t.status = 0b110#3 ∧ t.irqst = s.irqst ||| 0b011#3) ∧
      (i.isBuild = false → t.lut = s.lut) ∧
      (i.isConv = false → t.lb = s.lb) ∧
      (i.depthOut = none → t.fm = s.fm ∧ t.dstLen = 0#32)

/-- R291: exactly one error is reported, the first cause in the order of the rule, and none when there is no cause. -/
def Obligations.ErrorCodeFollowsPriority : Prop :=
  ∀ (i : Instr) (s : State), ∃ t, exec i s = .next t ∧ t.errcode = firstError (errorCauses i s)

/-- No command stops the machine: a step stops only on a host access that does not exist (R21, R71). -/
def Obligations.CommandsNeverStopTheMachine : Prop :=
  (∀ (i : Instr) (s : State), ∃ t, exec i s = .next t) ∧ ∀ s : State, stopsOnlyForHost s

/-! ## Control commands -/

/-- R133: `NOP` completes without error in every state and writes nothing but the registers of R131; from an idle
block the host sees `LASTCMD = 0`, `STATUS = 0b010`, `ERRCODE = 0`, `DST_LEN = 0`, `IRQST.DONE = 1`. -/
def Obligations.NopCompletes : Prop :=
  (∀ s : State, exec .nop s = .next (passed s 0)) ∧
    ∀ (s : State) (rest : List Event), s.phase = .idle → s.inputs = .regWrite 0x004#12 0#32 :: .engine :: rest →
      ∃ t, step s = .next t ∧ t.status = 0b001#3 ∧
        step t = .next { passed s 0 with lastcmd := 0#32, disturbed := false, inputs := rest }

/-- R134: `VALID` on a source buffer of depth 1 or 4 that fits completes without error, whatever `DST_BASE` holds, and
writes nothing but the registers of R131. -/
def Obligations.ValidCompletes : Prop :=
  ∀ (s : State) (d : Nat), SourceOk s d → exec .valid s = .next (passed s 0)

/-- R164, R188, R286: a `BUILD` or `GRAY` of an unknown kind or mode completes with code 4 and a word that names no
operation with code 6, in every state, and nothing else of the state changes than R290 lists. -/
def Obligations.UnknownAndIllegalCommandsFail : Prop :=
  ∀ (i : Instr) (s : State),
    (i.isUnknown = true → exec i s = .next (failed s 4#4)) ∧ (i.isIllegal = true → exec i s = .next (failed s 6#4))

/-! ## Grayscale -/

/-- R160, R161: `GRAY.LUMA` on a 4-channel source with a legal destination completes, and every pixel's luminance is
`(299*R + 587*G + 114*B) / 1000`, rounded and clamped. -/
def Obligations.GrayLumaWritesLuminance : Prop :=
  ∀ (s : State) (mono : Bool), SourceOk s 4 → DestOk s mono → s.fm.wf = true →
    ∃ t, exec (.grayLuma mono) s = .next t ∧
      grayResult s t mono fun r g b =>
        clamp (rnd s.cfg.round (299 * (r.toNat : Int) + 587 * (g.toNat : Int) + 114 * (b.toNat : Int)) 1000)

/-- R160, R162: `GRAY.AVERAGE` likewise, with `(R + G + B) / 3`. -/
def Obligations.GrayAverageWritesMean : Prop :=
  ∀ (s : State) (mono : Bool), SourceOk s 4 → DestOk s mono → s.fm.wf = true →
    ∃ t, exec (.grayAverage mono) s = .next t ∧
      grayResult s t mono fun r g b =>
        clamp (rnd s.cfg.round ((r.toNat : Int) + (g.toNat : Int) + (b.toNat : Int)) 3)

/-- R160, R163: `GRAY.SIMPLE ch` with `ch` 0, 1, 2 writes the channel's byte itself; with `ch` from 3 up it fails with
`InvalidParameter` on the same buffers. -/
def Obligations.GraySimpleCopiesChannel : Prop :=
  ∀ (s : State) (ch : BitVec 4) (mono : Bool), SourceOk s 4 →
    (ch.toNat < 3 → DestOk s mono → s.fm.wf = true →
      ∃ t, exec (.graySimple ch mono) s = .next t ∧
        grayResult s t mono fun r g b => if ch = 0#4 then r else if ch = 1#4 then g else b) ∧
      (3 ≤ ch.toNat → exec (.graySimple ch mono) s = .next (failed s 5#4))

/-- R165 (3): on a source whose pixels have R = G = B every mode of `GRAY` with full output returns the source bytes
unchanged, whatever the rounding. -/
def Obligations.GrayKeepsGrayPixels : Prop :=
  ∀ (s t : State) (i : Instr), SourceOk s 4 → DestOk s false → s.fm.wf = true →
    (i = .grayLuma false ∨ i = .grayAverage false ∨ ∃ ch : BitVec 4, ch.toNat < 3 ∧ i = .graySimple ch false) →
    (∀ x y, x < s.width.toNat → y < s.height.toNat →
      sourceByte s 4 x y 0 = sourceByte s 4 x y 1 ∧ sourceByte s 4 x y 1 = sourceByte s 4 x y 2) →
    exec i s = .next t →
      ∀ a, a < s.srcLen.toNat → t.fm.read (s.dstBase.toNat + a) = s.fm.read (s.srcBase.toNat + a)

/-! ## Tone curves -/

/-- R180, R181: `BUILD.BRIGHTNESS` completes in every state; every entry `v` of the three tables is `v + level`
saturated to 0 and 255, with `level` the signed `LUT_PARAM`. -/
def Obligations.BrightnessFillsTables : Prop :=
  ∀ s : State, ∃ t, exec .buildBrightness s = .next t ∧ buildResult s t ∧
    ∀ (k : Fin 3) (v : Fin 256),
      ((t.lutEntry k v).toNat : Int) = max 0 (min 255 (v.val + s.lutParam.toInt))

/-- R180, R182: `BUILD.CONTRAST` completes in every state; with `level = p / 65536` every entry `v` is
`(v - 128)*level + 128`, an exact fraction over 65536, rounded once and then clamped. -/
def Obligations.ContrastFillsTables : Prop :=
  ∀ s : State, ∃ t, exec .buildContrast s = .next t ∧ buildResult s t ∧
    ∀ (k : Fin 3) (v : Fin 256),
      t.lutEntry k v = clamp (rnd s.cfg.round (((v.val : Int) - 128) * s.lutParam.toInt + 128 * 65536) 65536)

/-- R180, R183: `BUILD.POSTERIZE` with at least 2 levels fills the tables band by band, the last band with 255; with
fewer it fails with `InvalidParameter`. -/
def Obligations.PosterizeFillsTables : Prop :=
  ∀ s : State,
    (2 ≤ s.lutParam.toNat → ∃ t, exec .buildPosterize s = .next t ∧ buildResult s t ∧
      ∀ (k : Fin 3) (v : Fin 256),
        let b := v.val * s.lutParam.toNat / 256
        t.lutEntry k v = if b + 1 = s.lutParam.toNat then 255#8
          else clamp (rnd s.cfg.round ((b : Int) * 256) ((s.lutParam.toNat : Int) - 1))) ∧
      (s.lutParam.toNat < 2 → exec .buildPosterize s = .next (failed s 5#4))

/-- R180, R184: `BUILD.THRESHOLD` completes in every state; an entry is 255 when `v >= level`, else 0. -/
def Obligations.ThresholdFillsTables : Prop :=
  ∀ s : State, ∃ t, exec .buildThreshold s = .next t ∧ buildResult s t ∧
    ∀ (k : Fin 3) (v : Fin 256), t.lutEntry k v = if (v.val : Int) ≥ s.lutParam.toInt then 255#8 else 0#8

/-- R180, R185: `BUILD.SOLARIZE` completes in every state; the tables ramp down, up and down over three bands of width
256/3 with slope 3. -/
def Obligations.SolarizeFillsTables : Prop :=
  ∀ s : State, ∃ t, exec .buildSolarize s = .next t ∧ buildResult s t ∧
    ∀ (k : Fin 3) (v : Fin 256),
      ((t.lutEntry k v).toNat : Int) =
        if v.val ≤ 85 then 255 - 3 * (v.val : Int)
        else if v.val ≤ 170 then 3 * (v.val : Int) - 256 else 767 - 3 * (v.val : Int)

/-- R180, R186: `BUILD.PSEUDOCOLOR` completes in every state and copies the instance's `PSEUDO_ROM`. -/
def Obligations.PseudocolorCopiesRom : Prop :=
  ∀ s : State, ∃ t, exec .buildPseudocolor s = .next t ∧ buildResult s t ∧
    ∀ (k : Fin 3) (v : Fin 256), t.lutEntry k v = s.cfg.pseudoRom[k][v]

/-- R180, R187: `BUILD.INVERT` completes in every state; an entry is `255 - v`. -/
def Obligations.InvertFillsTables : Prop :=
  ∀ s : State, ∃ t, exec .buildInvert s = .next t ∧ buildResult s t ∧
    ∀ (k : Fin 3) (v : Fin 256), (t.lutEntry k v).toNat = 255 - v.val

/-- R192: which tables are monotone, and the values that threshold and posterize tables take. -/
def Obligations.TablesHaveTheirShape : Prop :=
  ∀ (s t : State) (k : Fin 3),
    (∀ v v' : Fin 256, v ≤ v' →
      (exec .buildBrightness s = .next t → (t.lutEntry k v).toNat ≤ (t.lutEntry k v').toNat) ∧
      (exec .buildThreshold s = .next t → (t.lutEntry k v).toNat ≤ (t.lutEntry k v').toNat) ∧
      (exec .buildPosterize s = .next t → t.errcode = 0#4 → (t.lutEntry k v).toNat ≤ (t.lutEntry k v').toNat) ∧
      (exec .buildContrast s = .next t → 0 ≤ s.lutParam.toInt → (t.lutEntry k v).toNat ≤ (t.lutEntry k v').toNat) ∧
      (exec .buildContrast s = .next t → s.lutParam.toInt ≤ 0 → (t.lutEntry k v').toNat ≤ (t.lutEntry k v).toNat) ∧
      (exec .buildInvert s = .next t → v < v' → (t.lutEntry k v').toNat < (t.lutEntry k v).toNat)) ∧
    (exec .buildSolarize s = .next t →
      (t.lutEntry k 85).toNat < (t.lutEntry k 0).toNat ∧ (t.lutEntry k 85).toNat < (t.lutEntry k 170).toNat) ∧
    (exec .buildThreshold s = .next t → ∀ v, t.lutEntry k v = 0#8 ∨ t.lutEntry k v = 255#8) ∧
    (exec .buildPosterize s = .next t → 2 ≤ s.lutParam.toNat → s.lutParam.toNat ≤ 256 →
      t.lutEntry k 255 = 255#8 ∧ t.lutEntry k 0 = 0#8 ∧
        (s.lutParam.toNat = 2 → ∀ v, t.lutEntry k v = 0#8 ∨ t.lutEntry k v = 255#8))

/-- R189: `APPLY` on a source of depth 1 or 4 with a legal destination completes; every colour byte goes through the
table of its channel and the alpha byte is the source's, or 255 for a 1-channel source. -/
def Obligations.ApplyRemapsColours : Prop :=
  ∀ (s : State) (d : Nat) (mono : Bool), SourceOk s d → DestOk s mono → s.fm.wf = true →
    ∃ t, exec (.apply mono) s = .next t ∧
      t = { passed s (s.pixels * outDepth mono) with fm := t.fm } ∧
      (∀ x y, x < s.width.toNat → y < s.height.toNat →
        packedAs s t mono (y * s.width.toNat + x)
          (if d = 4 then
            ⟨s.lutEntry 0 (sourceByte s d x y 0).toFin, s.lutEntry 1 (sourceByte s d x y 1).toFin,
              s.lutEntry 2 (sourceByte s d x y 2).toFin, sourceByte s d x y 3⟩
          else
            ⟨s.lutEntry 0 (sourceByte s d x y 0).toFin, s.lutEntry 1 (sourceByte s d x y 0).toFin,
              s.lutEntry 2 (sourceByte s d x y 0).toFin, 255#8⟩)) ∧
      outsideKept s t (s.pixels * outDepth mono)

/-! ## Convolution -/

/-- R222 to R229: `CONV` in weighted mode completes when every check passes; an interior value is `acc * DIV_DEN /
DIV_NUM`, rounded and clamped, a border value and the alpha are the source's. -/
def Obligations.ConvWeightedWritesQuotient : Prop :=
  ∀ (s : State) (d : Nat) (mono : Bool), SourceOk s d → DestOk s mono → KernelOk s false → s.fm.wf = true →
    ∃ t, exec (.conv mono false) s = .next t ∧
      convResult s t d mono fun x y c b =>
        b = clamp (rnd s.cfg.round (windowSum s d x y c * s.divDen.toNat) s.divNum.toInt)

/-- R222 to R229: `CONV` in median mode likewise, with an interior value the median of its window; the weights do not
matter. -/
def Obligations.ConvMedianWritesMedian : Prop :=
  ∀ (s : State) (d : Nat) (mono : Bool), SourceOk s d → DestOk s mono → KernelOk s true → s.fm.wf = true →
    ∃ t, exec (.conv mono true) s = .next t ∧ convResult s t d mono fun x y c b => isMedian s d x y c b

/-- R266 (3): after a successful `CONV`, slot `q mod NR` is valid for `q` and holds row `q` for the last `NR` rows of
the image, and every other slot is invalid. -/
def Obligations.ConvLeavesLastRowsBuffered : Prop :=
  ∀ (s t : State) (d : Nat) (mono med : Bool), s.Inv → SourceOk s d → DestOk s mono → KernelOk s med →
    exec (.conv mono med) s = .next t →
      (∀ q, q < s.height.toNat → s.height.toNat ≤ q + s.cfg.nr →
        ∃ x, t.lb[q % s.cfg.nr]? = some x ∧ x.tag = some q ∧
          ∀ b, b < s.width.toNat * d →
            x.row[b]? = some (s.fm.read (s.srcBase.toNat + q * s.width.toNat * d + b))) ∧
      (∀ i x, t.lb[i]? = some x → (∀ q, q < s.height.toNat → s.height.toNat ≤ q + s.cfg.nr → q % s.cfg.nr ≠ i) →
        x.tag = none)

/-- R267: in every state in which `CONV` passes its checks, the streamed computation through the line buffer never
misses a row and produces the writes, and so the destination bytes and `DST_LEN`, of the direct one; it also leaves the
line buffer that the command leaves. -/
def Obligations.StreamedConvEqualsDirect : Prop :=
  ∀ (s : State) (d : Nat) (mono med : Bool), s.Inv → SourceOk s d → DestOk s mono → KernelOk s med →
    ∃ (t : State) (lb : LineBuffer) (ws : List Host.Cell),
      convStreamed mono med s ⟨s.width.toNat, s.height.toNat, s.pixels, s.srcLen.toNat, d⟩ s.kradius.toNat =
          some (lb, ws) ∧
        (∃ e, commandEffect (.conv mono med) s = .ok e ∧ e.fmWrites = ws ∧ e.outLen = ws.length) ∧
        exec (.conv mono med) s = .next t ∧ t.errcode = 0#4 ∧ t.fm = s.fm.writeAll ws ∧ t.lb = lb ∧
        ws.length = t.dstLen.toNat

/-- R231 (2): the identity kernel returns a buffer equal to the input, border and interior alike, for depth 4 with
full output and depth 1 with monochrome output. -/
def Obligations.IdentityKernelCopiesImage : Prop :=
  ∀ (s t : State) (d : Nat) (mono : Bool), SourceOk s d → DestOk s mono → KernelOk s false → s.fm.wf = true →
    d = outDepth mono → s.divNum = 1#32 → s.divDen = 1#32 →
    (∀ j, j < (2 * s.kradius.toNat + 1) ^ 2 →
      (s.kw.getD j 0#16).toInt = if j = ((2 * s.kradius.toNat + 1) ^ 2 - 1) / 2 then 1 else 0) →
    exec (.conv mono false) s = .next t →
      ∀ a, a < s.srcLen.toNat → t.fm.read (s.dstBase.toNat + a) = s.fm.read (s.srcBase.toNat + a)

/-- R234: multiplying every weight and the divisor by the same positive integer changes no result. -/
def Obligations.ScaledKernelSameResult : Prop :=
  ∀ (s s' t : State) (m : Nat) (mono : Bool), 0 < m →
    s' = { s with kw := s'.kw, divNum := s'.divNum } → s'.divNum.toInt = m * s.divNum.toInt →
    (∀ j, (s'.kw.getD j 0#16).toInt = m * (s.kw.getD j 0#16).toInt) →
    exec (.conv mono false) s = .next t →
      exec (.conv mono false) s' = .next { t with kw := s'.kw, divNum := s'.divNum }

/-- R230: for a legal radius the accumulator of any window stays below 2^31 in magnitude, and its product with
`DIV_DEN` below 2^63. -/
def Obligations.AccumulatorFitsThirtyTwoBits : Prop :=
  ∀ (s : State) (d x y c : Nat), s.cfg.valid = true → s.kradius.toNat ≤ s.cfg.rmax →
    |windowSum s d x y c| ≤ 1412136960 ∧ |windowSum s d x y c| < 2 ^ 31 ∧
      |windowSum s d x y c * s.divDen.toNat| < 2 ^ 63

/-- R233: when `W < 2r+1` or `H < 2r+1` the weights do not matter: with any others the command ends the same. -/
def Obligations.SmallImageNeedsNoWeights : Prop :=
  ∀ (s t : State) (kw : List Weight) (mono med : Bool),
    s.width.toNat < 2 * s.kradius.toNat + 1 ∨ s.height.toNat < 2 * s.kradius.toNat + 1 →
    exec (.conv mono med) s = .next t → exec (.conv mono med) { s with kw := kw } = .next { t with kw := kw }

/-- R269: no command's result depends on what the line buffer holds; two states that differ there only end in states
that differ there only. -/
def Obligations.LineBufferNeverObserved : Prop :=
  ∀ (i : Instr) (s t : State) (lb : LineBuffer), exec i s = .next t →
    ∃ lb', exec i { s with lb := lb } = .next { t with lb := lb' }

/-! ## Frame memory -/

/-- R88: a command that fails writes no byte; one that succeeds writes no byte outside the destination region; the
source region is unchanged either way. -/
def Obligations.CommandsWriteOnlyDestination : Prop :=
  ∀ (i : Instr) (s t : State), s.cfg.valid = true → exec i s = .next t →
    (t.errcode ≠ 0#4 → t.fm = s.fm) ∧
      (t.errcode = 0#4 → outsideKept s t t.dstLen.toNat) ∧
      ∀ a, s.srcBase.toNat ≤ a → a < s.srcBase.toNat + s.srcLen.toNat → t.fm.read a = s.fm.read a

/-- R33: `DST_LEN` after a complete step is `N*od`, exactly, when a command with a destination succeeds and 0 in every
other case; host writes to it are ignored, and it resets to 0. -/
def Obligations.DstLenIsOutputLength : Prop :=
  (∀ (i : Instr) (s t : State), s.cfg.valid = true → exec i s = .next t →
      t.dstLen.toNat =
        if t.errcode = 0#4 then
          match i.depthOut with
          | none => 0
          | some od => s.pixels * od
        else 0) ∧
    (∀ (s : State) (v : Word) (rest : List Event), s.inputs = .regWrite 0x02C#12 v :: rest →
      step s = .next { s with inputs := rest }) ∧
    State.reset.dstLen = 0#32

/-- R80, R292: two states that agree on the operand registers, the weights, the tables and the bytes of the source
region give the same error code, the same tables, the same `DST_LEN` and the same destination bytes, whatever else
they hold. -/
def Obligations.SourceRegionDeterminesOutput : Prop :=
  ∀ (i : Instr) (s s' t t' : State), s.cfg.valid = true → s.fm.wf = true → s'.fm.wf = true →
    s' = { s with
      status := s'.status, errcode := s'.errcode, lastcmd := s'.lastcmd, irqen := s'.irqen, irqst := s'.irqst,
      dstLen := s'.dstLen, phase := s'.phase, lb := s'.lb, fm := s'.fm, inputs := s'.inputs,
      hostData := s'.hostData, disturbed := s'.disturbed, freeCount := s'.freeCount } →
    (∀ a, s.srcBase.toNat ≤ a → a < s.srcBase.toNat + s.srcLen.toNat → s'.fm.read a = s.fm.read a) →
    exec i s = .next t → exec i s' = .next t' →
      t'.errcode = t.errcode ∧ t'.lut = t.lut ∧ t'.dstLen = t.dstLen ∧
        ∀ a, s.dstBase.toNat ≤ a → a < s.dstBase.toNat + t.dstLen.toNat → t'.fm.read a = t.fm.read a

/-- R71: outside the regions of a command in execution, and while idle everywhere, a host write of a byte reaches that
byte and no other, a read returns the byte, and an address from `FM_BYTES` up does not exist. A command in execution
that will fail, or that has no destination (`VALID`, `BUILD`, `NOP`), is taken to have no regions: that is the model's
reading of R84, log entry 12 (DEDUCED). `hostData` and `freeCount` are the model's own (log entries 7, 10 to 12). -/
def Obligations.HostReadsWhatWasWritten : Prop :=
  ∀ (s : State) (a : Nat) (b : Byte) (rest : List Event), s.cfg.valid = true → s.fm.wf = true →
    (s.phase = .busy → ∀ u, exec (decode s.lastcmd) s = .next u →
      ¬ (s.dstBase.toNat ≤ a ∧ a < s.dstBase.toNat + u.dstLen.toNat)) →
    (a < s.cfg.fmBytes → s.inputs = .memRead a :: rest →
      step s = .next { s with
        inputs := rest, hostData := (s.fm.read a).setWidth 32, freeCount := s.freeCount + 1 }) ∧
    (a < s.cfg.fmBytes → s.inputs = .memWrite a b :: rest →
      (s.phase = .busy → ∀ u, exec (decode s.lastcmd) s = .next u → u.dstLen ≠ 0#32 →
        ¬ (s.srcBase.toNat ≤ a ∧ a < s.srcBase.toNat + s.srcLen.toNat)) →
      ∃ t, step s = .next t ∧ t = { s with inputs := rest, fm := t.fm } ∧ t.fm.read a = b ∧
        ∀ a', a' ≠ a → t.fm.read a' = s.fm.read a') ∧
    (s.cfg.fmBytes ≤ a → s.inputs = .memRead a :: rest → step s = .fault (.noFrameByte a)) ∧
    (s.cfg.fmBytes ≤ a → s.inputs = .memWrite a b :: rest → step s = .fault (.noFrameByte a))

/-- R84: while a command is in execution, a host read of one of its destination bytes returns the old byte or the new
one; a host write into its source or destination region is recorded, and its destination bytes are then no longer the
command's (log entry 12). -/
def Obligations.HostAccessToBusyRegions : Prop :=
  ∀ (s u : State) (a : Nat) (rest : List Event), s.cfg.valid = true → s.phase = .busy → a < s.cfg.fmBytes →
    exec (decode s.lastcmd) s = .next u → u.dstLen ≠ 0#32 →
    (s.disturbed = false → s.inputs = .memRead a :: rest →
      s.dstBase.toNat ≤ a → a < s.dstBase.toNat + u.dstLen.toNat →
      ∃ t, step s = .next t ∧ t = { s with inputs := rest, hostData := t.hostData, freeCount := s.freeCount + 1 } ∧
        (t.hostData = (s.fm.read a).setWidth 32 ∨ t.hostData = (u.fm.read a).setWidth 32)) ∧
    (∀ b, s.inputs = .memWrite a b :: rest →
      (s.srcBase.toNat ≤ a ∧ a < s.srcBase.toNat + s.srcLen.toNat) ∨
        (s.dstBase.toNat ≤ a ∧ a < s.dstBase.toNat + u.dstLen.toNat) →
      step s = .next { s with inputs := rest, fm := s.fm.write a b, disturbed := true })

/-! ## The register port -/

/-- R30 to R40: while idle, a host write to each operand register the host may write stores all 32 bits in that
register and changes nothing else. -/
def Obligations.OperandWritesReachTheirRegisters : Prop :=
  ∀ (s : State) (v : Word) (rest : List Event), s.phase = .idle →
    (s.inputs = .regWrite 0x020#12 v :: rest → step s = .next { s with inputs := rest, srcBase := v }) ∧
    (s.inputs = .regWrite 0x024#12 v :: rest → step s = .next { s with inputs := rest, srcLen := v }) ∧
    (s.inputs = .regWrite 0x028#12 v :: rest → step s = .next { s with inputs := rest, dstBase := v }) ∧
    (s.inputs = .regWrite 0x030#12 v :: rest → step s = .next { s with inputs := rest, width := v }) ∧
    (s.inputs = .regWrite 0x034#12 v :: rest → step s = .next { s with inputs := rest, height := v }) ∧
    (s.inputs = .regWrite 0x040#12 v :: rest → step s = .next { s with inputs := rest, kradius := v }) ∧
    (s.inputs = .regWrite 0x044#12 v :: rest → step s = .next { s with inputs := rest, klen := v }) ∧
    (s.inputs = .regWrite 0x048#12 v :: rest → step s = .next { s with inputs := rest, divNum := v }) ∧
    (s.inputs = .regWrite 0x04C#12 v :: rest → step s = .next { s with inputs := rest, divDen := v }) ∧
    (s.inputs = .regWrite 0x050#12 v :: rest → step s = .next { s with inputs := rest, lutParam := v })

/-- R22 to R43: what each register reads as, busy or idle, and that a read changes no register (`hostData` and
`freeCount` are the model's own, log entries 7 and 11): a weight sign-extended (R41), everything else zero-extended. A
table entry is stated here for a block with no `BUILD` in execution, and by `TableReadDuringBuild` for the others. A
read at an offset that is not a multiple of 4 is refused (R21). -/
def Obligations.RegisterReadsHaveNoSideEffect : Prop :=
  ∀ (s : State) (off : BitVec 12) (rest : List Event), s.inputs = .regRead off :: rest →
    (off.toNat % 4 ≠ 0 → step s = .refused (.misalignedRegisterAccess off)) ∧
    (off.toNat % 4 = 0 → ∃ t, step s = .next t ∧
      t = { s with inputs := rest, hostData := t.hostData, freeCount := s.freeCount + 1 } ∧
      (off = 0x000#12 → t.hostData = 0x47434531#32) ∧
      (off = 0x004#12 → t.hostData = 0#32) ∧
      (off = 0x008#12 → t.hostData = s.status.setWidth 32) ∧
      (off = 0x00C#12 → t.hostData = s.errcode.setWidth 32) ∧
      (off = 0x010#12 → t.hostData = s.lastcmd) ∧
      (off = 0x014#12 → t.hostData = s.irqen.setWidth 32) ∧
      (off = 0x018#12 → t.hostData = s.irqst.setWidth 32) ∧
      (off = 0x020#12 → t.hostData = s.srcBase) ∧
      (off = 0x024#12 → t.hostData = s.srcLen) ∧
      (off = 0x028#12 → t.hostData = s.dstBase) ∧
      (off = 0x02C#12 → t.hostData = s.dstLen) ∧
      (off = 0x030#12 → t.hostData = s.width) ∧
      (off = 0x034#12 → t.hostData = s.height) ∧
      (off = 0x040#12 → t.hostData = s.kradius) ∧
      (off = 0x044#12 → t.hostData = s.klen) ∧
      (off = 0x048#12 → t.hostData = s.divNum) ∧
      (off = 0x04C#12 → t.hostData = s.divDen) ∧
      (off = 0x050#12 → t.hostData = s.lutParam) ∧
      (0x100 ≤ off.toNat → off.toNat ≤ 0x3FC → off.toNat < 0x100 + 4 * s.cfg.nw →
        ∀ w, s.kw[(off.toNat - 0x100) / 4]? = some w → t.hostData = w.signExtend 32) ∧
      (∀ (k : Fin 3) (v : Fin 256), off = BitVec.ofNat 12 (0x400 + 4 * (256 * k.val + v.val)) →
        ¬ (s.phase = .busy ∧ (decode s.lastcmd).isBuild = true) → t.hostData = (s.lutEntry k v).setWidth 32) ∧
      (off = 0x01C#12 ∨ off = 0x038#12 ∨ off = 0x03C#12 ∨ (0x054 ≤ off.toNat ∧ off.toNat ≤ 0x0FC) ∨
        (0x100 + 4 * s.cfg.nw ≤ off.toNat ∧ off.toNat ≤ 0x3FC) → t.hostData = 0#32))

/-- R41: while idle, a host write to `KW[j]` stores bits 15:0 and changes no other weight and nothing else; a read
returns the stored value sign-extended. -/
def Obligations.WeightWindowKeepsSixteenBits : Prop :=
  ∀ (s : State) (j : Nat) (v : Word) (rest : List Event),
    s.cfg.valid = true → s.kw.length = s.cfg.nw → j < s.cfg.nw → s.phase = .idle →
    s.inputs = .regWrite (BitVec.ofNat 12 (0x100 + 4 * j)) v :: .regRead (BitVec.ofNat 12 (0x100 + 4 * j)) :: rest →
      ∃ t u, step s = .next t ∧
        t = { s with inputs := .regRead (BitVec.ofNat 12 (0x100 + 4 * j)) :: rest, kw := t.kw } ∧
        t.kw[j]? = some (v.extractLsb' 0 16) ∧ (∀ j', j' ≠ j → t.kw[j']? = s.kw[j']?) ∧
        step t = .next u ∧ u.hostData = (v.extractLsb' 0 16).signExtend 32

/-- R42: while idle, a host write to `LUT[k][v]` stores bits 7:0 and changes no other entry and nothing else; a read
returns the byte zero-extended. -/
def Obligations.TableWindowKeepsEightBits : Prop :=
  ∀ (s : State) (k : Fin 3) (v : Fin 256) (w : Word) (rest : List Event), s.phase = .idle →
    let off := BitVec.ofNat 12 (0x400 + 4 * (256 * k.val + v.val))
    s.inputs = .regWrite off w :: .regRead off :: rest →
      ∃ t u, step s = .next t ∧ t = { s with inputs := .regRead off :: rest, lut := t.lut } ∧
        t.lutEntry k v = w.extractLsb' 0 8 ∧
        (∀ (k' : Fin 3) (v' : Fin 256), (k', v') ≠ (k, v) → t.lutEntry k' v' = s.lutEntry k' v') ∧
        step t = .next u ∧ u.hostData = (w.extractLsb' 0 8).setWidth 32

/-- R44: while busy, a host write to `CMD`, to an operand register, to a weight or to a table entry is discarded and
sets `IRQST.OVR`; writes to `IRQEN` and `IRQST` are performed, busy or idle; a write to a read-only register or to an
unmapped offset is ignored, busy or idle, and sets nothing. A write at an offset that is not a multiple of 4 does not
exist and is refused (R21). -/
def Obligations.WriteLockDiscards : Prop :=
  ∀ (s : State) (off : BitVec 12) (v : Word) (rest : List Event), s.inputs = .regWrite off v :: rest →
    (off.toNat % 4 ≠ 0 → step s = .refused (.misalignedRegisterAccess off)) ∧
    (off.toNat % 4 = 0 →
      (s.phase = .busy → lockedOffset s.cfg off →
        step s = .next { s with inputs := rest, irqst := s.irqst ||| 0b100#3 }) ∧
      (off = 0x014#12 → step s = .next { s with inputs := rest, irqen := v.extractLsb' 0 3 }) ∧
      (off = 0x018#12 → step s = .next { s with inputs := rest, irqst := s.irqst &&& ~~~(v.extractLsb' 0 3) }) ∧
      (off ∈ [0x000#12, 0x008#12, 0x00C#12, 0x010#12, 0x02C#12] ∨ off ∈ [0x01C#12, 0x038#12, 0x03C#12] ∨
          (0x054 ≤ off.toNat ∧ off.toNat ≤ 0x0FC) ∨ (0x100 + 4 * s.cfg.nw ≤ off.toNat ∧ off.toNat ≤ 0x3FC) →
        step s = .next { s with inputs := rest }))

/-- R28, R29, R296: busy or idle, a host write to `IRQEN` stores bits 2:0 and one to `IRQST` clears the bits written 1;
the `irq` line is high exactly when an enabled source is pending. -/
def Obligations.InterruptRegistersAndLine : Prop :=
  ∀ (s : State) (v : Word) (rest : List Event),
    (s.inputs = .regWrite 0x014#12 v :: rest → step s = .next { s with inputs := rest, irqen := v.extractLsb' 0 3 }) ∧
    (s.inputs = .regWrite 0x018#12 v :: rest →
      ∃ t, step s = .next t ∧ t = { s with inputs := rest, irqst := t.irqst } ∧
        ∀ b, b < 3 → t.irqst.getLsbD b = (s.irqst.getLsbD b && !v.getLsbD b)) ∧
    (s.irq = true ↔ ∃ b, b < 3 ∧ s.irqst.getLsbD b = true ∧ s.irqen.getLsbD b = true)

/-- R333, R45: a host read of a table entry returns its value; while a `BUILD` is in execution it returns the value
before the command or the value the command gives it; which of the two is a free value (log entry 11). -/
def Obligations.TableReadDuringBuild : Prop :=
  ∀ (s : State) (k : Fin 3) (v : Fin 256) (rest : List Event),
    s.inputs = .regRead (BitVec.ofNat 12 (0x400 + 4 * (256 * k.val + v.val))) :: rest →
      ∃ t, step s = .next t ∧
        (s.phase = .busy ∧ (decode s.lastcmd).isBuild = true →
          ∃ u, exec (decode s.lastcmd) s = .next u ∧
            (t.hostData = (s.lutEntry k v).setWidth 32 ∨ t.hostData = (u.lutEntry k v).setWidth 32)) ∧
        (¬ (s.phase = .busy ∧ (decode s.lastcmd).isBuild = true) → t.hostData = (s.lutEntry k v).setWidth 32)

/-! ## Reset -/

/-- R52: the values after reset that the spec gives. What `KW`, `LUT`, the line-buffer bytes and frame memory hold is
not stated. -/
def Obligations.ResetStateHasItsValues : Prop :=
  let s := State.reset
  s.status = 0#3 ∧ s.errcode = 0#4 ∧ s.lastcmd = 0#32 ∧ s.irqen = 0#3 ∧ s.irqst = 0#3 ∧ s.irq = false ∧
    s.srcBase = 0#32 ∧ s.srcLen = 0#32 ∧ s.dstBase = 0#32 ∧ s.dstLen = 0#32 ∧ s.width = 0#32 ∧ s.height = 0#32 ∧
    s.kradius = 0#32 ∧ s.klen = 0#32 ∧ s.divNum = 1#32 ∧ s.divDen = 1#32 ∧ s.lutParam = 0#32 ∧ s.phase = .idle ∧
    ∀ x ∈ s.lb, x.tag = none

/-- R320: reset, in any state, gives every register its value of R52 and invalidates the line buffer; `KW` and the
line-buffer bytes stay, the `irq` line is low, and from an idle block `LUT` and frame memory stay too. -/
def Obligations.ResetEventRestoresRegisters : Prop :=
  ∀ (s : State) (rest : List Event), s.inputs = .reset :: rest →
    ∃ t, step s = .next t ∧
      t = { s with
        inputs := rest, status := 0#3, errcode := 0#4, lastcmd := 0#32, irqen := 0#3, irqst := 0#3,
        srcBase := 0#32, srcLen := 0#32, dstBase := 0#32, dstLen := 0#32, width := 0#32, height := 0#32,
        kradius := 0#32, klen := 0#32, divNum := 1#32, divDen := 1#32, lutParam := 0#32, phase := .idle,
        lb := s.lb.map fun x => ⟨none, x.row⟩, lut := t.lut, fm := t.fm, disturbed := false,
        freeCount := s.freeCount + 1 } ∧
      t.irq = false ∧ (s.phase = .idle → t.lut = s.lut ∧ t.fm = s.fm)

/-- R322: when reset abandons a command, every byte of its destination region and every table entry holds its old value
or the value the command would have given it, and no byte outside the region changes. The region's first clause is for
a command whose regions the host has left alone (R84). Which of the two is a free value (log entry 10). -/
def Obligations.ResetDuringCommand : Prop :=
  ∀ (s u t : State) (rest : List Event), s.cfg.valid = true → s.fm.wf = true → s.inputs = .reset :: rest →
    s.phase = .busy → exec (decode s.lastcmd) s = .next u → step s = .next t →
      (s.disturbed = false → ∀ a, t.fm.read a = s.fm.read a ∨ t.fm.read a = u.fm.read a) ∧
      (∀ a, ¬ (s.dstBase.toNat ≤ a ∧ a < s.dstBase.toNat + u.dstLen.toNat) → t.fm.read a = s.fm.read a) ∧
      (∀ k v, t.lutEntry k v = s.lutEntry k v ∨ t.lutEntry k v = u.lutEntry k v) ∧
      t.kw = s.kw

/-! ## The whole machine -/

/-- Every step keeps the invariant: the parameters stay legal, `STATUS`, `phase` and `ERRCODE` agree (R25, R26, R48),
the weight file and the line buffer keep their shape (R41, R260), frame memory keeps its canonical form (the model's
own, log entry 8) and lists no byte that does not exist, and `disturbed` is the model's own (log entry 12). -/
def Obligations.StepKeepsInvariant : Prop :=
  ∀ s t : State, s.Inv → step s = .next t → t.Inv

/-- The reset state meets the invariant. -/
def Obligations.ResetMeetsInvariant : Prop := State.reset.Inv

/-- R51: no step changes a parameter. -/
def Obligations.ConfigurationNeverChanges : Prop :=
  ∀ s t : State, step s = .next t → t.cfg = s.cfg

/-- R44: a step that leaves a busy block busy changes no register but `IRQEN` and `IRQST`, no weight, no table entry
and no line-buffer row, and no byte of frame memory but one the host writes: the command reads at its complete step what
stood at its accept step. -/
def Obligations.OperandsLockedWhileBusy : Prop :=
  ∀ s t : State, s.phase = .busy → step s = .next t → t.phase = .busy →
    t = { s with inputs := t.inputs, irqen := t.irqen, irqst := t.irqst, fm := t.fm, hostData := t.hostData,
                 disturbed := t.disturbed, freeCount := t.freeCount } ∧
      (t.fm = s.fm ∨ ∃ a b rest, s.inputs = .memWrite a b :: rest ∧ t.fm = s.fm.write a b)

/-- R27: `LASTCMD` is written by the accept step only, and by reset. -/
def Obligations.LastcmdChangesOnlyOnAccept : Prop :=
  ∀ s t : State, step s = .next t → t.lastcmd ≠ s.lastcmd →
    (∃ w rest, s.inputs = .regWrite 0x004#12 w :: rest ∧ s.phase = .idle ∧ t.lastcmd = w) ∨
      ∃ rest, s.inputs = .reset :: rest

/-- R48: the phase goes from idle to busy by an accept step only, and from busy to idle by a complete step or reset
only. With no move to come it is the engine's turn (the model's choice, log entry 6). -/
def Obligations.PhaseChangesOnlyByItsThreeSteps : Prop :=
  ∀ s t : State, step s = .next t →
    (s.phase = .idle → t.phase = .busy → ∃ w rest, s.inputs = .regWrite 0x004#12 w :: rest) ∧
      (s.phase = .busy → t.phase = .idle →
        s.inputs = [] ∨ (∃ rest, s.inputs = .engine :: rest) ∨ ∃ rest, s.inputs = .reset :: rest)

/-- R29, R297, R46: an `IRQST` bit is cleared only by a host write of 1 to it or by reset; `DONE` and `ERR` are set only
by a complete step, `ERR` only by one that ends with an error, and `OVR` only by the discard of the write lock, a host
write to an offset it covers while busy. -/
def Obligations.IrqBitsAreSticky : Prop :=
  ∀ (s t : State) (b : Nat), b < 3 → step s = .next t →
    (s.irqst.getLsbD b = true → t.irqst.getLsbD b = false →
      (∃ v rest, s.inputs = .regWrite 0x018#12 v :: rest ∧ v.getLsbD b = true) ∨ ∃ rest, s.inputs = .reset :: rest) ∧
    (s.irqst.getLsbD b = false → t.irqst.getLsbD b = true → b < 2 →
      s.phase = .busy ∧ t.phase = .idle ∧ (s.inputs = [] ∨ ∃ rest, s.inputs = .engine :: rest) ∧
        (b = 1 → t.errcode ≠ 0#4)) ∧
    (s.irqst.getLsbD b = false → t.irqst.getLsbD b = true → b = 2 →
      s.phase = .busy ∧ ∃ off v rest, s.inputs = .regWrite off v :: rest ∧ off.toNat % 4 = 0 ∧ lockedOffset s.cfg off)

/-- R336: whatever moves are to come, a busy block leaves its command within that many steps and one more, by the
complete step or by reset, unless a host access stops the model first. That the engine moves when no move is to come is
the model's choice (log entry 6). -/
def Obligations.BusyEngineCompletes : Prop :=
  ∀ s : State, s.phase = .busy →
    ∃ k t, k ≤ s.inputs.length ∧ core.run k s = .next t ∧ t.phase = .busy ∧
      ((∃ u, step t = .next u ∧ u.phase = .idle) ∨ ¬ ∃ u, step t = .next u)

/-! ## Arithmetic -/

/-- R12: `rnd` with ties to even is the nearest integer, the even one at a tie; `rnd` depends on the exact rational
alone; `clamp` saturates; `sort_asc` orders by unsigned value. -/
def Obligations.ArithmeticPrimitives : Prop :=
  (∀ n d : Int, d ≠ 0 →
      2 * |rnd .tiesToEven n d * d - n| ≤ |d| ∧
        (2 * |rnd .tiesToEven n d * d - n| = |d| → rnd .tiesToEven n d % 2 = 0)) ∧
    (∀ (m : Rounding) (n d n' d' : Int), d ≠ 0 → d' ≠ 0 → n * d' = n' * d → rnd m n d = rnd m n' d') ∧
    (∀ i : Int, ((clamp i).toNat : Int) = if i < 0 then 0 else if 255 < i then 255 else i) ∧
    ∀ l : List Byte, (sortAsc l).Perm l ∧ (sortAsc l).Pairwise fun a b => a.toNat ≤ b.toNat
end

