-- ==== Sys2Proof/Laws/Arith.lean ====
section
/-! SUPPORT. Rounding, clamping and sorting (R12): what each computes, stated without its definition. -/

namespace Sys2Proof.Machine

/-! Rounding. -/

/-- With a positive denominator `rnd` is decided by the floor and twice the fraction. -/
theorem rnd_pos (mode : Rounding) {n d : Int} (hd : 0 < d) :
    rnd mode n d =
      match mode with
      | .tiesToEven =>
        if 2 * (n % d) < d then n / d
        else if d < 2 * (n % d) then n / d + 1 else if n / d % 2 = 0 then n / d else n / d + 1
      | .tiesUp => if 2 * (n % d) < d then n / d else n / d + 1
      | .truncate => if n < 0 ∧ 2 * (n % d) ≠ 0 then n / d + 1 else n / d := by
  cases mode <;> simp only [rnd, if_neg (show ¬ d < 0 by omega)]

/-- `rnd(n / d)` for a negative `d` is `rnd(-n / -d)`. -/
theorem rnd_neg (mode : Rounding) {n d : Int} (hd : d < 0) : rnd mode n d = rnd mode (-n) (-d) := by
  simp only [rnd, if_pos hd, if_neg (show ¬ -d < 0 by omega)]

/-- The two integers around `n / d`: one of them is the result, and it is `n / d` when that is an integer. -/
theorem rnd_near (mode : Rounding) {n d : Int} (hd : 0 < d) :
    (rnd mode n d = n / d ∨ rnd mode n d = n / d + 1) ∧ (n % d = 0 → rnd mode n d = n / d) := by
  rw [rnd_pos mode hd]
  cases mode <;> dsimp only <;> constructor <;> (try intro h) <;> split_ifs <;> omega

/-- `rnd` of an integer is that integer: "when q is an integer, rnd does nothing" (R12). -/
theorem rnd_exact (mode : Rounding) {d : Int} (hd : d ≠ 0) (z : Int) : rnd mode (z * d) d = z := by
  rcases Int.lt_or_gt_of_ne hd with h | h
  · rw [rnd_neg mode h, ← Int.mul_neg, (rnd_near mode (by omega)).2 (Int.mul_emod_left _ _),
      Int.mul_ediv_cancel _ (by omega)]
  · rw [(rnd_near mode h).2 (Int.mul_emod_left _ _), Int.mul_ediv_cancel _ (by omega)]

/-- `rnd` keeps order. -/
theorem rnd_mono (mode : Rounding) {n n' d : Int} (hd : 0 < d) (h : n ≤ n') : rnd mode n d ≤ rnd mode n' d := by
  have hle : n / d ≤ n' / d := Int.ediv_le_ediv hd h
  rcases Int.lt_or_eq_of_le hle with hlt | heq
  · have h1 := (rnd_near mode (n := n) hd).1
    have h2 := (rnd_near mode (n := n') hd).1
    omega
  · have e1 := Int.mul_ediv_add_emod n d
    have e2 := Int.mul_ediv_add_emod n' d
    rw [heq] at e1
    have hr : n % d ≤ n' % d := by omega
    have b1 := Int.emod_nonneg n (show d ≠ 0 by omega)
    have p1 : 0 ≤ n' → 0 ≤ n' / d := fun h => Int.ediv_nonneg h (by omega)
    have p2 : n < 0 → n / d < 0 := fun h => Int.ediv_neg_of_neg_of_pos h hd
    rw [heq] at p2
    rw [rnd_pos mode hd, rnd_pos mode hd, heq]
    cases mode <;> dsimp only <;> split_ifs <;> omega

/-- The uniqueness behind every floor: `d*f ≤ n < d*(f+1)` fixes `f`. -/
theorem ediv_unique {n d f : Int} (hd : 0 < d) (h1 : d * f ≤ n) (h2 : n < d * (f + 1)) : n / d = f := by
  have e : n = (n - d * f) + d * f := by omega
  rw [e, Int.add_mul_ediv_left _ _ (by omega), Int.ediv_eq_zero_of_lt (by omega) (by linarith)]
  omega

theorem rnd_scale (mode : Rounding) {n d k : Int} (hd : 0 < d) (hk : 0 < k) :
    rnd mode (k * n) (k * d) = rnd mode n d := by
  have e := Int.mul_ediv_add_emod n d
  have hf : k * n / (k * d) = n / d := Int.mul_ediv_mul_of_pos _ _ hk
  have hr : k * n % (k * d) = k * (n % d) := Int.mul_emod_mul_of_pos _ _ hk
  have hlt : 2 * (k * (n % d)) < k * d ↔ 2 * (n % d) < d := by
    rw [show 2 * (k * (n % d)) = k * (2 * (n % d)) by ring]
    exact ⟨fun h => lt_of_mul_lt_mul_left h (by omega), fun h => mul_lt_mul_of_pos_left h hk⟩
  have hgt : k * d < 2 * (k * (n % d)) ↔ d < 2 * (n % d) := by
    rw [show 2 * (k * (n % d)) = k * (2 * (n % d)) by ring]
    exact ⟨fun h => lt_of_mul_lt_mul_left h (by omega), fun h => mul_lt_mul_of_pos_left h hk⟩
  have hz : 2 * (k * (n % d)) ≠ 0 ↔ 2 * (n % d) ≠ 0 := by
    constructor
    · rintro h h'
      exact h (by rw [show n % d = 0 by omega]; ring)
    · rintro h h'
      rcases mul_eq_zero.1 (show k * (n % d) = 0 by omega) with h'' | h'' <;> omega
  have hn : k * n < 0 ↔ n < 0 := ⟨fun h => by
    by_contra hc
    exact absurd h (not_lt.2 (mul_nonneg (by omega) (by omega))), fun h => mul_neg_of_pos_of_neg hk h⟩
  rw [rnd_pos mode hd, rnd_pos mode (mul_pos hk hd), hf, hr]
  cases mode <;> simp only [hlt, hgt, hz, hn]

/-- `rnd` depends on the exact rational alone (R8: "depends on its argument alone"). -/
theorem rnd_congr (mode : Rounding) {n d n' d' : Int} (hd : d ≠ 0) (hd' : d' ≠ 0) (h : n * d' = n' * d) :
    rnd mode n d = rnd mode n' d' := by
  have pos : ∀ {n d n' d' : Int}, 0 < d → 0 < d' → n * d' = n' * d → rnd mode n d = rnd mode n' d' := by
    intro n d n' d' hd hd' h
    rw [← rnd_scale mode hd hd', ← rnd_scale mode hd' hd, show d' * n = d * n' by linarith, mul_comm d d']
  rcases Int.lt_or_gt_of_ne hd with h1 | h1 <;> rcases Int.lt_or_gt_of_ne hd' with h2 | h2
  · rw [rnd_neg mode h1, rnd_neg mode h2]
    exact pos (by omega) (by omega) (by linarith)
  · rw [rnd_neg mode h1]
    exact pos (by omega) h2 (by linarith)
  · rw [rnd_neg mode h2]
    exact pos h1 (by omega) (by linarith)
  · exact pos h1 h2 h

/-- `rnd` stays between two integers that bound the quotient. -/
theorem rnd_bounds (mode : Rounding) {n d lo hi : Int} (hd : 0 < d) (h1 : lo * d ≤ n) (h2 : n ≤ hi * d) :
    lo ≤ rnd mode n d ∧ rnd mode n d ≤ hi := by
  constructor
  · rw [← rnd_exact mode (show d ≠ 0 by omega) lo]
    exact rnd_mono mode hd h1
  · rw [← rnd_exact mode (show d ≠ 0 by omega) hi]
    exact rnd_mono mode hd h2

/-! Clamping. -/

/-- `clamp` saturates to 0 and 255 (R12). -/
theorem clamp_toNat (i : Int) : ((clamp i).toNat : Int) = max 0 (min 255 i) := by
  unfold clamp
  split_ifs
  · rw [BitVec.toNat_ofNat]; omega
  · rw [BitVec.toNat_ofNat]; omega
  · rw [BitVec.toNat_ofNat, Nat.mod_eq_of_lt (by omega)]
    omega

theorem clamp_mono {i j : Int} (h : i ≤ j) : (clamp i).toNat ≤ (clamp j).toNat := by
  have h1 := clamp_toNat i
  have h2 := clamp_toNat j
  omega

@[simp] theorem clamp_byte (b : Byte) : clamp b.toNat = b := by
  apply BitVec.eq_of_toNat_eq
  have h1 := clamp_toNat b.toNat
  have h2 := b.isLt
  omega

/-- An exact byte is kept: rounding and clamping do nothing to it (R12). -/
theorem clampRnd_exact (mode : Rounding) {d : Int} (hd : d ≠ 0) (b : Byte) : clampRnd mode (b.toNat * d) d = b := by
  rw [clampRnd, rnd_exact mode hd, clamp_byte]

/-! Sorting. -/

theorem insertAsc_perm (b : Byte) : ∀ l : List Byte, (insertAsc b l).Perm (b :: l)
  | [] => .refl _
  | x :: xs => by
    simp only [insertAsc]
    split
    · exact .refl _
    · exact ((insertAsc_perm b xs).cons x).trans (.swap b x xs)

/-- `sort_asc` reorders its list. -/
theorem sortAsc_perm : ∀ l : List Byte, (sortAsc l).Perm l
  | [] => .refl _
  | x :: xs => (insertAsc_perm x _).trans ((sortAsc_perm xs).cons x)

@[simp] theorem sortAsc_length (l : List Byte) : (sortAsc l).length = l.length := (sortAsc_perm l).length_eq

theorem insertAsc_sorted (b : Byte) :
    ∀ {l : List Byte}, l.Pairwise (fun x y => x.toNat ≤ y.toNat) →
      (insertAsc b l).Pairwise (fun x y => x.toNat ≤ y.toNat)
  | [], _ => List.pairwise_singleton _ _
  | x :: xs, h => by
    simp only [insertAsc]
    rw [List.pairwise_cons] at h
    split
    · rename_i hbx
      rw [List.pairwise_cons, List.pairwise_cons]
      refine ⟨fun y hy => ?_, h⟩
      rcases List.mem_cons.1 hy with rfl | hy
      · exact hbx
      · exact le_trans hbx (h.1 y hy)
    · rw [List.pairwise_cons]
      refine ⟨fun y hy => ?_, insertAsc_sorted b h.2⟩
      rcases List.mem_cons.1 ((insertAsc_perm b xs).mem_iff.1 hy) with rfl | hy
      · omega
      · exact h.1 y hy

/-- `sort_asc` gives a non-decreasing list. -/
theorem sortAsc_sorted : ∀ l : List Byte, (sortAsc l).Pairwise (fun x y => x.toNat ≤ y.toNat)
  | [] => .nil
  | x :: xs => insertAsc_sorted x (sortAsc_sorted xs)

end Sys2Proof.Machine
end

