-- ==== Sys2Proof/Laws/Memory.lean ====
section
/-! SUPPORT. Frame memory (R71): a read after a write, and the canonical form that every write keeps. -/

namespace Sys2Proof.Machine

@[simp] theorem Memory.read_nil (a : Nat) : Memory.read [] a = Memory.fill := rfl

theorem Memory.wfFrom_le {lo lo' : Nat} {m : Memory} (h : lo' ≤ lo) (hm : Memory.wfFrom lo m = true) :
    Memory.wfFrom lo' m = true := by
  cases m with
  | nil => rfl
  | cons c m =>
    obtain ⟨k, b⟩ := c
    simp only [Memory.wfFrom, Bool.and_eq_true, decide_eq_true_eq] at hm ⊢
    exact ⟨⟨by omega, hm.1.2⟩, hm.2⟩

/-- An address below every listed one reads as the fill byte. -/
theorem Memory.read_below {m : Memory} : ∀ {lo a : Nat}, Memory.wfFrom lo m = true → a < lo → m.read a = Memory.fill := by
  induction m with
  | nil => intros; rfl
  | cons c m ih =>
    obtain ⟨k, b⟩ := c
    intro lo a hm ha
    simp only [Memory.wfFrom, Bool.and_eq_true, decide_eq_true_eq] at hm
    simp only [Memory.read]
    rw [if_neg (by omega)]
    exact ih hm.2 (by omega)

/-- A write leaves every other address alone. -/
theorem Memory.read_write_other {a a' : Nat} (h : a' ≠ a) (v : Byte) :
    ∀ m : Memory, Memory.read (m.write a v) a' = m.read a'
  | [] => by
    simp only [Memory.write]
    split <;> simp [Memory.read, Ne.symm h]
  | (k, b) :: m => by
    have ih := Memory.read_write_other h v m
    simp only [Memory.write]
    split
    · split <;> simp [Memory.read, Ne.symm h]
    · split
      · rename_i hk
        subst hk
        split <;> simp [Memory.read, Ne.symm h]
      · simp only [Memory.read, ih]

/-- A read after a write to the same address gives the value written. -/
theorem Memory.read_write_same (a : Nat) (v : Byte) :
    ∀ {m : Memory} {lo : Nat}, Memory.wfFrom lo m = true → Memory.read (m.write a v) a = v
  | [], _, _ => by
    simp only [Memory.write]
    split <;> simp_all [Memory.read]
  | (k, b) :: m, lo, hm => by
    simp only [Memory.wfFrom, Bool.and_eq_true, decide_eq_true_eq] at hm
    simp only [Memory.write]
    split
    · rename_i hlt
      split
      · rename_i hv
        simp only [Memory.read]
        rw [if_neg (by omega), Memory.read_below hm.2 (by omega), hv]
      · simp [Memory.read]
    · split
      · rename_i hk
        subst hk
        split
        · rename_i hv
          rw [Memory.read_below hm.2 (by omega), hv]
        · simp [Memory.read]
      · rename_i hne
        simp only [Memory.read]
        rw [if_neg (fun e => hne e.symm)]
        exact Memory.read_write_same a v hm.2

/-- A write keeps the canonical form. -/
theorem Memory.wfFrom_write (a : Nat) (v : Byte) :
    ∀ {m : Memory} {lo : Nat}, lo ≤ a → Memory.wfFrom lo m = true → Memory.wfFrom lo (m.write a v) = true
  | [], lo, ha, _ => by
    simp only [Memory.write]
    split <;> simp_all [Memory.wfFrom]
  | (k, b) :: m, lo, ha, hm => by
    have hm' := hm
    simp only [Memory.wfFrom, Bool.and_eq_true, decide_eq_true_eq] at hm
    simp only [Memory.write]
    split
    · split
      · exact hm'
      · simp only [Memory.wfFrom, Bool.and_eq_true, decide_eq_true_eq]
        exact ⟨⟨ha, ‹_›⟩, ⟨by omega, hm.1.2⟩, hm.2⟩
    · split
      · rename_i hk
        subst hk
        split
        · exact Memory.wfFrom_le (by omega) hm.2
        · simp only [Memory.wfFrom, Bool.and_eq_true, decide_eq_true_eq]
          exact ⟨⟨ha, ‹_›⟩, hm.2⟩
      · simp only [Memory.wfFrom, Bool.and_eq_true, decide_eq_true_eq]
        exact ⟨hm.1, Memory.wfFrom_write a v (by omega) hm.2⟩

theorem Memory.wf_write {m : Memory} (a : Nat) (v : Byte) (h : m.wf = true) : Memory.wf (m.write a v) = true :=
  Memory.wfFrom_write a v (Nat.zero_le a) h

/-- What a write can list: an entry that was there, or one at the written address. -/
theorem Memory.mem_write {a : Nat} {v : Byte} {c : Host.Cell} : ∀ {m : Memory}, c ∈ m.write a v → c ∈ m ∨ c.1 = a
  | [], h => by
    simp only [Memory.write] at h
    split at h <;> simp_all
  | (k, b) :: m, h => by
    have ih := @Memory.mem_write a v c m
    simp only [Memory.write] at h
    split at h
    · split at h
      · exact .inl h
      · rcases List.mem_cons.1 h with rfl | h
        · exact .inr rfl
        · exact .inl h
    · split at h
      · split at h
        · exact .inl (List.mem_cons_of_mem _ h)
        · rcases List.mem_cons.1 h with rfl | h
          · exact .inr rfl
          · exact .inl (List.mem_cons_of_mem _ h)
      · rcases List.mem_cons.1 h with rfl | h
        · exact .inl List.mem_cons_self
        · exact (ih h).imp_left (List.mem_cons_of_mem _)

theorem Memory.below_iff {m : Memory} {size : Nat} : m.below size = true ↔ ∀ c ∈ m, c.1 < size := by
  simp only [Memory.below, List.all_eq_true, decide_eq_true_eq]

/-- A write to an address that exists lists no address that does not. -/
theorem Memory.below_write {size a : Nat} (ha : a < size) (v : Byte) {m : Memory} (hm : m.below size = true) :
    Memory.below (m.write a v) size = true := by
  rw [Memory.below_iff] at hm ⊢
  intro c hc
  rcases Memory.mem_write hc with h | h
  · exact hm c h
  · omega

@[simp] theorem Memory.writeAll_nil (m : Memory) : m.writeAll [] = m := rfl

@[simp] theorem Memory.writeAll_cons (m : Memory) (a : Nat) (v : Byte) (ws : List Host.Cell) :
    m.writeAll ((a, v) :: ws) = Memory.writeAll (m.write a v) ws := rfl

theorem Memory.writeAll_append (m : Memory) (ws ws' : List Host.Cell) :
    m.writeAll (ws ++ ws') = Memory.writeAll (m.writeAll ws) ws' := by
  induction ws generalizing m with
  | nil => rfl
  | cons c ws ih => exact ih _

theorem Memory.wf_writeAll {ws : List Host.Cell} : ∀ {m : Memory}, m.wf = true → Memory.wf (m.writeAll ws) = true := by
  induction ws with
  | nil => exact fun h => h
  | cons c ws ih => exact fun h => ih (Memory.wf_write c.1 c.2 h)

theorem Memory.below_writeAll {size : Nat} {ws : List Host.Cell} (hw : ∀ c ∈ ws, c.1 < size) :
    ∀ {m : Memory}, m.below size = true → Memory.below (m.writeAll ws) size = true := by
  induction ws with
  | nil => exact fun h => h
  | cons c ws ih =>
    intro m h
    exact ih (fun c' hc => hw c' (List.mem_cons_of_mem _ hc))
      (Memory.below_write (hw c List.mem_cons_self) c.2 h)

/-- An address that no write names keeps its byte. -/
theorem Memory.read_writeAll_other {a : Nat} {ws : List Host.Cell} (h : ∀ c ∈ ws, c.1 ≠ a) :
    ∀ m : Memory, Memory.read (m.writeAll ws) a = m.read a := by
  induction ws with
  | nil => exact fun _ => rfl
  | cons c ws ih =>
    intro m
    rw [show m.writeAll (c :: ws) = Memory.writeAll (m.write c.1 c.2) ws from rfl,
      ih (fun c' hc => h c' (List.mem_cons_of_mem _ hc))]
    exact Memory.read_write_other (Ne.symm (h c List.mem_cons_self)) c.2 m

/-- If every write to `a` writes `v` and there is one, `a` reads `v` afterwards. -/
theorem Memory.read_writeAll_eq {a : Nat} {v : Byte} {ws : List Host.Cell} (hall : ∀ c ∈ ws, c.1 = a → c.2 = v)
    (hex : ∃ c ∈ ws, c.1 = a) : ∀ {m : Memory}, m.wf = true → Memory.read (m.writeAll ws) a = v := by
  induction ws with
  | nil => simp at hex
  | cons c ws ih =>
    intro m hm
    rw [show m.writeAll (c :: ws) = Memory.writeAll (m.write c.1 c.2) ws from rfl]
    by_cases hws : ∃ c' ∈ ws, c'.1 = a
    · exact ih (fun c' hc => hall c' (List.mem_cons_of_mem _ hc)) hws (Memory.wf_write _ _ hm)
    · have hc : c.1 = a := by
        obtain ⟨c', hc', he⟩ := hex
        rcases List.mem_cons.1 hc' with rfl | hc'
        · exact he
        · exact absurd ⟨c', hc', he⟩ hws
      rw [Memory.read_writeAll_other (fun c' hc' he => hws ⟨c', hc', he⟩), hc,
        Memory.read_write_same a c.2 hm, hall c List.mem_cons_self hc]

/-- One write acts alike on two memories, at every address they agree on and at its own. -/
theorem Memory.read_write_congr {m m' : Memory} (h : m.wf = true) (h' : m'.wf = true) {a b : Nat} (v : Byte)
    (hr : m.read a = m'.read a ∨ b = a) : Memory.read (m.write b v) a = Memory.read (m'.write b v) a := by
  by_cases hb : b = a
  · subst hb
    rw [Memory.read_write_same b v h, Memory.read_write_same b v h']
  · rw [Memory.read_write_other (Ne.symm hb), Memory.read_write_other (Ne.symm hb)]
    exact hr.resolve_right hb

/-- A list of writes acts alike on two memories, at every address they agree on and at every address it writes. -/
theorem Memory.read_writeAll_congr {a : Nat} {ws : List Host.Cell} :
    ∀ {m m' : Memory}, m.wf = true → m'.wf = true → (m.read a = m'.read a ∨ ∃ c ∈ ws, c.1 = a) →
      Memory.read (m.writeAll ws) a = Memory.read (m'.writeAll ws) a := by
  induction ws with
  | nil => exact fun _ _ h => h.resolve_right (by simp)
  | cons c ws ih =>
    intro m m' hm hm' h
    refine ih (Memory.wf_write _ _ hm) (Memory.wf_write _ _ hm') ?_
    by_cases hws : ∃ c' ∈ ws, c'.1 = a
    · exact .inr hws
    · refine .inl (Memory.read_write_congr hm hm' c.2 ?_)
      rcases h with h | ⟨c', hc', he⟩
      · exact .inl h
      · rcases List.mem_cons.1 hc' with rfl | hc'
        · exact .inr he
        · exact absurd ⟨c', hc', he⟩ hws

/-- Of a list of writes those to the addresses that `p` picks: at a picked address all of them, elsewhere none. -/
theorem Memory.read_writeAll_filter {a : Nat} (p : Nat → Bool) {ws : List Host.Cell} :
    ∀ {m : Memory}, m.wf = true → Memory.read (m.writeAll (ws.filter fun c => p c.1)) a =
      if p a then Memory.read (m.writeAll ws) a else m.read a := by
  induction ws with
  | nil => intro m _; simp
  | cons c ws ih =>
    intro m hm
    have hrest : Memory.read (Memory.writeAll (m.write c.1 c.2) ws) a =
        Memory.read (m.writeAll (c :: ws)) a := rfl
    by_cases hp : p c.1 = true
    · rw [List.filter_cons_of_pos (p := fun c : Host.Cell => p c.1) hp]
      show Memory.read (Memory.writeAll (m.write c.1 c.2) _) a = _
      rw [ih (Memory.wf_write _ _ hm), hrest]
      split
      · rfl
      · rename_i ha
        exact Memory.read_write_other (fun e => ha (by rw [e]; exact hp)) _ _
    · rw [List.filter_cons_of_neg (p := fun c : Host.Cell => p c.1) hp, ih hm, ← hrest]
      split
      · rename_i ha
        refine Memory.read_writeAll_congr hm (Memory.wf_write _ _ hm) (.inl ?_)
        exact (Memory.read_write_other (fun e => hp (by rw [← e]; exact ha)) _ _).symm
      · rfl

/-- Two memories in canonical form that read alike at every address are equal. -/
theorem Memory.ext_from : ∀ {m m' : Memory} {lo : Nat}, Memory.wfFrom lo m = true → Memory.wfFrom lo m' = true →
    (∀ a, m.read a = m'.read a) → m = m'
  | [], [], _, _, _, _ => rfl
  | [], (k, b) :: m', lo, _, h', h => by
    simp only [Memory.wfFrom, Bool.and_eq_true, decide_eq_true_eq] at h'
    have := h k
    simp only [Memory.read, if_true] at this
    exact absurd this.symm h'.1.2
  | (k, b) :: m, [], lo, h', _, h => by
    simp only [Memory.wfFrom, Bool.and_eq_true, decide_eq_true_eq] at h'
    have := h k
    simp only [Memory.read, if_true] at this
    exact absurd this h'.1.2
  | (k, b) :: m, (k', b') :: m', lo, hm, hm', h => by
    have hk0 := hm
    simp only [Memory.wfFrom, Bool.and_eq_true, decide_eq_true_eq] at hm hm'
    have hkk : k = k' := by
      rcases Nat.lt_trichotomy k k' with hlt | heq | hgt
      · have := h k
        simp only [Memory.read, if_true] at this
        rw [if_neg (by omega), Memory.read_below hm'.2 (by omega)] at this
        exact absurd this hm.1.2
      · exact heq
      · have := h k'
        simp only [Memory.read, if_true] at this
        rw [if_neg (by omega), Memory.read_below hm.2 (by omega)] at this
        exact absurd this.symm hm'.1.2
    subst hkk
    have hb : b = b' := by simpa [Memory.read] using h k
    subst hb
    congr 1
    refine Memory.ext_from hm.2 hm'.2 fun a => ?_
    by_cases ha : k = a
    · subst ha
      rw [Memory.read_below hm.2 (by omega), Memory.read_below hm'.2 (by omega)]
    · have := h a
      simpa only [Memory.read, if_neg ha] using this

theorem Memory.ext_wf {m m' : Memory} (h : m.wf = true) (h' : m'.wf = true) (hr : ∀ a, m.read a = m'.read a) : m = m' :=
  Memory.ext_from h h' hr

end Sys2Proof.Machine
end

