-- ==== Sys2Proof/Laws/Operands.lean ====
section
/-! SUPPORT. The checks (R135, R78, R79) and the packing (R138, R140): when each passes and what it writes. -/

namespace Sys2Proof.Machine

@[simp] theorem raiseIf_bind {α : Type} (c : Prop) [Decidable c] (k : ErrKind) (f : Unit → Except ErrKind α) :
    (raiseIf c k >>= f) = if c then .error k else f () := by
  unfold raiseIf
  split <;> rfl

@[simp] theorem raiseIf_eq_ok (c : Prop) [Decidable c] (k : ErrKind) : raiseIf c k = .ok () ↔ ¬ c := by
  unfold raiseIf
  split <;> simp_all

@[simp] theorem ok_bind {α β : Type} (a : α) (f : α → Except ErrKind β) : (Except.ok a >>= f) = f a := rfl

@[simp] theorem error_bind {α β : Type} (k : ErrKind) (f : α → Except ErrKind β) :
    ((Except.error k : Except ErrKind α) >>= f) = .error k := rfl

/-- A bind that succeeds is two successes. -/
theorem bind_eq_ok {α β : Type} {x : Except ErrKind α} {f : α → Except ErrKind β} {b : β} :
    (x >>= f) = .ok b ↔ ∃ a, x = .ok a ∧ f a = .ok b := by
  cases x with
  | error k => simp
  | ok a => simp

/-- `shape()` test by test (R135). -/
theorem shape_eq (s : State) : shape s =
    if s.width.toNat = 0 ∨ s.height.toNat = 0 then .error .shapeMismatch
    else if s.srcLen.toNat % s.pixels ≠ 0 then .error .shapeMismatch
    else if s.srcLen.toNat / s.pixels ≠ 1 ∧ s.srcLen.toNat / s.pixels ≠ 4 then .error .unsupportedDepth
    else .ok ⟨s.width.toNat, s.height.toNat, s.pixels, s.srcLen.toNat, s.srcLen.toNat / s.pixels⟩ := by
  unfold shape
  rw [raiseIf_bind, raiseIf_bind, raiseIf_bind]
  rfl

/-- The registers describe a source of depth `d` (R135), wherever it lies. -/
structure ShapeOk (s : State) (d : Nat) : Prop where
  width : s.width.toNat ≠ 0
  height : s.height.toNat ≠ 0
  depth : d = 1 ∨ d = 4
  length : s.srcLen.toNat = s.pixels * d

theorem SourceOk.shapeOk {s : State} {d : Nat} (h : SourceOk s d) : ShapeOk s d := ⟨h.1, h.2, h.3, h.4⟩

theorem ShapeOk.pixels_pos {s : State} {d : Nat} (h : ShapeOk s d) : 0 < s.pixels :=
  Nat.mul_pos (Nat.pos_of_ne_zero h.width) (Nat.pos_of_ne_zero h.height)

/-- What `shape()` returns for a source of depth `d`. -/
def shapeOf (s : State) (d : Nat) : Shape := ⟨s.width.toNat, s.height.toNat, s.pixels, s.srcLen.toNat, d⟩

/-- `shape()` succeeds exactly on a source of depth 1 or 4, and returns its numbers. -/
theorem shape_ok_iff {s : State} {sh : Shape} : shape s = .ok sh ↔ ∃ d, ShapeOk s d ∧ sh = shapeOf s d := by
  rw [shape_eq]
  constructor
  · intro h
    split_ifs at h with h1 h2 h3
    refine ⟨s.srcLen.toNat / s.pixels, ⟨by tauto, by tauto, by omega, ?_⟩, (Except.ok.inj h).symm⟩
    have := Nat.div_add_mod s.srcLen.toNat s.pixels
    omega
  · rintro ⟨d, h, rfl⟩
    have hp := h.pixels_pos
    have hdiv : s.srcLen.toNat / s.pixels = d := by rw [h.length, Nat.mul_div_cancel_left _ hp]
    have hmod : s.srcLen.toNat % s.pixels = 0 := by rw [h.length, Nat.mul_mod_right]
    have hd := h.depth
    have hw := h.width
    have hh := h.height
    rw [if_neg (by tauto), if_neg (by omega), hdiv, if_neg (by omega)]
    rfl

theorem ShapeOk.shape_eq {s : State} {d : Nat} (h : ShapeOk s d) : shape s = .ok (shapeOf s d) :=
  shape_ok_iff.2 ⟨d, h, rfl⟩

@[simp] theorem outDepth_true : outDepth true = 1 := rfl

@[simp] theorem outDepth_false : outDepth false = 4 := rfl

theorem outDepth_pos (mono : Bool) : 0 < outDepth mono := by cases mono <;> decide

theorem checkSrcRange_ok_iff {s : State} {sh : Shape} :
    checkSrcRange s sh = .ok () ↔ s.srcBase.toNat + sh.l ≤ s.cfg.fmBytes := by
  rw [checkSrcRange, raiseIf_eq_ok, State.sb]
  omega

theorem checkRange_ok_iff {s : State} {sh : Shape} {od : Nat} :
    checkRange s sh od = .ok () ↔
      s.srcBase.toNat + sh.l ≤ s.cfg.fmBytes ∧ s.dstBase.toNat + sh.n * od ≤ s.cfg.fmBytes := by
  simp only [checkRange, bind_eq_ok]
  rw [raiseIf_eq_ok, State.db]
  constructor
  · rintro ⟨_, h, h'⟩
    exact ⟨checkSrcRange_ok_iff.1 h, by omega⟩
  · exact fun h => ⟨(), checkSrcRange_ok_iff.2 h.1, by omega⟩

theorem checkOverlap_ok_iff {s : State} {sh : Shape} {od : Nat} :
    checkOverlap s sh od = .ok () ↔
      s.dstBase.toNat + sh.n * od ≤ s.srcBase.toNat ∨ s.srcBase.toNat + sh.l ≤ s.dstBase.toNat := by
  rw [checkOverlap, raiseIf_eq_ok, State.sb, State.db]
  omega

/-- Both region checks pass exactly when source and destination are legal. -/
theorem regions_ok_iff {s : State} {d : Nat} {mono : Bool} (h : ShapeOk s d) :
    (checkRange s (shapeOf s d) (outDepth mono) = .ok () ∧ checkOverlap s (shapeOf s d) (outDepth mono) = .ok ()) ↔
      SourceOk s d ∧ DestOk s mono := by
  rw [checkRange_ok_iff, checkOverlap_ok_iff]
  constructor
  · rintro ⟨⟨h1, h2⟩, h3⟩
    exact ⟨⟨h.1, h.2, h.3, h.4, h1⟩, ⟨h2, h3⟩⟩
  · rintro ⟨h1, h2⟩
    exact ⟨⟨h1.fits, h2.fits⟩, h2.apart⟩

/-! Packing. -/

/-- Every cell that `pack` writes is one of the pixel's own bytes. -/
theorem mem_pack {s : State} {mono : Bool} {p : Nat} {px : Pixel} {c : Host.Cell} (h : c ∈ pack s mono p px) :
    s.dstBase.toNat + p * outDepth mono ≤ c.1 ∧ c.1 < s.dstBase.toNat + p * outDepth mono + outDepth mono := by
  cases mono <;> simp only [pack, dstAddr, State.db, Bool.false_eq_true, if_true, if_false, outDepth_true,
    outDepth_false, List.mem_cons, List.not_mem_nil, or_false] at h ⊢
  · rcases h with rfl | rfl | rfl | rfl <;> dsimp only <;> omega
  · subst h
    dsimp only
    omega

theorem mem_bufferEffect {s : State} {sh : Shape} {mono : Bool} {pixel : Nat → Pixel} {c : Host.Cell} :
    c ∈ (bufferEffect s sh mono pixel).fmWrites ↔ ∃ p, p < sh.n ∧ c ∈ pack s mono p (pixel p) := by
  simp only [bufferEffect, List.mem_flatMap, List.mem_range]

/-- A buffer command writes no byte outside its destination region (R88, R140). -/
theorem bufferEffect_bounds {s : State} {sh : Shape} {mono : Bool} {pixel : Nat → Pixel} {c : Host.Cell}
    (h : c ∈ (bufferEffect s sh mono pixel).fmWrites) :
    s.dstBase.toNat ≤ c.1 ∧ c.1 < s.dstBase.toNat + sh.n * outDepth mono := by
  obtain ⟨p, hp, hc⟩ := mem_bufferEffect.1 h
  have hb := mem_pack hc
  have : (p + 1) * outDepth mono ≤ sh.n * outDepth mono := Nat.mul_le_mul_right _ hp
  rw [Nat.add_mul] at this
  omega

/-- Every byte of the destination region is written (R140). -/
theorem bufferEffect_covers {s : State} {sh : Shape} {mono : Bool} {pixel : Nat → Pixel} {a : Nat}
    (h : s.dstBase.toNat ≤ a ∧ a < s.dstBase.toNat + sh.n * outDepth mono) :
    ∃ c ∈ (bufferEffect s sh mono pixel).fmWrites, c.1 = a := by
  have hp : (a - s.dstBase.toNat) / outDepth mono < sh.n := by
    rw [Nat.div_lt_iff_lt_mul (outDepth_pos mono)]
    omega
  simp only [mem_bufferEffect]
  cases mono with
  | true =>
    simp only [outDepth_true, Nat.div_one] at hp
    refine ⟨(a, (pixel (a - s.dstBase.toNat)).colour s.cfg.monoPick), ⟨_, hp, ?_⟩, rfl⟩
    simp only [pack, if_true, dstAddr, State.db, List.mem_singleton]
    congr 1
    omega
  | false =>
    simp only [outDepth_false] at hp
    have hm : (a - s.dstBase.toNat) % 4 = 0 ∨ (a - s.dstBase.toNat) % 4 = 1 ∨ (a - s.dstBase.toNat) % 4 = 2 ∨
        (a - s.dstBase.toNat) % 4 = 3 := by omega
    rcases hm with hm | hm | hm | hm
    · exact ⟨(dstAddr s 4 _ 0, _), ⟨_, hp, by simp only [pack]; exact .head _⟩, by simp only [dstAddr, State.db]; omega⟩
    · exact ⟨(dstAddr s 4 _ 1, _), ⟨_, hp, by simp only [pack]; exact .tail _ (.head _)⟩,
        by simp only [dstAddr, State.db]; omega⟩
    · exact ⟨(dstAddr s 4 _ 2, _), ⟨_, hp, by simp only [pack]; exact .tail _ (.tail _ (.head _))⟩,
        by simp only [dstAddr, State.db]; omega⟩
    · exact ⟨(dstAddr s 4 _ 3, _), ⟨_, hp, by simp only [pack]; exact .tail _ (.tail _ (.tail _ (.head _)))⟩,
        by simp only [dstAddr, State.db]; omega⟩

theorem read_bufferEffect_outside {s : State} {sh : Shape} {mono : Bool} {pixel : Nat → Pixel} {a : Nat}
    (h : ¬ (s.dstBase.toNat ≤ a ∧ a < s.dstBase.toNat + sh.n * outDepth mono)) (m : Memory) :
    Memory.read (m.writeAll (bufferEffect s sh mono pixel).fmWrites) a = m.read a :=
  Memory.read_writeAll_other (fun c hc he => h (by rw [← he]; exact bufferEffect_bounds hc)) m

/-- A cell of `pack` fixes its byte: two cells at one address hold one value. -/
theorem pack_unique {s : State} {mono : Bool} {p : Nat} {px : Pixel} {c c' : Host.Cell} (h : c ∈ pack s mono p px)
    (h' : c' ∈ pack s mono p px) (he : c.1 = c'.1) : c.2 = c'.2 := by
  cases mono <;> simp only [pack, dstAddr, Bool.false_eq_true, if_true, if_false, List.mem_cons, List.not_mem_nil,
    or_false] at h h'
  · rcases h with rfl | rfl | rfl | rfl <;> rcases h' with rfl | rfl | rfl | rfl <;> dsimp only at he ⊢ <;> omega
  · rw [h, h']

/-- Every cell of a pixel stands in memory afterwards (R140: each destination byte is written exactly once). -/
theorem read_bufferEffect {s : State} {sh : Shape} {mono : Bool} {pixel : Nat → Pixel} {p : Nat} {c : Host.Cell}
    (hp : p < sh.n) (hc : c ∈ pack s mono p (pixel p)) {m : Memory} (hm : m.wf = true) :
    Memory.read (m.writeAll (bufferEffect s sh mono pixel).fmWrites) c.1 = c.2 := by
  refine Memory.read_writeAll_eq (fun c' hc' he => ?_) ⟨c, mem_bufferEffect.2 ⟨p, hp, hc⟩, rfl⟩ hm
  obtain ⟨p', hp', hc'⟩ := mem_bufferEffect.1 hc'
  have hb := mem_pack hc
  have hb' := mem_pack hc'
  have hpp : p' = p := by
    rcases Nat.lt_trichotomy p' p with hlt | heq | hgt
    · have : (p' + 1) * outDepth mono ≤ p * outDepth mono := Nat.mul_le_mul_right _ hlt
      rw [Nat.add_mul] at this
      omega
    · exact heq
    · have : (p + 1) * outDepth mono ≤ p' * outDepth mono := Nat.mul_le_mul_right _ hgt
      rw [Nat.add_mul] at this
      omega
  subst hpp
  exact pack_unique hc' hc he

/-- The destination bytes of a pixel after a buffer command are the pixel, as R138 packs it. -/
theorem packedAs_of_fm {s t : State} {sh : Shape} {mono : Bool} {pixel : Nat → Pixel} {p : Nat} (hp : p < sh.n)
    (hm : s.fm.wf = true) (ht : t.fm = s.fm.writeAll (bufferEffect s sh mono pixel).fmWrites) :
    packedAs s t mono p (pixel p) := by
  have key := fun c hc => read_bufferEffect (s := s) (sh := sh) (mono := mono) (pixel := pixel) (p := p) (c := c) hp hc hm
  rw [← ht] at key
  cases mono <;> simp only [packedAs, pack, dstAddr, State.db, Bool.false_eq_true, if_true, if_false, List.mem_cons,
    List.not_mem_nil, or_false, forall_eq_or_imp, forall_eq, Nat.add_zero, Nat.mul_one] at key ⊢
  · exact key
  · exact key

theorem bufferEffect_length (s : State) (sh : Shape) (mono : Bool) (pixel : Nat → Pixel) :
    (bufferEffect s sh mono pixel).fmWrites.length = sh.n * outDepth mono := by
  have : ∀ p px, (pack s mono p px).length = outDepth mono := by
    intro p px
    cases mono <;> rfl
  simp [bufferEffect, List.length_flatMap, this]

/-- `src(p, c)` of pixel `(x, y)` is the byte at `SA(x, y, c)` (R14, R72). -/
theorem src_eq {s : State} {d x y c : Nat} :
    src s (shapeOf s d) (y * s.width.toNat + x) c = sourceByte s d x y c := rfl

/-- The pixel index of column `x` and row `y`. -/
theorem pixel_lt {s : State} {x y : Nat} (hx : x < s.width.toNat) (hy : y < s.height.toNat) :
    y * s.width.toNat + x < s.pixels := by
  have : (y + 1) * s.width.toNat ≤ s.height.toNat * s.width.toNat := Nat.mul_le_mul_right _ hy
  rw [Nat.add_mul] at this
  rw [State.pixels, Nat.mul_comm s.width.toNat]
  omega

end Sys2Proof.Machine
end

