-- ==== Sys2Proof/Laws/State.lean ====
section
/-! SUPPORT. What each shared update of the state leaves in each field, so that no later proof unfolds an update. -/

namespace Sys2Proof.Machine

/-! After the accept step (R130). -/

@[simp] theorem accept_cfg (w : Word) (s : State) : (accept w s).cfg = s.cfg := rfl
@[simp] theorem accept_status (w : Word) (s : State) : (accept w s).status = statusBusy := rfl
@[simp] theorem accept_errcode (w : Word) (s : State) : (accept w s).errcode = 0#4 := rfl
@[simp] theorem accept_lastcmd (w : Word) (s : State) : (accept w s).lastcmd = w := rfl
@[simp] theorem accept_irqen (w : Word) (s : State) : (accept w s).irqen = s.irqen := rfl
@[simp] theorem accept_irqst (w : Word) (s : State) : (accept w s).irqst = s.irqst := rfl
@[simp] theorem accept_srcBase (w : Word) (s : State) : (accept w s).srcBase = s.srcBase := rfl
@[simp] theorem accept_srcLen (w : Word) (s : State) : (accept w s).srcLen = s.srcLen := rfl
@[simp] theorem accept_dstBase (w : Word) (s : State) : (accept w s).dstBase = s.dstBase := rfl
@[simp] theorem accept_dstLen (w : Word) (s : State) : (accept w s).dstLen = s.dstLen := rfl
@[simp] theorem accept_width (w : Word) (s : State) : (accept w s).width = s.width := rfl
@[simp] theorem accept_height (w : Word) (s : State) : (accept w s).height = s.height := rfl
@[simp] theorem accept_kradius (w : Word) (s : State) : (accept w s).kradius = s.kradius := rfl
@[simp] theorem accept_klen (w : Word) (s : State) : (accept w s).klen = s.klen := rfl
@[simp] theorem accept_divNum (w : Word) (s : State) : (accept w s).divNum = s.divNum := rfl
@[simp] theorem accept_divDen (w : Word) (s : State) : (accept w s).divDen = s.divDen := rfl
@[simp] theorem accept_lutParam (w : Word) (s : State) : (accept w s).lutParam = s.lutParam := rfl
@[simp] theorem accept_kw (w : Word) (s : State) : (accept w s).kw = s.kw := rfl
@[simp] theorem accept_lut (w : Word) (s : State) : (accept w s).lut = s.lut := rfl
@[simp] theorem accept_phase (w : Word) (s : State) : (accept w s).phase = .busy := rfl
@[simp] theorem accept_lb (w : Word) (s : State) : (accept w s).lb = s.lb := rfl
@[simp] theorem accept_fm (w : Word) (s : State) : (accept w s).fm = s.fm := rfl
@[simp] theorem accept_inputs (w : Word) (s : State) : (accept w s).inputs = s.inputs := rfl
@[simp] theorem accept_hostData (w : Word) (s : State) : (accept w s).hostData = s.hostData := rfl
@[simp] theorem accept_disturbed (w : Word) (s : State) : (accept w s).disturbed = false := rfl
@[simp] theorem accept_freeCount (w : Word) (s : State) : (accept w s).freeCount = s.freeCount := rfl

/-! After a complete step without error (R131). -/

@[simp] theorem completeOk_cfg (e : Effect) (s : State) : (completeOk e s).cfg = s.cfg := rfl
@[simp] theorem completeOk_status (e : Effect) (s : State) : (completeOk e s).status = statusDone := rfl
@[simp] theorem completeOk_errcode (e : Effect) (s : State) : (completeOk e s).errcode = 0#4 := rfl
@[simp] theorem completeOk_lastcmd (e : Effect) (s : State) : (completeOk e s).lastcmd = s.lastcmd := rfl
@[simp] theorem completeOk_irqen (e : Effect) (s : State) : (completeOk e s).irqen = s.irqen := rfl
@[simp] theorem completeOk_irqst (e : Effect) (s : State) : (completeOk e s).irqst = s.irqst ||| irqDone := rfl
@[simp] theorem completeOk_srcBase (e : Effect) (s : State) : (completeOk e s).srcBase = s.srcBase := rfl
@[simp] theorem completeOk_srcLen (e : Effect) (s : State) : (completeOk e s).srcLen = s.srcLen := rfl
@[simp] theorem completeOk_dstBase (e : Effect) (s : State) : (completeOk e s).dstBase = s.dstBase := rfl
@[simp] theorem completeOk_dstLen (e : Effect) (s : State) : (completeOk e s).dstLen = BitVec.ofNat 32 e.outLen := rfl
@[simp] theorem completeOk_width (e : Effect) (s : State) : (completeOk e s).width = s.width := rfl
@[simp] theorem completeOk_height (e : Effect) (s : State) : (completeOk e s).height = s.height := rfl
@[simp] theorem completeOk_kradius (e : Effect) (s : State) : (completeOk e s).kradius = s.kradius := rfl
@[simp] theorem completeOk_klen (e : Effect) (s : State) : (completeOk e s).klen = s.klen := rfl
@[simp] theorem completeOk_divNum (e : Effect) (s : State) : (completeOk e s).divNum = s.divNum := rfl
@[simp] theorem completeOk_divDen (e : Effect) (s : State) : (completeOk e s).divDen = s.divDen := rfl
@[simp] theorem completeOk_lutParam (e : Effect) (s : State) : (completeOk e s).lutParam = s.lutParam := rfl
@[simp] theorem completeOk_kw (e : Effect) (s : State) : (completeOk e s).kw = s.kw := rfl
@[simp] theorem completeOk_lut (e : Effect) (s : State) : (completeOk e s).lut = e.lut.getD s.lut := rfl
@[simp] theorem completeOk_phase (e : Effect) (s : State) : (completeOk e s).phase = .idle := rfl
@[simp] theorem completeOk_lb (e : Effect) (s : State) : (completeOk e s).lb = e.lb.getD s.lb := rfl
@[simp] theorem completeOk_fm (e : Effect) (s : State) : (completeOk e s).fm = s.fm.writeAll e.fmWrites := rfl
@[simp] theorem completeOk_inputs (e : Effect) (s : State) : (completeOk e s).inputs = s.inputs := rfl
@[simp] theorem completeOk_hostData (e : Effect) (s : State) : (completeOk e s).hostData = s.hostData := rfl
@[simp] theorem completeOk_disturbed (e : Effect) (s : State) : (completeOk e s).disturbed = s.disturbed := rfl
@[simp] theorem completeOk_freeCount (e : Effect) (s : State) : (completeOk e s).freeCount = s.freeCount := rfl

/-! After a complete step with an error (R290). -/

@[simp] theorem completeErr_cfg (k : ErrKind) (s : State) : (completeErr k s).cfg = s.cfg := rfl
@[simp] theorem completeErr_status (k : ErrKind) (s : State) : (completeErr k s).status = statusFailed := rfl
@[simp] theorem completeErr_errcode (k : ErrKind) (s : State) : (completeErr k s).errcode = k.code := rfl
@[simp] theorem completeErr_lastcmd (k : ErrKind) (s : State) : (completeErr k s).lastcmd = s.lastcmd := rfl
@[simp] theorem completeErr_irqen (k : ErrKind) (s : State) : (completeErr k s).irqen = s.irqen := rfl
@[simp] theorem completeErr_irqst (k : ErrKind) (s : State) : (completeErr k s).irqst = s.irqst ||| (irqDone ||| irqErr) := rfl
@[simp] theorem completeErr_srcBase (k : ErrKind) (s : State) : (completeErr k s).srcBase = s.srcBase := rfl
@[simp] theorem completeErr_srcLen (k : ErrKind) (s : State) : (completeErr k s).srcLen = s.srcLen := rfl
@[simp] theorem completeErr_dstBase (k : ErrKind) (s : State) : (completeErr k s).dstBase = s.dstBase := rfl
@[simp] theorem completeErr_dstLen (k : ErrKind) (s : State) : (completeErr k s).dstLen = 0#32 := rfl
@[simp] theorem completeErr_width (k : ErrKind) (s : State) : (completeErr k s).width = s.width := rfl
@[simp] theorem completeErr_height (k : ErrKind) (s : State) : (completeErr k s).height = s.height := rfl
@[simp] theorem completeErr_kradius (k : ErrKind) (s : State) : (completeErr k s).kradius = s.kradius := rfl
@[simp] theorem completeErr_klen (k : ErrKind) (s : State) : (completeErr k s).klen = s.klen := rfl
@[simp] theorem completeErr_divNum (k : ErrKind) (s : State) : (completeErr k s).divNum = s.divNum := rfl
@[simp] theorem completeErr_divDen (k : ErrKind) (s : State) : (completeErr k s).divDen = s.divDen := rfl
@[simp] theorem completeErr_lutParam (k : ErrKind) (s : State) : (completeErr k s).lutParam = s.lutParam := rfl
@[simp] theorem completeErr_kw (k : ErrKind) (s : State) : (completeErr k s).kw = s.kw := rfl
@[simp] theorem completeErr_lut (k : ErrKind) (s : State) : (completeErr k s).lut = s.lut := rfl
@[simp] theorem completeErr_phase (k : ErrKind) (s : State) : (completeErr k s).phase = .idle := rfl
@[simp] theorem completeErr_lb (k : ErrKind) (s : State) : (completeErr k s).lb = s.lb := rfl
@[simp] theorem completeErr_fm (k : ErrKind) (s : State) : (completeErr k s).fm = s.fm := rfl
@[simp] theorem completeErr_inputs (k : ErrKind) (s : State) : (completeErr k s).inputs = s.inputs := rfl
@[simp] theorem completeErr_hostData (k : ErrKind) (s : State) : (completeErr k s).hostData = s.hostData := rfl
@[simp] theorem completeErr_disturbed (k : ErrKind) (s : State) : (completeErr k s).disturbed = s.disturbed := rfl
@[simp] theorem completeErr_freeCount (k : ErrKind) (s : State) : (completeErr k s).freeCount = s.freeCount := rfl

/-! After a discarded write (R44). -/

@[simp] theorem overrun_cfg (s : State) : (overrun s).cfg = s.cfg := rfl
@[simp] theorem overrun_status (s : State) : (overrun s).status = s.status := rfl
@[simp] theorem overrun_errcode (s : State) : (overrun s).errcode = s.errcode := rfl
@[simp] theorem overrun_lastcmd (s : State) : (overrun s).lastcmd = s.lastcmd := rfl
@[simp] theorem overrun_irqen (s : State) : (overrun s).irqen = s.irqen := rfl
@[simp] theorem overrun_irqst (s : State) : (overrun s).irqst = s.irqst ||| irqOvr := rfl
@[simp] theorem overrun_srcBase (s : State) : (overrun s).srcBase = s.srcBase := rfl
@[simp] theorem overrun_srcLen (s : State) : (overrun s).srcLen = s.srcLen := rfl
@[simp] theorem overrun_dstBase (s : State) : (overrun s).dstBase = s.dstBase := rfl
@[simp] theorem overrun_dstLen (s : State) : (overrun s).dstLen = s.dstLen := rfl
@[simp] theorem overrun_width (s : State) : (overrun s).width = s.width := rfl
@[simp] theorem overrun_height (s : State) : (overrun s).height = s.height := rfl
@[simp] theorem overrun_kradius (s : State) : (overrun s).kradius = s.kradius := rfl
@[simp] theorem overrun_klen (s : State) : (overrun s).klen = s.klen := rfl
@[simp] theorem overrun_divNum (s : State) : (overrun s).divNum = s.divNum := rfl
@[simp] theorem overrun_divDen (s : State) : (overrun s).divDen = s.divDen := rfl
@[simp] theorem overrun_lutParam (s : State) : (overrun s).lutParam = s.lutParam := rfl
@[simp] theorem overrun_kw (s : State) : (overrun s).kw = s.kw := rfl
@[simp] theorem overrun_lut (s : State) : (overrun s).lut = s.lut := rfl
@[simp] theorem overrun_phase (s : State) : (overrun s).phase = s.phase := rfl
@[simp] theorem overrun_lb (s : State) : (overrun s).lb = s.lb := rfl
@[simp] theorem overrun_fm (s : State) : (overrun s).fm = s.fm := rfl
@[simp] theorem overrun_inputs (s : State) : (overrun s).inputs = s.inputs := rfl
@[simp] theorem overrun_hostData (s : State) : (overrun s).hostData = s.hostData := rfl
@[simp] theorem overrun_disturbed (s : State) : (overrun s).disturbed = s.disturbed := rfl
@[simp] theorem overrun_freeCount (s : State) : (overrun s).freeCount = s.freeCount := rfl

/-! After a disturbed completion (R84). -/

@[simp] theorem scramble_cfg (s t : State) : (scramble s t).cfg = t.cfg := rfl
@[simp] theorem scramble_status (s t : State) : (scramble s t).status = t.status := rfl
@[simp] theorem scramble_errcode (s t : State) : (scramble s t).errcode = t.errcode := rfl
@[simp] theorem scramble_lastcmd (s t : State) : (scramble s t).lastcmd = t.lastcmd := rfl
@[simp] theorem scramble_irqen (s t : State) : (scramble s t).irqen = t.irqen := rfl
@[simp] theorem scramble_irqst (s t : State) : (scramble s t).irqst = t.irqst := rfl
@[simp] theorem scramble_srcBase (s t : State) : (scramble s t).srcBase = t.srcBase := rfl
@[simp] theorem scramble_srcLen (s t : State) : (scramble s t).srcLen = t.srcLen := rfl
@[simp] theorem scramble_dstBase (s t : State) : (scramble s t).dstBase = t.dstBase := rfl
@[simp] theorem scramble_dstLen (s t : State) : (scramble s t).dstLen = t.dstLen := rfl
@[simp] theorem scramble_width (s t : State) : (scramble s t).width = t.width := rfl
@[simp] theorem scramble_height (s t : State) : (scramble s t).height = t.height := rfl
@[simp] theorem scramble_kradius (s t : State) : (scramble s t).kradius = t.kradius := rfl
@[simp] theorem scramble_klen (s t : State) : (scramble s t).klen = t.klen := rfl
@[simp] theorem scramble_divNum (s t : State) : (scramble s t).divNum = t.divNum := rfl
@[simp] theorem scramble_divDen (s t : State) : (scramble s t).divDen = t.divDen := rfl
@[simp] theorem scramble_lutParam (s t : State) : (scramble s t).lutParam = t.lutParam := rfl
@[simp] theorem scramble_kw (s t : State) : (scramble s t).kw = t.kw := rfl
@[simp] theorem scramble_lut (s t : State) : (scramble s t).lut = t.lut := rfl
@[simp] theorem scramble_phase (s t : State) : (scramble s t).phase = t.phase := rfl
@[simp] theorem scramble_lb (s t : State) : (scramble s t).lb = t.lb := rfl
@[simp] theorem scramble_fm (s t : State) : (scramble s t).fm = t.fm.writeAll (freeCells s.freeCount s.db t.dstLen.toNat) := rfl
@[simp] theorem scramble_inputs (s t : State) : (scramble s t).inputs = t.inputs := rfl
@[simp] theorem scramble_hostData (s t : State) : (scramble s t).hostData = t.hostData := rfl
@[simp] theorem scramble_disturbed (s t : State) : (scramble s t).disturbed = false := rfl
@[simp] theorem scramble_freeCount (s t : State) : (scramble s t).freeCount = s.freeCount + 1 := rfl

/-! After placing a command word. -/

@[simp] theorem fetchState_cfg (s : State) (w : Word) : (fetchState s w).cfg = s.cfg := rfl
@[simp] theorem fetchState_status (s : State) (w : Word) : (fetchState s w).status = statusBusy := rfl
@[simp] theorem fetchState_errcode (s : State) (w : Word) : (fetchState s w).errcode = 0#4 := rfl
@[simp] theorem fetchState_lastcmd (s : State) (w : Word) : (fetchState s w).lastcmd = w := rfl
@[simp] theorem fetchState_irqen (s : State) (w : Word) : (fetchState s w).irqen = s.irqen := rfl
@[simp] theorem fetchState_irqst (s : State) (w : Word) : (fetchState s w).irqst = s.irqst := rfl
@[simp] theorem fetchState_srcBase (s : State) (w : Word) : (fetchState s w).srcBase = s.srcBase := rfl
@[simp] theorem fetchState_srcLen (s : State) (w : Word) : (fetchState s w).srcLen = s.srcLen := rfl
@[simp] theorem fetchState_dstBase (s : State) (w : Word) : (fetchState s w).dstBase = s.dstBase := rfl
@[simp] theorem fetchState_dstLen (s : State) (w : Word) : (fetchState s w).dstLen = s.dstLen := rfl
@[simp] theorem fetchState_width (s : State) (w : Word) : (fetchState s w).width = s.width := rfl
@[simp] theorem fetchState_height (s : State) (w : Word) : (fetchState s w).height = s.height := rfl
@[simp] theorem fetchState_kradius (s : State) (w : Word) : (fetchState s w).kradius = s.kradius := rfl
@[simp] theorem fetchState_klen (s : State) (w : Word) : (fetchState s w).klen = s.klen := rfl
@[simp] theorem fetchState_divNum (s : State) (w : Word) : (fetchState s w).divNum = s.divNum := rfl
@[simp] theorem fetchState_divDen (s : State) (w : Word) : (fetchState s w).divDen = s.divDen := rfl
@[simp] theorem fetchState_lutParam (s : State) (w : Word) : (fetchState s w).lutParam = s.lutParam := rfl
@[simp] theorem fetchState_kw (s : State) (w : Word) : (fetchState s w).kw = s.kw := rfl
@[simp] theorem fetchState_lut (s : State) (w : Word) : (fetchState s w).lut = s.lut := rfl
@[simp] theorem fetchState_phase (s : State) (w : Word) : (fetchState s w).phase = .busy := rfl
@[simp] theorem fetchState_lb (s : State) (w : Word) : (fetchState s w).lb = s.lb := rfl
@[simp] theorem fetchState_fm (s : State) (w : Word) : (fetchState s w).fm = s.fm := rfl
@[simp] theorem fetchState_inputs (s : State) (w : Word) : (fetchState s w).inputs = .engine :: s.inputs := rfl
@[simp] theorem fetchState_hostData (s : State) (w : Word) : (fetchState s w).hostData = s.hostData := rfl
@[simp] theorem fetchState_disturbed (s : State) (w : Word) : (fetchState s w).disturbed = false := rfl
@[simp] theorem fetchState_freeCount (s : State) (w : Word) : (fetchState s w).freeCount = s.freeCount := rfl

/-! After reset (R320). -/

@[simp] theorem resetMove_cfg (s : State) : (resetMove s).cfg = s.cfg := rfl
@[simp] theorem resetMove_status (s : State) : (resetMove s).status = 0#3 := rfl
@[simp] theorem resetMove_errcode (s : State) : (resetMove s).errcode = 0#4 := rfl
@[simp] theorem resetMove_lastcmd (s : State) : (resetMove s).lastcmd = 0#32 := rfl
@[simp] theorem resetMove_irqen (s : State) : (resetMove s).irqen = 0#3 := rfl
@[simp] theorem resetMove_irqst (s : State) : (resetMove s).irqst = 0#3 := rfl
@[simp] theorem resetMove_srcBase (s : State) : (resetMove s).srcBase = 0#32 := rfl
@[simp] theorem resetMove_srcLen (s : State) : (resetMove s).srcLen = 0#32 := rfl
@[simp] theorem resetMove_dstBase (s : State) : (resetMove s).dstBase = 0#32 := rfl
@[simp] theorem resetMove_dstLen (s : State) : (resetMove s).dstLen = 0#32 := rfl
@[simp] theorem resetMove_width (s : State) : (resetMove s).width = 0#32 := rfl
@[simp] theorem resetMove_height (s : State) : (resetMove s).height = 0#32 := rfl
@[simp] theorem resetMove_kradius (s : State) : (resetMove s).kradius = 0#32 := rfl
@[simp] theorem resetMove_klen (s : State) : (resetMove s).klen = 0#32 := rfl
@[simp] theorem resetMove_divNum (s : State) : (resetMove s).divNum = 1#32 := rfl
@[simp] theorem resetMove_divDen (s : State) : (resetMove s).divDen = 1#32 := rfl
@[simp] theorem resetMove_lutParam (s : State) : (resetMove s).lutParam = 0#32 := rfl
@[simp] theorem resetMove_kw (s : State) : (resetMove s).kw = s.kw := rfl
@[simp] theorem resetMove_lut (s : State) : (resetMove s).lut = landedTables s := rfl
@[simp] theorem resetMove_phase (s : State) : (resetMove s).phase = .idle := rfl
@[simp] theorem resetMove_lb (s : State) : (resetMove s).lb = LineBuffer.invalidate s.lb := rfl
@[simp] theorem resetMove_fm (s : State) : (resetMove s).fm = s.fm.writeAll (landedCells s) := rfl
@[simp] theorem resetMove_inputs (s : State) : (resetMove s).inputs = s.inputs := rfl
@[simp] theorem resetMove_hostData (s : State) : (resetMove s).hostData = s.hostData := rfl
@[simp] theorem resetMove_disturbed (s : State) : (resetMove s).disturbed = false := rfl
@[simp] theorem resetMove_freeCount (s : State) : (resetMove s).freeCount = s.freeCount + 1 := rfl

end Sys2Proof.Machine
end

