-- ==== Sys2Proof/Laws/Exec.lean ====
section
/-! SUPPORT. What a complete step can do (R131): `exec` is `complete` on the command's effect, and each effect succeeds
exactly under its command's conditions. -/

namespace Sys2Proof.Machine

/-- The meaning of every command is the complete step on its effect (R131, R132). -/
theorem exec_eq (i : Instr) (s : State) : exec i s = .next (complete (commandEffect i s) s) := by
  cases i <;> rfl

theorem exec_next_iff {i : Instr} {s t : State} : exec i s = .next t ↔ t = complete (commandEffect i s) s := by
  rw [exec_eq]
  exact ⟨fun h => (Host.Outcome.next.inj h).symm, fun h => h ▸ rfl⟩

/-- A complete step has one of two ends. -/
theorem exec_cases {i : Instr} {s t : State} (h : exec i s = .next t) :
    (∃ e, commandEffect i s = .ok e ∧ t = completeOk e s) ∨
      ∃ k, commandEffect i s = .error k ∧ t = completeErr k s := by
  rw [exec_next_iff] at h
  cases hc : commandEffect i s with
  | ok e => exact .inl ⟨e, rfl, by rw [h, hc]; rfl⟩
  | error k => exact .inr ⟨k, rfl, by rw [h, hc]; rfl⟩

theorem exec_ok {i : Instr} {s : State} {e : Effect} (h : commandEffect i s = .ok e) :
    exec i s = .next (completeOk e s) := by
  rw [exec_eq, h]
  rfl

theorem exec_error {i : Instr} {s : State} {k : ErrKind} (h : commandEffect i s = .error k) :
    exec i s = .next (completeErr k s) := by
  rw [exec_eq, h]
  rfl

theorem code_ne_zero (k : ErrKind) : k.code ≠ 0#4 := by cases k <;> decide

/-- Two error kinds with one code are one kind (R280). -/
theorem code_injective {k k' : ErrKind} (h : k.code = k'.code) : k = k' := by
  cases k <;> cases k' <;> first | rfl | exact absurd h (by decide)

/-- The state after an error is `failed` (R290). -/
theorem completeErr_eq (k : ErrKind) (s : State) : completeErr k s = failed s k.code := rfl

/-- The state after a success is `passed` with the writes of the effect (R131). -/
theorem completeOk_eq (e : Effect) (s : State) :
    completeOk e s = { passed s e.outLen with
      fm := s.fm.writeAll e.fmWrites, lut := e.lut.getD s.lut, lb := e.lb.getD s.lb } := rfl

/-! The effects that succeed. -/

theorem grayEffect_ok_iff {lum : Byte → Byte → Byte → Byte} {bad mono : Bool} {s : State} {e : Effect} :
    grayEffect lum bad mono s = .ok e ↔
      SourceOk s 4 ∧ bad = false ∧ DestOk s mono ∧
        e = bufferEffect s (shapeOf s 4) mono fun p =>
          let v := lum (src s (shapeOf s 4) p 0) (src s (shapeOf s 4) p 1) (src s (shapeOf s 4) p 2)
          ⟨v, v, v, src s (shapeOf s 4) p 3⟩ := by
  rw [grayEffect]
  simp only [bind_eq_ok, shape_ok_iff]
  constructor
  · rintro ⟨_, ⟨d, hd, rfl⟩, _, h1, _, h2, _, h3, _, h4, h5⟩
    rw [raiseIf_eq_ok] at h1 h2
    obtain rfl : d = 4 := not_not.1 h1
    obtain ⟨hs, ht⟩ := (regions_ok_iff hd).1 ⟨h3, h4⟩
    exact ⟨hs, Bool.eq_false_iff.2 h2, ht, (Except.ok.inj h5).symm⟩
  · rintro ⟨hs, rfl, ht, rfl⟩
    obtain ⟨h3, h4⟩ := (regions_ok_iff hs.shapeOk).2 ⟨hs, ht⟩
    exact ⟨_, ⟨4, hs.shapeOk, rfl⟩, (), rfl, (), rfl, (), h3, (), h4, rfl⟩

theorem applyEffect_ok_iff {mono : Bool} {s : State} {e : Effect} :
    applyEffect mono s = .ok e ↔
      ∃ d, SourceOk s d ∧ DestOk s mono ∧
        e = bufferEffect s (shapeOf s d) mono fun p =>
          let px := fetchPixel s (shapeOf s d) p
          ⟨remap s 0 px.c0, remap s 1 px.c1, remap s 2 px.c2, px.a⟩ := by
  rw [applyEffect]
  simp only [bind_eq_ok, shape_ok_iff]
  constructor
  · rintro ⟨_, ⟨d, hd, rfl⟩, _, h3, _, h4, h5⟩
    obtain ⟨hs, ht⟩ := (regions_ok_iff hd).1 ⟨h3, h4⟩
    exact ⟨d, hs, ht, (Except.ok.inj h5).symm⟩
  · rintro ⟨d, hs, ht, rfl⟩
    obtain ⟨h3, h4⟩ := (regions_ok_iff hs.shapeOk).2 ⟨hs, ht⟩
    exact ⟨_, ⟨d, hs.shapeOk, rfl⟩, (), h3, (), h4, rfl⟩

theorem checkKernel_ok_iff {med : Bool} {s : State} {d r : Nat} :
    checkKernel med s (shapeOf s d) = .ok r ↔ KernelOk s med ∧ r = s.kradius.toNat := by
  rw [checkKernel]
  simp only [bind_eq_ok]
  constructor
  · rintro ⟨_, h1, _, h2, _, h3, _, h4, _, h5, h6⟩
    rw [raiseIf_eq_ok] at h1 h2 h3 h4 h5
    simp only [State.radius, State.nWeights, State.num, State.den, shapeOf] at h1 h2 h3 h4 h5 h6
    exact ⟨⟨by tauto, by omega, by tauto, by tauto, by tauto, by tauto, by omega⟩, (Except.ok.inj h6).symm⟩
  · rintro ⟨h, rfl⟩
    have hc := h.count
    refine ⟨(), ?_, (), ?_, (), ?_, (), ?_, (), ?_, rfl⟩ <;> rw [raiseIf_eq_ok]
    · exact not_or.2 ⟨h.supplied, h.radius⟩
    · exact not_or.2 ⟨h.num, h.den⟩
    · exact not_lt.2 h.radiusMax
    · rintro ⟨h1, h2⟩
      exact h2 (hc h1)
    · exact not_lt.2 h.line

theorem convEffect_ok_iff {mono med : Bool} {s : State} {e : Effect} :
    convEffect mono med s = .ok e ↔
      ∃ d, SourceOk s d ∧ DestOk s mono ∧ KernelOk s med ∧
        e = { bufferEffect s (shapeOf s d) mono (convPixel med s (shapeOf s d) s.kradius.toNat) with
          lb := some (fetchAll s (shapeOf s d)) } := by
  rw [convEffect]
  simp only [bind_eq_ok, shape_ok_iff]
  constructor
  · rintro ⟨_, ⟨d, hd, rfl⟩, r, h2, _, h3, _, h4, h5⟩
    obtain ⟨hk, rfl⟩ := checkKernel_ok_iff.1 h2
    obtain ⟨hs, ht⟩ := (regions_ok_iff hd).1 ⟨h3, h4⟩
    exact ⟨d, hs, ht, hk, (Except.ok.inj h5).symm⟩
  · rintro ⟨d, hs, ht, hk, rfl⟩
    obtain ⟨h3, h4⟩ := (regions_ok_iff hs.shapeOk).2 ⟨hs, ht⟩
    exact ⟨_, ⟨d, hs.shapeOk, rfl⟩, _, checkKernel_ok_iff.2 ⟨hk, rfl⟩, (), h3, (), h4, rfl⟩

theorem validEffect_ok_iff {s : State} {e : Effect} :
    validEffect s = .ok e ↔ (∃ d, SourceOk s d) ∧ e = ⟨[], none, 0, none⟩ := by
  rw [validEffect]
  simp only [bind_eq_ok, shape_ok_iff]
  constructor
  · rintro ⟨_, ⟨d, hd, rfl⟩, _, h3, h5⟩
    exact ⟨⟨d, hd.1, hd.2, hd.3, hd.4, checkSrcRange_ok_iff.1 h3⟩, (Except.ok.inj h5).symm⟩
  · rintro ⟨⟨d, hs⟩, rfl⟩
    exact ⟨_, ⟨d, hs.shapeOk, rfl⟩, (), checkSrcRange_ok_iff.2 hs.fits, rfl⟩

theorem posterizeEffect_ok_iff {s : State} {e : Effect} :
    posterizeEffect s = .ok e ↔
      2 ≤ s.lutParam.toNat ∧ e = buildEffect (sameTables (posterizeEntry s.cfg.round s.lutParam.toNat)) := by
  rw [posterizeEffect]
  simp only [bind_eq_ok]
  constructor
  · rintro ⟨_, h1, h2⟩
    rw [raiseIf_eq_ok] at h1
    exact ⟨not_lt.1 h1, (Except.ok.inj h2).symm⟩
  · rintro ⟨h, rfl⟩
    exact ⟨(), (raiseIf_eq_ok _ _).2 (not_lt.2 h), rfl⟩

/-- The depth of a source is fixed by its length. -/
theorem SourceOk.depth_unique {s : State} {d d' : Nat} (h : SourceOk s d) (h' : SourceOk s d') : d = d' :=
  Nat.eq_of_mul_eq_mul_left h.shapeOk.pixels_pos (h.length.symm.trans h'.length)

/-- What a successful effect can be: a buffer command's, with its regions legal, or one without a destination. -/
theorem effect_cases {i : Instr} {s : State} {e : Effect} (h : commandEffect i s = .ok e) :
    (∃ d mono pixel, SourceOk s d ∧ DestOk s mono ∧ i.depthOut = some (outDepth mono) ∧
        e.fmWrites = (bufferEffect s (shapeOf s d) mono pixel).fmWrites ∧ e.outLen = s.pixels * outDepth mono ∧
        e.lut = none ∧ (i.isConv = false → e.lb = none) ∧ i.isBuild = false ∧
        (i.isConv = true → e.lb = some (fetchAll s (shapeOf s d)))) ∨
      (i.depthOut = none ∧ e.fmWrites = [] ∧ e.outLen = 0 ∧ e.lb = none ∧ i.isConv = false ∧
        (e.lut.isSome = i.isBuild)) := by
  cases i <;> simp only [commandEffect, raiseEffect, reduceCtorEq] at h
  case nop => exact .inr (by obtain rfl := Except.ok.inj h; exact ⟨rfl, rfl, rfl, rfl, rfl, rfl⟩)
  case conv mono med =>
    obtain ⟨d, hs, ht, hk, rfl⟩ := convEffect_ok_iff.1 h
    exact .inl ⟨d, mono, _, hs, ht, rfl, rfl, rfl, rfl, fun h => Bool.noConfusion (show true = false from h), rfl, fun _ => rfl⟩
  case buildPosterize =>
    obtain ⟨_, rfl⟩ := posterizeEffect_ok_iff.1 h
    exact .inr ⟨rfl, rfl, rfl, rfl, rfl, rfl⟩
  case apply mono =>
    obtain ⟨d, hs, ht, rfl⟩ := applyEffect_ok_iff.1 h
    exact .inl ⟨d, mono, _, hs, ht, rfl, rfl, rfl, rfl, fun _ => rfl, rfl, fun h => nomatch h⟩
  case grayLuma mono =>
    obtain ⟨hs, _, ht, rfl⟩ := grayEffect_ok_iff.1 h
    exact .inl ⟨4, mono, _, hs, ht, rfl, rfl, rfl, rfl, fun _ => rfl, rfl, fun h => nomatch h⟩
  case grayAverage mono =>
    obtain ⟨hs, _, ht, rfl⟩ := grayEffect_ok_iff.1 h
    exact .inl ⟨4, mono, _, hs, ht, rfl, rfl, rfl, rfl, fun _ => rfl, rfl, fun h => nomatch h⟩
  case graySimple ch mono =>
    obtain ⟨hs, _, ht, rfl⟩ := grayEffect_ok_iff.1 h
    exact .inl ⟨4, mono, _, hs, ht, rfl, rfl, rfl, rfl, fun _ => rfl, rfl, fun h => nomatch h⟩
  case valid =>
    obtain ⟨_, rfl⟩ := validEffect_ok_iff.1 h
    exact .inr ⟨rfl, rfl, rfl, rfl, rfl, rfl⟩
  all_goals exact .inr (by obtain rfl := Except.ok.inj h; exact ⟨rfl, rfl, rfl, rfl, rfl, rfl⟩)

/-- Every byte a command writes lies in its destination region (R88). -/
theorem fmWrites_bounds {i : Instr} {s : State} {e : Effect} (h : commandEffect i s = .ok e) {c : Host.Cell}
    (hc : c ∈ e.fmWrites) : s.dstBase.toNat ≤ c.1 ∧ c.1 < s.dstBase.toNat + e.outLen := by
  rcases effect_cases h with ⟨d, mono, pixel, _, _, _, hw, hl, _⟩ | ⟨_, hw, _⟩
  · rw [hw] at hc
    rw [hl]
    exact bufferEffect_bounds hc
  · rw [hw] at hc
    cases hc

/-- A command that succeeds writes every byte of its destination region (R140). -/
theorem fmWrites_covers {i : Instr} {s : State} {e : Effect} (h : commandEffect i s = .ok e) {a : Nat}
    (ha : s.dstBase.toNat ≤ a ∧ a < s.dstBase.toNat + e.outLen) : ∃ c ∈ e.fmWrites, c.1 = a := by
  rcases effect_cases h with ⟨d, mono, pixel, _, _, _, hw, hl, _⟩ | ⟨_, _, hl, _⟩
  · rw [hl] at ha
    rw [hw]
    exact bufferEffect_covers ha
  · omega

/-- The output of a command fits in frame memory (R78). -/
theorem outLen_fits {i : Instr} {s : State} {e : Effect} (h : commandEffect i s = .ok e) (h0 : e.outLen ≠ 0) :
    s.dstBase.toNat + e.outLen ≤ s.cfg.fmBytes := by
  rcases effect_cases h with ⟨d, mono, pixel, _, ht, _, _, hl, _⟩ | ⟨_, _, hl, _⟩
  · rw [hl]
    exact ht.fits
  · exact absurd hl h0

/-- The source and destination regions of a command share no byte (R79). -/
theorem regions_apart {i : Instr} {s : State} {e : Effect} (h : commandEffect i s = .ok e) {a : Nat}
    (ha : s.srcBase.toNat ≤ a ∧ a < s.srcBase.toNat + s.srcLen.toNat) :
    ¬ (s.dstBase.toNat ≤ a ∧ a < s.dstBase.toNat + e.outLen) := by
  rcases effect_cases h with ⟨d, mono, pixel, _, ht, _, _, hl, _⟩ | ⟨_, _, hl, _⟩
  · have := ht.apart
    rw [hl]
    omega
  · omega

/-- `DST_LEN` holds `out_len` exactly (R33): no output is longer than frame memory, and that has at most 2^32 bytes,
of which a non-empty source takes at least one. -/
theorem dstLen_toNat {i : Instr} {s : State} {e : Effect} (hv : s.cfg.valid = true) (h : commandEffect i s = .ok e) :
    (BitVec.ofNat 32 e.outLen).toNat = e.outLen := by
  have hb : s.cfg.fmBytes ≤ 2 ^ 32 := by
    simp only [Config.valid, Bool.and_eq_true, decide_eq_true_eq] at hv
    exact hv.2
  rw [BitVec.toNat_ofNat, Nat.mod_eq_of_lt]
  rcases effect_cases h with ⟨d, mono, pixel, hs, ht, _, _, hl, _⟩ | ⟨_, _, hl, _⟩
  · have h1 := ht.fits
    have h2 := ht.apart
    have h3 := hs.fits
    have h4 : 0 < s.srcLen.toNat := by
      rw [hs.length]
      exact Nat.mul_pos hs.shapeOk.pixels_pos (by have := hs.depth; omega)
    rw [hl]
    omega
  · rw [hl]
    decide

/-- A byte outside the destination region keeps its value. -/
theorem read_writes_outside {i : Instr} {s : State} {e : Effect} (h : commandEffect i s = .ok e) {a : Nat}
    (ha : ¬ (s.dstBase.toNat ≤ a ∧ a < s.dstBase.toNat + e.outLen)) (m : Memory) :
    Memory.read (m.writeAll e.fmWrites) a = m.read a :=
  Memory.read_writeAll_other (fun c hc he => ha (by rw [← he]; exact fmWrites_bounds h hc)) m

end Sys2Proof.Machine
end

