-- ==== Sys2Proof/Laws/LineBuffer.lean ====
section
/-! SUPPORT. The line buffer (R260 to R264, R268): which rows it holds after fetching, and what a tap returns. -/

namespace Sys2Proof.Machine

/-- The line buffer after fetching rows 0 to `n - 1`, in order, from an invalidated buffer (R266). -/
def fetched (s : State) (sh : Shape) (n : Nat) : LineBuffer :=
  (List.range n).foldl (fetchRow s sh) (LineBuffer.invalidate s.lb)

theorem fetched_succ (s : State) (sh : Shape) (n : Nat) :
    fetched s sh (n + 1) = fetchRow s sh (fetched s sh n) n := by
  simp only [fetched, List.range_succ, List.foldl_append, List.foldl_cons, List.foldl_nil]

/-- Fetching on from row `n` to row `top` continues the same sequence. -/
theorem fetchTo_fetched (s : State) (sh : Shape) {n top : Nat} :
    fetchTo s sh n top (fetched s sh n) = fetched s sh (max n (top + 1)) := by
  have h : List.range (max n (top + 1)) = List.range n ++ List.range' n (top + 1 - n) := by
    rw [show max n (top + 1) = n + (top + 1 - n) by omega, List.range_eq_range', List.range_eq_range',
      ← List.range'_append_1, Nat.zero_add]
  simp only [fetchTo, fetched, h, List.foldl_append]

theorem fetchAll_eq (s : State) (sh : Shape) : fetchAll s sh = fetched s sh sh.h := rfl

@[simp] theorem fetchRow_length (s : State) (sh : Shape) (lb : LineBuffer) (q : Nat) :
    (fetchRow s sh lb q).length = lb.length := by
  simp only [fetchRow, List.length_modify]

@[simp] theorem invalidate_length (lb : LineBuffer) : (LineBuffer.invalidate lb).length = lb.length := by
  simp only [LineBuffer.invalidate, List.length_map]

@[simp] theorem fetched_length (s : State) (sh : Shape) (n : Nat) : (fetched s sh n).length = s.lb.length := by
  induction n with
  | zero => exact invalidate_length s.lb
  | succ n ih => rw [fetched_succ, fetchRow_length, ih]

/-- The slot of row `q` after fetching it, and every other slot. -/
theorem fetchRow_getElem? (s : State) (sh : Shape) (lb : LineBuffer) (q i : Nat) :
    (fetchRow s sh lb q)[i]? =
      if q % s.cfg.nr = i then
        lb[i]?.map fun x => ⟨some q, rowBytes s sh q ++ x.row.drop (sh.w * sh.d)⟩
      else lb[i]? := by
  simp only [fetchRow, List.getElem?_modify]
  split
  · rfl
  · simp

theorem rowBytes_length (s : State) (sh : Shape) (q : Nat) : (rowBytes s sh q).length = sh.w * sh.d := by
  simp only [rowBytes, List.length_map, List.length_range]

/-- Byte `b` of a fetched row (R263). -/
theorem row_getElem? {s : State} {sh : Shape} {q b : Nat} (hb : b < sh.w * sh.d) (old : List Byte) :
    (rowBytes s sh q ++ old.drop (sh.w * sh.d))[b]? = some (s.fm.read (s.sb + q * sh.w * sh.d + b)) := by
  rw [List.getElem?_append_left (by rw [rowBytes_length]; exact hb)]
  simp only [rowBytes, List.getElem?_map, List.getElem?_range hb, Option.map_some]

theorem nr_pos (c : Config) : 0 < c.nr := by
  simp only [Config.nr]
  omega

/-- The last `NR` rows fetched are valid and hold their rows (R266 (1), R268). -/
theorem fetched_valid {s : State} {sh : Shape} (hl : s.lb.length = s.cfg.nr) :
    ∀ {n q : Nat}, q < n → n ≤ q + s.cfg.nr →
      ∃ x, (fetched s sh n)[q % s.cfg.nr]? = some x ∧ x.tag = some q ∧
        ∀ b, b < sh.w * sh.d → x.row[b]? = some (s.fm.read (s.sb + q * sh.w * sh.d + b))
  | 0, q, h, _ => absurd h (Nat.not_lt_zero q)
  | n + 1, q, h, h' => by
    rw [fetched_succ, fetchRow_getElem?]
    have hq : q % s.cfg.nr < (fetched s sh n).length := by
      rw [fetched_length, hl]
      exact Nat.mod_lt _ (nr_pos _)
    by_cases he : q = n
    · subst he
      rw [if_pos rfl, List.getElem?_eq_getElem hq]
      exact ⟨_, rfl, rfl, fun b hb => row_getElem? hb _⟩
    · have hne : ¬ n % s.cfg.nr = q % s.cfg.nr := by
        intro hmod
        have h1 := Nat.div_add_mod n s.cfg.nr
        have h2 := Nat.div_add_mod q s.cfg.nr
        have h3 : n / s.cfg.nr ≤ q / s.cfg.nr + 1 := by
          calc n / s.cfg.nr ≤ (q + s.cfg.nr) / s.cfg.nr := Nat.div_le_div_right (by omega)
            _ = q / s.cfg.nr + 1 := Nat.add_div_right _ (nr_pos _)
        have h4 : q / s.cfg.nr ≤ n / s.cfg.nr := Nat.div_le_div_right (by omega)
        rcases Nat.lt_or_ge (q / s.cfg.nr) (n / s.cfg.nr) with h5 | h5
        · have h6 : n / s.cfg.nr = q / s.cfg.nr + 1 := by omega
          rw [h6, Nat.mul_add, Nat.mul_one] at h1
          omega
        · have h6 : n / s.cfg.nr = q / s.cfg.nr := by omega
          rw [h6] at h1
          omega
      rw [if_neg hne]
      exact fetched_valid hl (by omega) (by omega)

/-- A slot that no fetched row maps to is invalid (R266 (3)). -/
theorem fetched_invalid {s : State} {sh : Shape} {i : Nat} {x : LineSlot} :
    ∀ {n : Nat}, (fetched s sh n)[i]? = some x → (∀ q, q < n → q % s.cfg.nr ≠ i) → x.tag = none
  | 0, hx, _ => by
    simp only [fetched, List.range_zero, List.foldl_nil, LineBuffer.invalidate, List.getElem?_map,
      Option.map_eq_some_iff] at hx
    obtain ⟨y, _, rfl⟩ := hx
    rfl
  | n + 1, hx, h => by
    rw [fetched_succ, fetchRow_getElem?, if_neg (h n (by omega))] at hx
    exact fetched_invalid hx fun q hq => h q (by omega)

/-- A tap of a buffered row returns the source byte (R264). -/
theorem tap_fetched {s : State} {sh : Shape} {n xx yy c : Nat} (hl : s.lb.length = s.cfg.nr) (h1 : yy < n)
    (h2 : n ≤ yy + s.cfg.nr) (hx : xx < sh.w) (hc : c < sh.d) :
    tap s sh (fetched s sh n) xx yy c = some (srcByte s sh xx yy c) := by
  obtain ⟨x, hs, ht, hr⟩ := fetched_valid (sh := sh) hl h1 h2
  have hb : xx * sh.d + c < sh.w * sh.d := by
    calc xx * sh.d + c < (xx + 1) * sh.d := by rw [Nat.add_mul]; omega
      _ ≤ sh.w * sh.d := Nat.mul_le_mul_right _ hx
  simp only [tap, hs, ht, if_true, hr _ hb, srcByte, srcAddr]
  congr 2
  rw [Nat.add_mul]
  omega

end Sys2Proof.Machine
end

