-- ==== Sys2Proof/Laws/Reads.lean ====
section
/-! SUPPORT. What a command reads (R113, R269, R292): the operand registers, the parameters, the weights, the tables and
frame memory. Two states that agree on these give one effect. -/

namespace Sys2Proof.Machine

/-- The two states agree on the parameters and the operand registers. -/
structure SameOperands (s s' : State) : Prop where
  cfg : s'.cfg = s.cfg
  srcBase : s'.srcBase = s.srcBase
  srcLen : s'.srcLen = s.srcLen
  dstBase : s'.dstBase = s.dstBase
  width : s'.width = s.width
  height : s'.height = s.height
  kradius : s'.kradius = s.kradius
  klen : s'.klen = s.klen
  divNum : s'.divNum = s.divNum
  divDen : s'.divDen = s.divDen
  lutParam : s'.lutParam = s.lutParam

section
variable {s s' : State} (h : SameOperands s s')
include h

theorem shape_congr : shape s' = shape s := by
  unfold shape State.len
  rw [h.width, h.height, h.srcLen]

theorem checkSrcRange_congr (sh : Shape) : checkSrcRange s' sh = checkSrcRange s sh := by
  unfold checkSrcRange State.sb
  rw [h.srcBase, h.cfg]

theorem checkRange_congr (sh : Shape) (od : Nat) : checkRange s' sh od = checkRange s sh od := by
  unfold checkRange State.db
  rw [checkSrcRange_congr h, h.dstBase, h.cfg]

theorem checkOverlap_congr (sh : Shape) (od : Nat) : checkOverlap s' sh od = checkOverlap s sh od := by
  unfold checkOverlap State.sb State.db
  rw [h.dstBase, h.srcBase]

theorem checkKernel_congr (med : Bool) (sh : Shape) : checkKernel med s' sh = checkKernel med s sh := by
  unfold checkKernel State.radius State.nWeights State.num State.den
  rw [h.kradius, h.klen, h.divNum, h.divDen, h.cfg]

theorem pack_congr (mono : Bool) (p : Nat) (px : Pixel) : pack s' mono p px = pack s mono p px := by
  simp only [pack, dstAddr, State.db, h.dstBase, h.cfg]

theorem bufferEffect_congr (sh : Shape) (mono : Bool) {f g : Nat → Pixel} (hf : ∀ p, p < sh.n → f p = g p) :
    bufferEffect s' sh mono f = bufferEffect s sh mono g := by
  have : ((List.range sh.n).flatMap fun p => pack s' mono p (f p)) =
      (List.range sh.n).flatMap fun p => pack s mono p (g p) := by
    rw [List.flatMap_def, List.flatMap_def]
    congr 1
    refine List.map_congr_left fun p hp => ?_
    rw [pack_congr h, hf p (List.mem_range.1 hp)]
  simp only [bufferEffect, this]

end

/-- The two states agree on every byte of the source region. -/
def SameSource (s s' : State) : Prop :=
  ∀ a, s.srcBase.toNat ≤ a → a < s.srcBase.toNat + s.srcLen.toNat → s'.fm.read a = s.fm.read a

/-- A byte of pixel `p` lies in the source region (R75). -/
theorem src_congr {s s' : State} (h : SameOperands s s') (hm : SameSource s s') {d p c : Nat} (hd : ShapeOk s d)
    (hp : p < s.pixels) (hc : c < d) : src s' (shapeOf s d) p c = src s (shapeOf s d) p c := by
  have hl : p * d + c < s.srcLen.toNat := by
    rw [hd.length]
    calc p * d + c < (p + 1) * d := by rw [Nat.add_mul]; omega
      _ ≤ s.pixels * d := Nat.mul_le_mul_right _ hp
  simp only [src, State.sb, h.srcBase, shapeOf]
  exact hm _ (by omega) (by omega)

theorem srcByte_congr {s s' : State} (h : SameOperands s s') (hm : SameSource s s') {d x y c : Nat} (hd : ShapeOk s d)
    (hx : x < s.width.toNat) (hy : y < s.height.toNat) (hc : c < d) :
    srcByte s' (shapeOf s d) x y c = srcByte s (shapeOf s d) x y c :=
  src_congr h hm hd (pixel_lt hx hy) hc

theorem fetchPixel_congr {s s' : State} (h : SameOperands s s') (hm : SameSource s s') {d p : Nat} (hd : ShapeOk s d)
    (hp : p < s.pixels) : fetchPixel s' (shapeOf s d) p = fetchPixel s (shapeOf s d) p := by
  have key := fun c hc => src_congr h hm hd hp (c := c) hc
  rcases hd.depth with rfl | rfl
  · simp [fetchPixel, shapeOf] at key ⊢
    exact key
  · have h0 := key 0 (by omega)
    have h1 := key 1 (by omega)
    have h2 := key 2 (by omega)
    have h3 := key 3 (by omega)
    simp only [fetchPixel, h0, h1, h2, h3]

/-- The window of an interior pixel lies inside the image (R223). -/
theorem interior_iff {s : State} {d r x y : Nat} :
    interior (shapeOf s d) r x y = true ↔
      r ≤ x ∧ x + r < s.width.toNat ∧ r ≤ y ∧ y + r < s.height.toNat := by
  simp only [interior, Bool.and_eq_true, decide_eq_true_eq, and_assoc]
  rfl

theorem side_pos (r : Nat) : 0 < side r := by simp only [side]; omega

/-- The column and the row of window index `j` (R223). -/
theorem window_index {r j : Nat} (hj : j < windowSize r) : j % side r < 2 * r + 1 ∧ j / side r < 2 * r + 1 :=
  ⟨Nat.mod_lt _ (side_pos r), Nat.div_lt_of_lt_mul hj⟩

theorem window_congr {s s' : State} (h : SameOperands s s') (hm : SameSource s s') {d r x y c : Nat} (hd : ShapeOk s d)
    (hi : interior (shapeOf s d) r x y = true) (hc : c < d) :
    window s' (shapeOf s d) r x y c = window s (shapeOf s d) r x y c := by
  rw [interior_iff] at hi
  refine List.map_congr_left fun j hj => ?_
  have := window_index (List.mem_range.1 hj)
  exact srcByte_congr h hm hd (by omega) (by omega) hc

theorem accumulate_congr {s s' : State} (hk : s'.kw = s.kw) :
    ∀ (bs : List Byte) (j : Nat), accumulate s' j bs = accumulate s j bs
  | [], _ => rfl
  | b :: bs, j => by
    simp only [accumulate, State.weight, hk, accumulate_congr hk bs]

theorem convValue_congr {s s' : State} (h : SameOperands s s') (hm : SameSource s s') (hk : s'.kw = s.kw) (med : Bool)
    {d r x y c : Nat} (hd : ShapeOk s d) (hx : x < s.width.toNat) (hy : y < s.height.toNat) (hc : c < d) :
    convValue med s' (shapeOf s d) r x y c = convValue med s (shapeOf s d) r x y c := by
  simp only [convValue]
  split
  · rename_i hi
    rw [window_congr h hm hd hi hc]
    simp only [windowValue, weightedValue, accumulate_congr hk, State.den, State.num, h.divDen, h.divNum, h.cfg]
  · exact srcByte_congr h hm hd hx hy hc

theorem colourChannel_lt {s : State} {d k : Nat} (hd : d = 1 ∨ d = 4) (hk : k < 3) :
    colourChannel (shapeOf s d) k < d := by
  rcases hd with rfl | rfl
  · simp [colourChannel, shapeOf]
  · simp [colourChannel, shapeOf]
    omega

/-- The column and the row of a pixel. -/
theorem pixel_coords {s : State} {p : Nat} (hp : p < s.pixels) :
    p % s.width.toNat < s.width.toNat ∧ p / s.width.toNat < s.height.toNat := by
  have hw : 0 < s.width.toNat := by
    rcases Nat.eq_zero_or_pos s.width.toNat with h | h
    · rw [State.pixels, h, Nat.zero_mul] at hp
      omega
    · exact h
  exact ⟨Nat.mod_lt _ hw, Nat.div_lt_of_lt_mul hp⟩

theorem convPixel_congr {s s' : State} (h : SameOperands s s') (hm : SameSource s s') (hk : s'.kw = s.kw) (med : Bool)
    {d r p : Nat} (hd : ShapeOk s d) (hp : p < s.pixels) :
    convPixel med s' (shapeOf s d) r p = convPixel med s (shapeOf s d) r p := by
  obtain ⟨hx, hy⟩ := pixel_coords hp
  have key := fun k hk3 => convValue_congr h hm hk med (r := r) hd hx hy (colourChannel_lt (s := s) hd.depth (k := k) hk3)
  have k0 := key 0 (by omega)
  have k1 := key 1 (by omega)
  have k2 := key 2 (by omega)
  have ka : (if (shapeOf s d).d = 4 then srcByte s' (shapeOf s d) (p % (shapeOf s d).w) (p / (shapeOf s d).w) 3 else 255#8) =
      if (shapeOf s d).d = 4 then srcByte s (shapeOf s d) (p % (shapeOf s d).w) (p / (shapeOf s d).w) 3 else 255#8 := by
    split
    · rename_i h4
      exact srcByte_congr h hm hd hx hy (by simp only [shapeOf] at h4; omega)
    · rfl
  simp only [convPixel]
  rw [ka]
  simp only [shapeOf] at k0 k1 k2 ⊢
  rw [k0, k1, k2]

/-! Effects, up to the hidden line buffer (R269). -/

/-- An effect without what it leaves in the line buffer. -/
def Effect.visible (e : Effect) : Effect := { e with lb := none }

theorem grayEffect_congr {s s' : State} (h : SameOperands s s') (hm : SameSource s s')
    (lum : Byte → Byte → Byte → Byte) (bad mono : Bool) :
    grayEffect lum bad mono s' = grayEffect lum bad mono s := by
  simp only [grayEffect, shape_congr h, checkRange_congr h, checkOverlap_congr h]
  cases hsh : shape s with
  | error k => rfl
  | ok sh =>
    obtain ⟨d, hd, rfl⟩ := shape_ok_iff.1 hsh
    by_cases h4 : d = 4
    · subst h4
      simp only [ok_bind]
      rw [bufferEffect_congr h (shapeOf s 4) mono (g := fun p =>
        let v := lum (src s (shapeOf s 4) p 0) (src s (shapeOf s 4) p 1) (src s (shapeOf s 4) p 2)
        ⟨v, v, v, src s (shapeOf s 4) p 3⟩)]
      intro p hp
      simp only [src_congr h hm hd hp (show 0 < 4 by omega), src_congr h hm hd hp (show 1 < 4 by omega),
        src_congr h hm hd hp (show 2 < 4 by omega), src_congr h hm hd hp (show 3 < 4 by omega)]
    · simp only [ok_bind]
      have h4' : (shapeOf s d).d ≠ 4 := h4
      rw [raiseIf_bind, if_pos h4', raiseIf_bind, if_pos h4']

theorem applyEffect_congr {s s' : State} (h : SameOperands s s') (hm : SameSource s s') (hl : s'.lut = s.lut)
    (mono : Bool) : applyEffect mono s' = applyEffect mono s := by
  simp only [applyEffect, shape_congr h, checkRange_congr h, checkOverlap_congr h]
  cases hsh : shape s with
  | error k => rfl
  | ok sh =>
    obtain ⟨d, hd, rfl⟩ := shape_ok_iff.1 hsh
    have : bufferEffect s' (shapeOf s d) mono (fun p =>
        let px := fetchPixel s' (shapeOf s d) p
        ⟨remap s' 0 px.c0, remap s' 1 px.c1, remap s' 2 px.c2, px.a⟩) =
      bufferEffect s (shapeOf s d) mono fun p =>
        let px := fetchPixel s (shapeOf s d) p
        ⟨remap s 0 px.c0, remap s 1 px.c1, remap s 2 px.c2, px.a⟩ := by
      refine bufferEffect_congr h _ mono fun p hp => ?_
      simp only [fetchPixel_congr h hm hd hp, remap, State.lutEntry, hl]
    simp only [ok_bind] at this ⊢
    rw [this]

theorem convEffect_congr {s s' : State} (h : SameOperands s s') (hm : SameSource s s') (hk : s'.kw = s.kw)
    (mono med : Bool) :
    (convEffect mono med s').map Effect.visible = (convEffect mono med s).map Effect.visible := by
  simp only [convEffect, shape_congr h, checkKernel_congr h, checkRange_congr h, checkOverlap_congr h]
  cases hsh : shape s with
  | error k => rfl
  | ok sh =>
    obtain ⟨d, hd, rfl⟩ := shape_ok_iff.1 hsh
    simp only [ok_bind]
    cases checkKernel med s (shapeOf s d) with
    | error k => rfl
    | ok r =>
      have := bufferEffect_congr h (shapeOf s d) mono
        (f := convPixel med s' (shapeOf s d) r) (g := convPixel med s (shapeOf s d) r)
        fun p hp => convPixel_congr h hm hk med hd hp
      simp only [ok_bind, this]
      cases checkRange s (shapeOf s d) (outDepth mono) with
      | error k => rfl
      | ok u =>
        cases checkOverlap s (shapeOf s d) (outDepth mono) with
        | error k => rfl
        | ok u => rfl

theorem validEffect_congr {s s' : State} (h : SameOperands s s') : validEffect s' = validEffect s := by
  simp only [validEffect, shape_congr h, checkSrcRange_congr h]

/-- Two states with one set of operands, weights, tables and source bytes give one effect, but for the hidden line
buffer (R269, R292). -/
theorem commandEffect_congr {s s' : State} (h : SameOperands s s') (hm : SameSource s s') (hk : s'.kw = s.kw)
    (hl : s'.lut = s.lut) (i : Instr) :
    (commandEffect i s').map Effect.visible = (commandEffect i s).map Effect.visible := by
  cases i <;> simp only [commandEffect]
  case conv mono med => exact convEffect_congr h hm hk mono med
  case buildBrightness => simp only [brightnessEffect, State.signedParam, h.lutParam]
  case buildContrast => simp only [contrastEffect, State.signedParam, h.lutParam, h.cfg]
  case buildPosterize => rw [posterizeEffect, posterizeEffect, State.levels, State.levels, h.lutParam, h.cfg]
  case buildThreshold => simp only [thresholdEffect, State.signedParam, h.lutParam]
  case buildPseudocolor => simp only [pseudocolorEffect, h.cfg]
  case apply mono => rw [applyEffect_congr h hm hl]
  case grayLuma mono => rw [grayLumaEffect, grayLumaEffect, h.cfg, grayEffect_congr h hm]
  case grayAverage mono => rw [grayAverageEffect, grayAverageEffect, h.cfg, grayEffect_congr h hm]
  case graySimple ch mono => rw [graySimpleEffect, graySimpleEffect, grayEffect_congr h hm]
  case valid => rw [validEffect_congr h]

/-- The line buffer a `CONV` leaves depends on the line buffer before it too (R266). -/
theorem fetchAll_congr {s s' : State} (h : SameOperands s s') (hf : s'.fm = s.fm) (hb : s'.lb = s.lb) (sh : Shape) :
    fetchAll s' sh = fetchAll s sh := by
  have : fetchRow s' sh = fetchRow s sh := by
    funext lb q
    simp only [fetchRow, rowBytes, State.sb, h.srcBase, hf, h.cfg]
  simp only [fetchAll, this, hb]

/-- With frame memory and the line buffer in common too, the effects are equal. -/
theorem commandEffect_eq {s s' : State} (h : SameOperands s s') (hf : s'.fm = s.fm) (hk : s'.kw = s.kw)
    (hl : s'.lut = s.lut) (hb : s'.lb = s.lb) (i : Instr) : commandEffect i s' = commandEffect i s := by
  have hm : SameSource s s' := fun a _ _ => by rw [hf]
  cases hc : i.isConv with
  | true =>
    cases i <;> simp only [Instr.isConv, Bool.false_eq_true] at hc
    rename_i mono med
    simp only [commandEffect, convEffect, shape_congr h, checkKernel_congr h, checkRange_congr h, checkOverlap_congr h]
    cases hsh : shape s with
    | error k => rfl
    | ok sh =>
      obtain ⟨d, hd, rfl⟩ := shape_ok_iff.1 hsh
      simp only [ok_bind]
      cases checkKernel med s (shapeOf s d) with
      | error k => rfl
      | ok r =>
        have := bufferEffect_congr h (shapeOf s d) mono
          (f := convPixel med s' (shapeOf s d) r) (g := convPixel med s (shapeOf s d) r)
          fun p hp => convPixel_congr h hm hk med hd hp
        simp only [ok_bind, this, fetchAll_congr h hf hb]
  | false =>
    have key := commandEffect_congr h hm hk hl i
    cases h1 : commandEffect i s' with
    | error k =>
      cases h2 : commandEffect i s with
      | error k' =>
        rw [h1, h2] at key
        exact congrArg _ (Except.error.inj key)
      | ok e =>
        rw [h1, h2] at key
        cases key
    | ok e =>
      cases h2 : commandEffect i s with
      | error k' =>
        rw [h1, h2] at key
        cases key
      | ok e' =>
        rw [h1, h2] at key
        have hv := Except.ok.inj key
        have hn : ∀ {u : State} {x : Effect}, commandEffect i u = .ok x → x.lb = none := by
          intro u x hx
          rcases effect_cases hx with ⟨_, _, _, _, _, _, _, _, _, hlb, _⟩ | ⟨_, _, _, hlb, _⟩
          · exact hlb hc
          · exact hlb
        have e1 := hn h1
        have e2 := hn h2
        congr 1
        cases e
        cases e'
        simp only [Effect.visible, Effect.mk.injEq] at hv e1 e2
        simp only [hv, e1, e2]

end Sys2Proof.Machine
end

