-- ==== Sys2Proof/Laws/Conv.lean ====
section
/-! SUPPORT. The convolution engine's parts in the terms of the statements (R222 to R225): the window and its sum, the
interior test, and the median by counting. -/

namespace Sys2Proof.Machine

theorem windowSize_eq (r : Nat) : windowSize r = (2 * r + 1) ^ 2 := by simp [windowSize, side, pow_two]

/-- The interior test of the meaning is the inequality of R222. -/
theorem interior_iff_isInterior {s : State} {d x y : Nat} :
    interior (shapeOf s d) s.kradius.toNat x y = true ↔ isInterior s x y := by
  rw [interior_iff, isInterior]
  omega

/-- The window of the meaning is the window of R223. -/
theorem window_eq (s : State) (d x y c : Nat) :
    window s (shapeOf s d) s.kradius.toNat x y c =
      (List.range ((2 * s.kradius.toNat + 1) ^ 2)).map (windowByte s d x y c) := by
  rw [← windowSize_eq]
  rfl

theorem accumulate_range' (s : State) (f : Nat → Byte) : ∀ n j,
    accumulate s j ((List.range' j n).map f) = ((List.range' j n).map fun i => ((f i).toNat : Int) * s.weight i).sum
  | 0, _ => rfl
  | n + 1, j => by
    rw [List.range'_succ, List.map_cons, List.map_cons, accumulate, accumulate_range' s f n (j + 1), List.sum_cons]

/-- `acc` of the meaning is the sum of R224. -/
theorem accumulate_window (s : State) (d x y c : Nat) :
    accumulate s 0 (window s (shapeOf s d) s.kradius.toNat x y c) = windowSum s d x y c := by
  rw [window_eq, List.range_eq_range', accumulate_range', ← List.range_eq_range']
  rfl

/-- The middle element of the sorted list, by its rank (R225). -/
theorem medianValue_rank {l : List Byte} (hl : l ≠ []) :
    medianValue l ∈ l ∧ l.countP (fun b => decide (b.toNat < (medianValue l).toNat)) ≤ l.length / 2 ∧
      l.length / 2 < l.countP (fun b => decide (b.toNat ≤ (medianValue l).toNat)) := by
  have hp := sortAsc_perm l
  have hs := List.pairwise_iff_getElem.1 (sortAsc_sorted l)
  have hlen := sortAsc_length l
  have hlt : l.length / 2 < (sortAsc l).length := by
    have := List.length_pos_iff.2 hl
    omega
  have hm : medianValue l = (sortAsc l)[l.length / 2] := by rw [medianValue, List.getD_eq_getElem _ _ hlt]
  rw [hm]
  refine ⟨hp.mem_iff.1 (List.getElem_mem _), ?_, ?_⟩
  · rw [← hp.countP_eq]
    generalize hv : (sortAsc l)[l.length / 2] = v
    conv_lhs => rw [← List.take_append_drop (l.length / 2) (sortAsc l)]
    rw [List.countP_append]
    have h1 : (List.drop (l.length / 2) (sortAsc l)).countP (fun b => decide (b.toNat < v.toNat)) = 0 := by
      rw [List.countP_eq_zero]
      intro b hb
      subst hv
      obtain ⟨i, hi, rfl⟩ := List.mem_iff_getElem.1 hb
      rw [List.length_drop] at hi
      rw [List.getElem_drop]
      simp only [decide_eq_true_eq, not_lt]
      rcases Nat.eq_zero_or_pos i with rfl | hi0
      · simp
      · exact hs _ _ hlt (by omega) (by omega)
    have h2 := List.countP_le_length (p := fun b => decide (b.toNat < v.toNat)) (l := List.take (l.length / 2) (sortAsc l))
    rw [List.length_take] at h2
    omega
  · rw [← hp.countP_eq]
    generalize hv : (sortAsc l)[l.length / 2] = v
    conv_rhs => rw [← List.take_append_drop (l.length / 2 + 1) (sortAsc l)]
    rw [List.countP_append]
    have h1 : (List.take (l.length / 2 + 1) (sortAsc l)).countP (fun b => decide (b.toNat ≤ v.toNat)) =
        (List.take (l.length / 2 + 1) (sortAsc l)).length := by
      rw [List.countP_eq_length]
      intro b hb
      subst hv
      obtain ⟨i, hi, rfl⟩ := List.mem_iff_getElem.1 hb
      rw [List.length_take] at hi
      rw [List.getElem_take]
      simp only [decide_eq_true_eq]
      rcases Nat.lt_or_ge i (l.length / 2) with h | h
      · exact hs _ _ (by omega) hlt h
      · obtain rfl : i = l.length / 2 := by omega
        exact le_refl _
    rw [h1, List.length_take]
    omega

/-- The pixel of `CONV` at a column and a row (R228). -/
theorem convPixel_at {s : State} {d r x y : Nat} {med : Bool} (hx : x < s.width.toNat) :
    convPixel med s (shapeOf s d) r (y * s.width.toNat + x) =
      ⟨convValue med s (shapeOf s d) r x y (colourChannel (shapeOf s d) 0),
        convValue med s (shapeOf s d) r x y (colourChannel (shapeOf s d) 1),
        convValue med s (shapeOf s d) r x y (colourChannel (shapeOf s d) 2),
        if d = 4 then srcByte s (shapeOf s d) x y 3 else 255#8⟩ := by
  have e1 : (y * s.width.toNat + x) % (shapeOf s d).w = x := by
    show (y * s.width.toNat + x) % s.width.toNat = x
    rw [Nat.mul_add_mod_self_right, Nat.mod_eq_of_lt hx]
  have e2 : (y * s.width.toNat + x) / (shapeOf s d).w = y := by
    show (y * s.width.toNat + x) / s.width.toNat = y
    rw [Nat.mul_comm, Nat.mul_add_div (by omega), Nat.div_eq_of_lt hx, Nat.add_zero]
  simp only [convPixel, e1, e2]
  rfl

/-! The streamed form (R262, R265). -/

theorem mapM_eq_some {α β : Type} {f : α → Option β} {g : α → β} :
    ∀ {l : List α}, (∀ x ∈ l, f x = some (g x)) → l.mapM f = some (l.map g)
  | [], _ => rfl
  | x :: xs, h => by
    rw [List.mapM_cons, h x List.mem_cons_self, mapM_eq_some fun y hy => h y (List.mem_cons_of_mem _ hy)]
    rfl

/-- The last row an output row needs is a row of the image (R262). -/
theorem topRow_bounds {s : State} {d r y : Nat} (hy : y < s.height.toNat) :
    y ≤ topRow (shapeOf s d) r y ∧ topRow (shapeOf s d) r y ≤ y + r ∧ topRow (shapeOf s d) r y < s.height.toNat ∧
      (r ≤ y → y + r < s.height.toNat → topRow (shapeOf s d) r y = y + r) := by
  have e : topRow (shapeOf s d) r y = if r ≤ y ∧ y + r < s.height.toNat then y + r else y := rfl
  rw [e]
  split_ifs <;> omega

/-- With the rows an output row needs fetched, the window former gives the value of the direct form (R265, R267). -/
theorem streamValue_fetched {s : State} {d r n x y c : Nat} {med : Bool} (hl : s.lb.length = s.cfg.nr)
    (hr : r ≤ s.cfg.rmax) (hn : n ≤ y + r + 1) (hn' : topRow (shapeOf s d) r y < n) (hx : x < s.width.toNat)
    (hy : y < s.height.toNat) (hc : c < d) :
    streamValue med s (shapeOf s d) r (fetched s (shapeOf s d) n) x y c = some (convValue med s (shapeOf s d) r x y c) := by
  have ht := topRow_bounds (s := s) (d := d) (r := r) hy
  have hnr : s.cfg.nr = 2 * s.cfg.rmax + 1 := rfl
  rw [streamValue, convValue]
  split
  · rename_i hi
    rw [interior_iff] at hi
    rw [mapM_eq_some (g := fun j => srcByte s (shapeOf s d) (x + j % side r - r) (y + j / side r - r) c)]
    · rfl
    · intro j hj
      have hw := window_index (List.mem_range.1 hj)
      have := ht.2.2.2 (by omega) (by omega)
      generalize j / side r = l at *
      generalize j % side r = l' at *
      exact tap_fetched hl (by omega) (by omega) (show _ < s.width.toNat by omega) hc
  · exact tap_fetched hl (by omega) (by omega) hx hc

end Sys2Proof.Machine
end

