-- ==== Sys2Proof/Laws/Decode.lean ====
section
/-! SUPPORT. The fields of a command word (R101): a word is its fields, each field is a number of the word, and a row of
the opcode map (R114) is a test on fields. -/

namespace Sys2Proof

/-- A word from its six fields, the highest first (R101). -/
def fieldWord (rsv : BitVec 14) (med mono : Bool) (arg sub : BitVec 4) (op : BitVec 8) : Word :=
  rsv ++ BitVec.ofBool med ++ BitVec.ofBool mono ++ arg ++ sub ++ op

theorem cmdWord_eq (op : BitVec 8) (sub arg : BitVec 4) (mono med : Bool) :
    cmdWord op sub arg mono med = fieldWord 0#14 med mono arg sub op := rfl

section
variable (rsv : BitVec 14) (med mono : Bool) (arg sub : BitVec 4) (op : BitVec 8)

theorem fieldWord_getLsbD (i : Nat) : (fieldWord rsv med mono arg sub op).getLsbD i =
    if i < 8 then op.getLsbD i
    else if i < 12 then sub.getLsbD (i - 8)
    else if i < 16 then arg.getLsbD (i - 12)
    else if i < 17 then mono
    else if i < 18 then med
    else rsv.getLsbD (i - 18) := by
  simp only [fieldWord, BitVec.getLsbD_append, BitVec.getLsbD_ofBool]
  split_ifs <;> first | rfl | (exfalso; omega) | skip
  all_goals simp_all

/-- A word is its fields. -/
theorem fieldWord_fields (w : Word) :
    fieldWord (rsvField w) (medField w) (monoField w) (argField w) (subField w) (opField w) = w := by
  apply BitVec.eq_of_getLsbD_eq
  intro i hi
  rw [fieldWord_getLsbD]
  simp only [opField, subField, argField, monoField, medField, rsvField, BitVec.getLsbD_extractLsb']
  split_ifs with h1 h2 h3 h4 h5
  · simp [h1]
  · simp [show i - 8 < 4 by omega, show 8 + (i - 8) = i by omega]
  · simp [show i - 12 < 4 by omega, show 12 + (i - 12) = i by omega]
  · rw [show i = 16 by omega]
  · rw [show i = 17 by omega]
  · simp [show i - 18 < 14 by omega, show 18 + (i - 18) = i by omega]

@[simp] theorem opField_fieldWord : opField (fieldWord rsv med mono arg sub op) = op := by
  apply BitVec.eq_of_getLsbD_eq
  intro i hi
  simp only [opField, BitVec.getLsbD_extractLsb', fieldWord_getLsbD, Nat.zero_add, hi, if_true, decide_true,
    Bool.true_and]

@[simp] theorem subField_fieldWord : subField (fieldWord rsv med mono arg sub op) = sub := by
  apply BitVec.eq_of_getLsbD_eq
  intro i hi
  simp only [subField, BitVec.getLsbD_extractLsb', fieldWord_getLsbD, hi, decide_true, Bool.true_and]
  rw [if_neg (by omega), if_pos (by omega), Nat.add_sub_cancel_left]

@[simp] theorem argField_fieldWord : argField (fieldWord rsv med mono arg sub op) = arg := by
  apply BitVec.eq_of_getLsbD_eq
  intro i hi
  simp only [argField, BitVec.getLsbD_extractLsb', fieldWord_getLsbD, hi, decide_true, Bool.true_and]
  rw [if_neg (by omega), if_neg (by omega), if_pos (by omega), Nat.add_sub_cancel_left]

@[simp] theorem monoField_fieldWord : monoField (fieldWord rsv med mono arg sub op) = mono := by
  rw [monoField, fieldWord_getLsbD]
  rfl

@[simp] theorem medField_fieldWord : medField (fieldWord rsv med mono arg sub op) = med := by
  rw [medField, fieldWord_getLsbD]
  rfl

@[simp] theorem rsvField_fieldWord : rsvField (fieldWord rsv med mono arg sub op) = rsv := by
  apply BitVec.eq_of_getLsbD_eq
  intro i hi
  simp only [rsvField, BitVec.getLsbD_extractLsb', fieldWord_getLsbD, hi, decide_true, Bool.true_and]
  rw [if_neg (by omega), if_neg (by omega), if_neg (by omega), if_neg (by omega), if_neg (by omega),
    Nat.add_sub_cancel_left]

end

/-! The fields as numbers of the word. -/

theorem opField_toNat (w : Word) : (opField w).toNat = w.toNat % 256 := by
  simp [opField, BitVec.extractLsb'_toNat]

theorem subField_toNat (w : Word) : (subField w).toNat = w.toNat / 2 ^ 8 % 16 := by
  simp [subField, BitVec.extractLsb'_toNat, Nat.shiftRight_eq_div_pow]

theorem argField_toNat (w : Word) : (argField w).toNat = w.toNat / 2 ^ 12 % 16 := by
  simp [argField, BitVec.extractLsb'_toNat, Nat.shiftRight_eq_div_pow]

theorem monoField_eq (w : Word) : monoField w = decide (w.toNat / 2 ^ 16 % 2 = 1) := by
  simp [monoField, BitVec.getLsbD, Nat.testBit_eq_decide_div_mod_eq]

theorem medField_eq (w : Word) : medField w = decide (w.toNat / 2 ^ 17 % 2 = 1) := by
  simp [medField, BitVec.getLsbD, Nat.testBit_eq_decide_div_mod_eq]

theorem rsvField_toNat (w : Word) : (rsvField w).toNat = w.toNat / 2 ^ 18 := by
  have := w.isLt
  simp only [rsvField, BitVec.extractLsb'_toNat, Nat.shiftRight_eq_div_pow]
  omega

/-- Two fields-by-fields words are equal when their fields are. -/
theorem fieldWord_inj {r r' : BitVec 14} {m m' n n' : Bool} {a a' s s' : BitVec 4} {o o' : BitVec 8} :
    fieldWord r m n a s o = fieldWord r' m' n' a' s' o' ↔ r = r' ∧ m = m' ∧ n = n' ∧ a = a' ∧ s = s' ∧ o = o' := by
  constructor
  · intro h
    refine ⟨?_, ?_, ?_, ?_, ?_, ?_⟩
    · simpa using congrArg rsvField h
    · simpa using congrArg medField h
    · simpa using congrArg monoField h
    · simpa using congrArg argField h
    · simpa using congrArg subField h
    · simpa using congrArg opField h
  · rintro ⟨rfl, rfl, rfl, rfl, rfl, rfl⟩
    rfl

/-- A mask acts on each field alone. -/
theorem fieldWord_and (r r' : BitVec 14) (m m' n n' : Bool) (a a' s s' : BitVec 4) (o o' : BitVec 8) :
    fieldWord r m n a s o &&& fieldWord r' m' n' a' s' o' =
      fieldWord (r &&& r') (m && m') (n && n') (a &&& a') (s &&& s') (o &&& o') := by
  apply BitVec.eq_of_getLsbD_eq
  intro i _
  simp only [BitVec.getLsbD_and, fieldWord_getLsbD]
  split_ifs <;> rfl

/-- R106 on the fields. -/
theorem decode_fieldWord (rsv : BitVec 14) (med mono : Bool) (arg sub : BitVec 4) (op : BitVec 8) :
    decode (fieldWord rsv med mono arg sub op) =
      let w := fieldWord rsv med mono arg sub op
      if rsv ≠ 0#14 then .illegal w
      else if op = 0#8 then
        if sub ≠ 0#4 ∨ arg ≠ 0#4 ∨ mono = true ∨ med = true then .illegal w else .nop
      else if op = 5#8 then
        if sub ≠ 0#4 ∨ arg ≠ 0#4 ∨ mono = true ∨ med = true then .illegal w else .valid
      else if op = 1#8 then
        if sub ≠ 0#4 ∨ arg ≠ 0#4 then .illegal w else .conv mono med
      else if op = 2#8 then
        if arg ≠ 0#4 ∨ mono = true ∨ med = true then .illegal w else decodeBuild sub
      else if op = 3#8 then
        if sub ≠ 0#4 ∨ arg ≠ 0#4 ∨ med = true then .illegal w else .apply mono
      else if op = 4#8 then
        if med = true then .illegal w
        else if 3 ≤ sub.toNat then decodeGray sub arg mono
        else if sub.toNat ≤ 1 ∧ arg ≠ 0#4 then .illegal w
        else decodeGray sub arg mono
      else .illegal w := by
  simp only [decode, opField_fieldWord, subField_fieldWord, argField_fieldWord, monoField_fieldWord,
    medField_fieldWord, rsvField_fieldWord]

/-- R107 on the fields. -/
theorem reservedWord_fieldWord (rsv : BitVec 14) (med mono : Bool) (arg sub : BitVec 4) (op : BitVec 8) :
    reservedWord (fieldWord rsv med mono arg sub op) =
      (decide (rsv ≠ 0#14) || decide (5 < op.toNat) ||
        (decide (op = 0#8 ∨ op = 5#8) && decide (sub ≠ 0#4 ∨ arg ≠ 0#4 ∨ mono = true ∨ med = true)) ||
        (decide (op = 1#8) && decide (sub ≠ 0#4 ∨ arg ≠ 0#4)) ||
        (decide (op = 2#8) && decide (arg ≠ 0#4 ∨ mono = true ∨ med = true)) ||
        (decide (op = 3#8) && decide (sub ≠ 0#4 ∨ arg ≠ 0#4 ∨ med = true)) ||
        (decide (op = 4#8) && decide (med = true ∨ (sub.toNat ≤ 1 ∧ arg ≠ 0#4)))) := by
  have h := fieldWord_fields (fieldWord rsv med mono arg sub op)
  generalize hw : fieldWord rsv med mono arg sub op = w at h
  have hr := rsvField_toNat w
  have hmd := medField_eq w
  have hmn := monoField_eq w
  have ha := argField_toNat w
  have hs := subField_toNat w
  have ho := opField_toNat w
  rw [← hw] at hr hmd hmn ha hs ho
  simp only [rsvField_fieldWord, medField_fieldWord, monoField_fieldWord, argField_fieldWord, subField_fieldWord,
    opField_fieldWord] at hr hmd hmn ha hs ho
  rw [hw] at hr hmd hmn ha hs ho
  simp only [reservedWord, hmd, hmn, ← BitVec.toNat_inj, ne_eq, hr, ha, hs, ho, decide_eq_true_eq,
    BitVec.toNat_ofNat, Nat.reducePow, Nat.reduceMod]
  have e1 : ∀ x : Nat, (¬ x % 2 = 0) ↔ x % 2 = 1 := by intro x; omega
  simp only [e1]

/-- A row of the opcode map (R114) tests each field alone. -/
theorem selects_fieldWord (name : String) (m p : Word) (rsv : BitVec 14) (med mono : Bool) (arg sub : BitVec 4)
    (op : BitVec 8) :
    (TableRow.mk name m p).selects (fieldWord rsv med mono arg sub op) =
      (rsv &&& rsvField m == rsvField p && (med && medField m) == medField p && (mono && monoField m) == monoField p &&
        arg &&& argField m == argField p && sub &&& subField m == subField p && op &&& opField m == opField p) := by
  rw [Bool.eq_iff_iff]
  conv_lhs => rw [← fieldWord_fields m, ← fieldWord_fields p]
  simp only [TableRow.selects, fieldWord_and, Bool.and_eq_true, beq_iff_eq, fieldWord_inj, and_assoc]

end Sys2Proof
end

