-- ==== Sys2Proof/Laws/PerInstr.lean ====
section
/-! SUPPORT. One lemma per command: its word lies in its row of the opcode map (R114). -/

namespace Sys2Proof.Laws.EncodesInRow

open Sys2Proof

/-- The row of a well-formed command selects its word (R114). -/
def Statement (i : Instr) : Prop :=
  i.wellFormed = true → (opcodeTable[i.rowIndex]?.map (·.selects (encode i))) = some true


theorem nop : Statement .nop := fun _ => by decide
theorem conv (mono med : Bool) : Statement (.conv mono med) := fun _ => by revert mono med; decide
theorem buildBrightness : Statement .buildBrightness := fun _ => by decide
theorem buildContrast : Statement .buildContrast := fun _ => by decide
theorem buildPosterize : Statement .buildPosterize := fun _ => by decide
theorem buildThreshold : Statement .buildThreshold := fun _ => by decide
theorem buildSolarize : Statement .buildSolarize := fun _ => by decide
theorem buildPseudocolor : Statement .buildPseudocolor := fun _ => by decide
theorem buildInvert : Statement .buildInvert := fun _ => by decide
theorem buildUnknown7 : Statement .buildUnknown7 := fun _ => by decide
theorem buildUnknown8to15 (sub : BitVec 4) : Statement (.buildUnknown8to15 sub) := by
  rw [Statement]; revert sub; decide +kernel
theorem apply (mono : Bool) : Statement (.apply mono) := fun _ => by revert mono; decide
theorem grayLuma (mono : Bool) : Statement (.grayLuma mono) := fun _ => by revert mono; decide
theorem grayAverage (mono : Bool) : Statement (.grayAverage mono) := fun _ => by revert mono; decide
theorem graySimple (ch : BitVec 4) (mono : Bool) : Statement (.graySimple ch mono) := by
  rw [Statement]; revert ch mono; decide +kernel
theorem grayUnknown3 (arg : BitVec 4) (mono : Bool) : Statement (.grayUnknown3 arg mono) := by
  rw [Statement]; revert arg mono; decide +kernel
theorem grayUnknown4to7 (sub arg : BitVec 4) (mono : Bool) : Statement (.grayUnknown4to7 sub arg mono) := by
  rw [Statement]; revert sub arg mono; decide +kernel
theorem grayUnknown8to15 (sub arg : BitVec 4) (mono : Bool) : Statement (.grayUnknown8to15 sub arg mono) := by
  rw [Statement]; revert sub arg mono; decide +kernel
theorem valid : Statement .valid := fun _ => by decide
theorem illegal (w : Word) : Statement (.illegal w) := fun _ => by
  simp [opcodeTable, Instr.rowIndex, TableRow.selects]

end Sys2Proof.Laws.EncodesInRow
end

