-- ==== Sys2Proof/Laws/Step.lean ====
section
/-! SUPPORT. What a step can do: each move of an agent (R9) once, and the register map (R22, R43). -/

namespace Sys2Proof.Machine

/-! The register map. -/

@[simp] theorem regAt_id (c : Config) : regAt c 0x000#12 = .id := rfl
@[simp] theorem regAt_cmd (c : Config) : regAt c 0x004#12 = .cmd := rfl
@[simp] theorem regAt_status (c : Config) : regAt c 0x008#12 = .status := rfl
@[simp] theorem regAt_errcode (c : Config) : regAt c 0x00C#12 = .errcode := rfl
@[simp] theorem regAt_lastcmd (c : Config) : regAt c 0x010#12 = .lastcmd := rfl
@[simp] theorem regAt_irqen (c : Config) : regAt c 0x014#12 = .irqen := rfl
@[simp] theorem regAt_irqst (c : Config) : regAt c 0x018#12 = .irqst := rfl
@[simp] theorem regAt_srcBase (c : Config) : regAt c 0x020#12 = .srcBase := rfl
@[simp] theorem regAt_srcLen (c : Config) : regAt c 0x024#12 = .srcLen := rfl
@[simp] theorem regAt_dstBase (c : Config) : regAt c 0x028#12 = .dstBase := rfl
@[simp] theorem regAt_dstLen (c : Config) : regAt c 0x02C#12 = .dstLen := rfl
@[simp] theorem regAt_width (c : Config) : regAt c 0x030#12 = .width := rfl
@[simp] theorem regAt_height (c : Config) : regAt c 0x034#12 = .height := rfl
@[simp] theorem regAt_kradius (c : Config) : regAt c 0x040#12 = .kradius := rfl
@[simp] theorem regAt_klen (c : Config) : regAt c 0x044#12 = .klen := rfl
@[simp] theorem regAt_divNum (c : Config) : regAt c 0x048#12 = .divNum := rfl
@[simp] theorem regAt_divDen (c : Config) : regAt c 0x04C#12 = .divDen := rfl
@[simp] theorem regAt_lutParam (c : Config) : regAt c 0x050#12 = .lutParam := rfl

/-- The largest weight file, `RMAX = 6`, ends below the tables (R22). -/
theorem nw_le {c : Config} (h : c.valid = true) : c.nw ≤ 169 := by
  simp only [Config.valid, Bool.and_eq_true, decide_eq_true_eq] at h
  have h1 : 2 * c.rmax + 1 ≤ 13 := by omega
  calc c.nw = (2 * c.rmax + 1) ^ 2 := rfl
    _ ≤ 13 ^ 2 := Nat.pow_le_pow_left h1 2
    _ = 169 := by decide

/-- An offset in the weight window (R22). -/
theorem regAt_weight {c : Config} {off : BitVec 12} (h1 : 0x100 ≤ off.toNat) (h2 : off.toNat < 0x100 + 4 * c.nw)
    (h3 : off.toNat < 0x400) : regAt c off = .kw ((off.toNat - 0x100) / 4) := by
  simp only [regAt]
  rw [if_neg (by omega), if_pos h1, if_pos h2]

/-- The offset of `KW[j]` (R22). -/
theorem regAt_kw {c : Config} {j : Nat} (hc : c.valid = true) (hj : j < c.nw) :
    regAt c (BitVec.ofNat 12 (0x100 + 4 * j)) = .kw j := by
  have h1 := nw_le hc
  have h2 : (BitVec.ofNat 12 (0x100 + 4 * j)).toNat = 0x100 + 4 * j := by
    rw [BitVec.toNat_ofNat, Nat.mod_eq_of_lt (by omega)]
  rw [regAt_weight (by omega) (by omega) (by omega), h2]
  congr 1
  omega

theorem regAt_table {c : Config} {off : BitVec 12} (h : 0x400 ≤ off.toNat) :
    regAt c off =
      .lut (Fin.ofNat 3 ((off.toNat - 0x400) / 4 / 256)) (Fin.ofNat 256 ((off.toNat - 0x400) / 4 % 256)) := by
  simp only [regAt]
  rw [if_pos h]

theorem lutOffset_toNat (k : Fin 3) (v : Fin 256) :
    (BitVec.ofNat 12 (0x400 + 4 * (256 * k.val + v.val))).toNat = 0x400 + 4 * (256 * k.val + v.val) := by
  rw [BitVec.toNat_ofNat, Nat.mod_eq_of_lt (by omega)]

/-- The offset of `LUT[k][v]` (R22). -/
theorem regAt_lut (c : Config) (k : Fin 3) (v : Fin 256) :
    regAt c (BitVec.ofNat 12 (0x400 + 4 * (256 * k.val + v.val))) = .lut k v := by
  have h := lutOffset_toNat k v
  rw [regAt_table (by omega), h]
  congr 1
  · apply Fin.ext
    simp only [Fin.val_ofNat]
    omega
  · apply Fin.ext
    simp only [Fin.val_ofNat]
    omega

/-- No register of the map lies at an offset outside its list (R43). -/
theorem regAt_gap : ∀ n, 0x054 ≤ n → n ≤ 0x0FC → regMap.lookup n = none := by
  intro n h1 h2
  simp only [regMap, List.lookup]
  repeat rw [show ((n == _) = false) by simp only [beq_eq_false_iff_ne]; omega]

/-- The unmapped offsets (R22, R43). -/
theorem regAt_unmapped {c : Config} {off : BitVec 12}
    (h : (off = 0x01C#12 ∨ off = 0x038#12 ∨ off = 0x03C#12) ∨ (0x054 ≤ off.toNat ∧ off.toNat ≤ 0x0FC) ∨
      (0x100 + 4 * c.nw ≤ off.toNat ∧ off.toNat ≤ 0x3FC)) : regAt c off = .unmapped := by
  rcases h with (rfl | rfl | rfl) | ⟨h1, h2⟩ | ⟨h1, h2⟩
  · rfl
  · rfl
  · rfl
  · simp only [regAt]
    rw [if_neg (by omega), if_neg (by omega), regAt_gap _ h1 h2]
  · simp only [regAt]
    rw [if_neg (by omega), if_pos (by omega), if_neg (by omega)]

/-- Only the offsets of the list reach the registers outside the windows (R22). -/
theorem regAt_named {c : Config} {off : BitVec 12} {r : Reg} (h : regAt c off = r)
    (hr : r ≠ .unmapped ∧ (∀ j, r ≠ .kw j) ∧ ∀ k v, r ≠ .lut k v) : regMap.lookup off.toNat = some r := by
  simp only [regAt] at h
  split at h
  · exact absurd h.symm (hr.2.2 _ _)
  · split at h
    · split at h
      · exact absurd h.symm (hr.2.1 _)
      · exact absurd h.symm hr.1
    · split at h
      · rename_i r' hl
        rw [hl, h]
      · exact absurd h.symm hr.1

theorem offset_of_cmd {c : Config} {off : BitVec 12} (h : regAt c off = .cmd) : off = 0x004#12 := by
  have hl := regAt_named h (by simp)
  clear h
  revert hl
  revert off
  decide +kernel

theorem offset_of_irqst {c : Config} {off : BitVec 12} (h : regAt c off = .irqst) : off = 0x018#12 := by
  have hl := regAt_named h (by simp)
  clear h
  revert hl
  revert off
  decide +kernel

/-- A register that the write lock covers is reached only at an offset it covers (R22, R44). -/
theorem lockedOffset_of_locked {c : Config} {off : BitVec 12} (h : (regAt c off).locked = true) :
    lockedOffset c off := by
  by_cases h4 : 0x400 ≤ off.toNat
  · exact .inr (.inr h4)
  · by_cases h1 : 0x100 ≤ off.toNat
    · refine .inr (.inl ⟨h1, ?_⟩)
      by_contra hn
      rw [regAt, if_neg h4, if_pos h1, if_neg hn] at h
      cases h
    · left
      rw [regAt, if_neg h4, if_neg h1] at h
      clear h1 h4
      revert off
      decide +kernel

/-- The registers outside the windows that the write lock covers, and the windows (R44). -/
theorem locked_of_lockedOffset {c : Config} {off : BitVec 12} (ha : off.toNat % 4 = 0) (h : lockedOffset c off) :
    (regAt c off).locked = true := by
  rcases h with h | ⟨h1, h2⟩ | h
  · simp only [List.mem_cons, List.not_mem_nil, or_false] at h
    rcases h with rfl | rfl | rfl | rfl | rfl | rfl | rfl | rfl | rfl | rfl | rfl <;> rfl
  · by_cases h4 : 0x400 ≤ off.toNat
    · rw [regAt_table h4]
      rfl
    · rw [regAt_weight h1 h2 (by omega)]
      rfl
  · rw [regAt_table h]
    rfl

/-! What is seen of a command in execution does not depend on the moves to come. -/

/-- A command's effect depends on the operands, the weights, the tables, the line buffer and frame memory alone. -/
theorem commandEffect_other (i : Instr) (s : State) (status : BitVec 3) (errcode : BitVec 4) (lastcmd : Word)
    (irqen irqst : BitVec 3) (dstLen : Word) (phase : Phase) (inputs : List Event) (hostData : Word) (disturbed : Bool)
    (freeCount : Nat) :
    commandEffect i { s with
      status := status, errcode := errcode, lastcmd := lastcmd, irqen := irqen, irqst := irqst, dstLen := dstLen,
      phase := phase, inputs := inputs, hostData := hostData, disturbed := disturbed, freeCount := freeCount } =
      commandEffect i s := by
  refine commandEffect_eq (s := s) ?_ ?_ ?_ ?_ ?_ i
  · exact ⟨rfl, rfl, rfl, rfl, rfl, rfl, rfl, rfl, rfl, rfl, rfl⟩
  all_goals rfl

@[simp] theorem commandEffect_inputs (i : Instr) (s : State) (r : List Event) :
    commandEffect i { s with inputs := r } = commandEffect i s :=
  commandEffect_other i s ..

@[simp] theorem inFlight_inputs (s : State) (r : List Event) : inFlight { s with inputs := r } = inFlight s := by
  simp only [inFlight, commandEffect_inputs]

@[simp] theorem inDstRegion_inputs (s : State) (r : List Event) (a : Nat) :
    inDstRegion { s with inputs := r } a = inDstRegion s a := by
  simp only [inDstRegion, inFlight_inputs]
  rfl

@[simp] theorem inSrcRegion_inputs (s : State) (r : List Event) (a : Nat) :
    inSrcRegion { s with inputs := r } a = inSrcRegion s a := by
  simp only [inSrcRegion, inFlight_inputs]
  rfl

@[simp] theorem memSeen_inputs (s : State) (r : List Event) (a : Nat) :
    memSeen { s with inputs := r } a = memSeen s a := by
  simp only [memSeen, inFlight_inputs, inDstRegion_inputs]

@[simp] theorem lutSeen_inputs (s : State) (r : List Event) (k : Fin 3) (v : Fin 256) :
    lutSeen { s with inputs := r } k v = lutSeen s k v := by
  simp only [lutSeen, inFlight_inputs, State.lutEntry]

@[simp] theorem readReg_inputs (s : State) (r : List Event) (x : Reg) :
    readReg { s with inputs := r } x = readReg s x := by
  cases x <;> simp only [readReg, lutSeen_inputs]

@[simp] theorem landedCells_inputs (s : State) (r : List Event) : landedCells { s with inputs := r } = landedCells s := by
  simp only [landedCells, inFlight_inputs, State.db]

@[simp] theorem landedTables_inputs (s : State) (r : List Event) :
    landedTables { s with inputs := r } = landedTables s := by
  simp only [landedTables, inFlight_inputs, State.lutEntry]

/-- The command in execution, with its effect. -/
theorem inFlight_some {s : State} {e : Effect} (h : inFlight s = some e) :
    s.phase = .busy ∧ commandEffect (decode s.lastcmd) s = .ok e := by
  cases hp : s.phase with
  | idle => simp [inFlight, hp] at h
  | busy =>
    refine ⟨rfl, ?_⟩
    simp only [inFlight, hp] at h
    cases hc : commandEffect (decode s.lastcmd) s with
    | error k => rw [hc] at h; cases h
    | ok e' => rw [hc] at h; obtain rfl := Option.some.inj h; rfl

theorem inFlight_idle {s : State} (h : s.phase = .idle) : inFlight s = none := by simp only [inFlight, h]

theorem inFlight_ok {s : State} {e : Effect} (hp : s.phase = .busy) (h : commandEffect (decode s.lastcmd) s = .ok e) :
    inFlight s = some e := by
  simp only [inFlight, hp, h]
  rfl

theorem inFlight_error {s : State} {k : ErrKind} (h : commandEffect (decode s.lastcmd) s = .error k) :
    inFlight s = none := by
  cases hp : s.phase with
  | idle => exact inFlight_idle hp
  | busy =>
    simp only [inFlight, hp, h]
    rfl

/-- With no `BUILD` in execution a host read of a table entry returns the entry (R45, R333). -/
theorem lutSeen_settled {s : State} (h : ¬ (s.phase = .busy ∧ (decode s.lastcmd).isBuild = true)) (k : Fin 3)
    (v : Fin 256) : lutSeen s k v = s.lutEntry k v := by
  rw [lutSeen]
  cases hin : inFlight s with
  | none => rfl
  | some e =>
    obtain ⟨hp, hc⟩ := inFlight_some hin
    have hb : (decode s.lastcmd).isBuild = false := Bool.eq_false_iff.2 fun hb => h ⟨hp, hb⟩
    have hl : e.lut = none := by
      rcases effect_cases hc with ⟨_, _, _, _, _, _, _, _, hl, _⟩ | ⟨_, _, _, _, _, hl⟩
      · exact hl
      · rw [hb] at hl
        simpa using hl
    simp only [hl]


theorem inDstRegion_iff {s : State} {a : Nat} :
    inDstRegion s a = true ↔
      ∃ e, inFlight s = some e ∧ s.dstBase.toNat ≤ a ∧ a < s.dstBase.toNat + e.outLen := by
  cases h : inFlight s with
  | none => simp [inDstRegion, h]
  | some e =>
    simp only [inDstRegion, h, Bool.and_eq_true, decide_eq_true_eq]
    exact ⟨fun h => ⟨e, rfl, h⟩, fun ⟨_, he, h⟩ => Option.some.inj he ▸ h⟩

theorem inSrcRegion_iff {s : State} {a : Nat} :
    inSrcRegion s a = true ↔
      ∃ e, inFlight s = some e ∧ e.outLen ≠ 0 ∧ s.srcBase.toNat ≤ a ∧ a < s.srcBase.toNat + s.srcLen.toNat := by
  cases h : inFlight s with
  | none => simp [inSrcRegion, h]
  | some e =>
    simp only [inSrcRegion, h, Bool.and_eq_true, decide_eq_true_eq, and_assoc]
    exact ⟨fun h => ⟨e, rfl, h⟩, fun ⟨_, he, h⟩ => Option.some.inj he ▸ h⟩

/-! The moves. -/

theorem step_regWrite {s : State} {off : BitVec 12} {v : Word} {rest : List Event}
    (h : s.inputs = .regWrite off v :: rest) (ho : off.toNat % 4 = 0) :
    step s = .next (writeReg { s with inputs := rest } (regAt s.cfg off) v) := by
  simp only [step, h, takeMove, hostWrite]
  exact if_neg (not_not.2 ho)

theorem step_regRead {s : State} {off : BitVec 12} {rest : List Event} (h : s.inputs = .regRead off :: rest)
    (ho : off.toNat % 4 = 0) :
    step s = .next { s with
      inputs := rest, hostData := readReg s (regAt s.cfg off), freeCount := s.freeCount + 1 } := by
  simp only [step, h, takeMove, hostRead, readReg_inputs]
  exact if_neg (not_not.2 ho)

theorem step_memWrite {s : State} {a : Nat} {b : Byte} {rest : List Event} (h : s.inputs = .memWrite a b :: rest)
    (ha : a < s.cfg.fmBytes) :
    step s = .next { s with
      inputs := rest, fm := s.fm.write a b, disturbed := s.disturbed || inSrcRegion s a || inDstRegion s a } := by
  simp only [step, h, takeMove, hostMemWrite, if_pos ha, inSrcRegion_inputs, inDstRegion_inputs]

theorem step_memRead {s : State} {a : Nat} {rest : List Event} (h : s.inputs = .memRead a :: rest)
    (ha : a < s.cfg.fmBytes) :
    step s = .next { s with
      inputs := rest, hostData := (memSeen s a).setWidth 32, freeCount := s.freeCount + 1 } := by
  simp only [step, h, takeMove, hostMemRead, if_pos ha, memSeen_inputs]

theorem step_reset {s : State} {rest : List Event} (h : s.inputs = .reset :: rest) :
    step s = .next (resetMove { s with inputs := rest }) := by
  simp only [step, h, takeMove]

/-- The engine's complete step, with the mark of R84 taken into account. -/
def engineEnd (s : State) : State :=
  let t := complete (commandEffect (decode s.lastcmd) s) s
  if s.disturbed then scramble s t else t

theorem engineMove_busy {s : State} (h : s.phase = .busy) : engineMove s = .next (engineEnd s) := by
  simp only [engineMove, h, engineStep, exec_eq]
  rfl

theorem engineMove_idle {s : State} (h : s.phase = .idle) : engineMove s = .next s := by simp only [engineMove, h]

theorem step_engine {s : State} {rest : List Event} (h : s.inputs = .engine :: rest) :
    step s = engineMove { s with inputs := rest } := by
  simp only [step, h, takeMove]

theorem step_nil {s : State} (h : s.inputs = []) : step s = engineMove s := by simp only [step, h]

/-- Everything a step can do: a register write, a read, a write or a read of a byte, a complete step, nothing, or
reset. -/
theorem step_cases {s t : State} (h : step s = .next t) :
    (∃ off v rest, s.inputs = .regWrite off v :: rest ∧ off.toNat % 4 = 0 ∧
        t = writeReg { s with inputs := rest } (regAt s.cfg off) v) ∨
      (∃ rest d, t = { s with inputs := rest, hostData := d, freeCount := s.freeCount + 1 } ∧
        ((∃ off, s.inputs = .regRead off :: rest ∧ off.toNat % 4 = 0) ∨
          ∃ a, s.inputs = .memRead a :: rest ∧ a < s.cfg.fmBytes)) ∨
      (∃ a b rest, s.inputs = .memWrite a b :: rest ∧ a < s.cfg.fmBytes ∧
        t = { s with
          inputs := rest, fm := s.fm.write a b, disturbed := s.disturbed || inSrcRegion s a || inDstRegion s a }) ∨
      (∃ rest, (s.inputs = .engine :: rest ∨ s.inputs = [] ∧ rest = []) ∧
        ((s.phase = .busy ∧ t = engineEnd { s with inputs := rest }) ∨ (s.phase = .idle ∧ t = { s with inputs := rest }))) ∨
      ∃ rest, s.inputs = .reset :: rest ∧ t = resetMove { s with inputs := rest } := by
  have engine : ∀ u : State, engineMove u = .next t →
      (u.phase = .busy ∧ t = engineEnd u) ∨ (u.phase = .idle ∧ t = u) := by
    intro u hu
    cases hp : u.phase with
    | busy =>
      rw [engineMove_busy hp] at hu
      exact .inl ⟨rfl, (Host.Outcome.next.inj hu).symm⟩
    | idle =>
      rw [engineMove_idle hp] at hu
      exact .inr ⟨rfl, (Host.Outcome.next.inj hu).symm⟩
  cases hi : s.inputs with
  | nil =>
    rw [step_nil hi] at h
    refine .inr (.inr (.inr (.inl ⟨[], .inr ⟨rfl, rfl⟩, ?_⟩)))
    have e : ({ s with inputs := [] } : State) = s := by
      cases s
      cases hi
      rfl
    rw [e]
    exact engine s h
  | cons e rest =>
    cases e with
    | regWrite off v =>
      by_cases ho : off.toNat % 4 = 0
      · rw [step_regWrite hi ho] at h
        exact .inl ⟨off, v, rest, rfl, ho, (Host.Outcome.next.inj h).symm⟩
      · simp only [step, hi, takeMove, hostWrite] at h
        rw [if_pos ho] at h
        cases h
    | regRead off =>
      by_cases ho : off.toNat % 4 = 0
      · rw [step_regRead hi ho] at h
        exact .inr (.inl ⟨rest, _, (Host.Outcome.next.inj h).symm, .inl ⟨off, rfl, ho⟩⟩)
      · simp only [step, hi, takeMove, hostRead] at h
        rw [if_pos ho] at h
        cases h
    | memWrite a b =>
      by_cases ha : a < s.cfg.fmBytes
      · rw [step_memWrite hi ha] at h
        exact .inr (.inr (.inl ⟨a, b, rest, rfl, ha, (Host.Outcome.next.inj h).symm⟩))
      · simp only [step, hi, takeMove, hostMemWrite, if_neg ha] at h
        cases h
    | memRead a =>
      by_cases ha : a < s.cfg.fmBytes
      · rw [step_memRead hi ha] at h
        exact .inr (.inl ⟨rest, _, (Host.Outcome.next.inj h).symm, .inr ⟨a, rfl, ha⟩⟩)
      · simp only [step, hi, takeMove, hostMemRead, if_neg ha] at h
        cases h
    | engine =>
      rw [step_engine hi] at h
      have := engine { s with inputs := rest } h
      exact .inr (.inr (.inr (.inl ⟨rest, .inl rfl, this⟩)))
    | reset =>
      rw [step_reset hi] at h
      exact .inr (.inr (.inr (.inr ⟨rest, rfl, (Host.Outcome.next.inj h).symm⟩)))

/-- One step more of a run. -/
theorem run_succ {M : Host.Core} {k : Nat} {s t : M.State} (h : M.step s = .next t) : M.run (k + 1) s = M.run k t := by
  simp only [Host.Core.run, h]

end Sys2Proof.Machine
end

