-- ==== Sys2Proof/Laws/Tone.lean ====
section
/-! SUPPORT. Reading an entry of tables given entry by entry (R42, R180). -/

namespace Sys2Proof.Machine

@[simp] theorem tablesOf_entry (f : Fin 3 → Fin 256 → Byte) (k : Fin 3) (v : Fin 256) : (tablesOf f)[k][v] = f k v := by
  simp [tablesOf]

/-- Every entry after a `BUILD` of one table for the three channels. -/
theorem completeOk_build_entry (f : Nat → Byte) (s : State) (k : Fin 3) (v : Fin 256) :
    (completeOk (buildEffect (sameTables f)) s).lutEntry k v = f v.val := by
  show (sameTables f)[k][v] = _
  rw [sameTables, tablesOf_entry]

/-- The same, from the effect of the command. -/
theorem exec_build_entry {i : Instr} {s t : State} {f : Nat → Byte} (h : exec i s = .next t)
    (hc : commandEffect i s = .ok (buildEffect (sameTables f))) (k : Fin 3) (v : Fin 256) :
    t.lutEntry k v = f v.val := by
  rw [exec_ok hc] at h
  obtain rfl := Host.Outcome.next.inj h
  exact completeOk_build_entry f s k v

end Sys2Proof.Machine
end

