-- ==== Sys2Proof/Machine/HostScript.lean ====
section
/-! DEFINITION. The textual notation of commands (R110) and the host statements and pseudo-instructions (R111, R112) as
the moves they stand for. Host control flow (`IF`, labels) belongs to the host (R50, R111) and is not here. -/

namespace Sys2Proof.Machine

/-- The `.MED` and `.MONO` modifiers, in that order (R110). -/
def modifierText (med mono : Bool) : String := (if med then ".MED" else "") ++ (if mono then ".MONO" else "")

/-- `.word number` (R110), the number in decimal. -/
def wordText (w : Word) : String := ".word " ++ toString w.toNat

/-- The channel operand of `GRAY.SIMPLE` (R110). -/
def channelText (ch : BitVec 4) : String :=
  if ch = 0#4 then "R" else if ch = 1#4 then "G" else if ch = 2#4 then "B" else toString ch.toNat

/-- A command as R110 writes it; reserved words and unknown kinds and modes have the `.word` form only. -/
def commandText (i : Instr) : String :=
  match i with
  | .nop => "NOP"
  | .conv mono med => "CONV" ++ modifierText med mono
  | .buildBrightness => "BUILD.BRIGHTNESS"
  | .buildContrast => "BUILD.CONTRAST"
  | .buildPosterize => "BUILD.POSTERIZE"
  | .buildThreshold => "BUILD.THRESHOLD"
  | .buildSolarize => "BUILD.SOLARIZE"
  | .buildPseudocolor => "BUILD.PSEUDOCOLOR"
  | .buildInvert => "BUILD.INVERT"
  | .apply mono => "APPLY" ++ modifierText false mono
  | .grayLuma mono => "GRAY.LUMA" ++ modifierText false mono
  | .grayAverage mono => "GRAY.AVERAGE" ++ modifierText false mono
  | .graySimple ch mono => "GRAY.SIMPLE" ++ modifierText false mono ++ " " ++ channelText ch
  | .valid => "VALID"
  | .buildUnknown7 => wordText (encode .buildUnknown7)
  | .buildUnknown8to15 sub => wordText (encode (.buildUnknown8to15 sub))
  | .grayUnknown3 arg mono => wordText (encode (.grayUnknown3 arg mono))
  | .grayUnknown4to7 sub arg mono => wordText (encode (.grayUnknown4to7 sub arg mono))
  | .grayUnknown8to15 sub arg mono => wordText (encode (.grayUnknown8to15 sub arg mono))
  | .illegal w => wordText w

/-- The offset of a register (R22). An unmapped offset has no name in R111; 0x01C stands for it. -/
def offsetOf (r : Reg) : BitVec 12 :=
  match r with
  | .id => 0x000#12
  | .cmd => 0x004#12
  | .status => 0x008#12
  | .errcode => 0x00C#12
  | .lastcmd => 0x010#12
  | .irqen => 0x014#12
  | .irqst => 0x018#12
  | .srcBase => 0x020#12
  | .srcLen => 0x024#12
  | .dstBase => 0x028#12
  | .dstLen => 0x02C#12
  | .width => 0x030#12
  | .height => 0x034#12
  | .kradius => 0x040#12
  | .klen => 0x044#12
  | .divNum => 0x048#12
  | .divDen => 0x04C#12
  | .lutParam => 0x050#12
  | .kw j => BitVec.ofNat 12 (0x100 + 4 * j)
  | .lut k v => BitVec.ofNat 12 (0x400 + 4 * (256 * k.val + v.val))
  | .unmapped => 0x01C#12

/-- `WR reg, value`. -/
def stmtWr (r : Reg) (v : Word) : List Event := [.regWrite (offsetOf r) v]

/-- `RD reg`. -/
def stmtRd (r : Reg) : List Event := [.regRead (offsetOf r)]

/-- `CMD command`. -/
def stmtCmd (i : Instr) : List Event := stmtWr .cmd (encode i)

/-- `WAIT`: the engine completes, and the host's last read of `STATUS` sees it (R83; log entry 6). -/
def stmtWait : List Event := .engine :: stmtRd .status

/-- `FMW addr, b0 b1 ...`. -/
def stmtFmw (a : Nat) : List Byte → List Event
  | [] => []
  | b :: bs => .memWrite a b :: stmtFmw (a + 1) bs

/-- `FMR addr, n`. -/
def stmtFmr (a n : Nat) : List Event := (List.range n).map fun i => .memRead (a + i)

/-- `SRC base, width, height, len`. -/
def pseudoSrc (base width height len : Word) : List Event :=
  stmtWr .srcBase base ++ stmtWr .width width ++ stmtWr .height height ++ stmtWr .srcLen len

/-- `DST base`. -/
def pseudoDst (base : Word) : List Event := stmtWr .dstBase base

/-- `WR KW[j], w` for the weights in order, from `KW[j]` on. -/
def weightWrites (j : Nat) : List Word → List Event
  | [] => []
  | w :: ws => stmtWr (.kw j) w ++ weightWrites (j + 1) ws

/-- `KERNEL r, w0, w1, ...`. -/
def pseudoKernel (r : Word) (ws : List Word) : List Event :=
  stmtWr .kradius r ++ stmtWr .klen (BitVec.ofNat 32 ws.length) ++ weightWrites 0 ws

/-- `DIV num, den`; `DIV num` is `DIV num, 1`. -/
def pseudoDiv (num den : Word) : List Event := stmtWr .divNum num ++ stmtWr .divDen den

/-- `PARAM v`. -/
def pseudoParam (v : Word) : List Event := stmtWr .lutParam v

/-- `PARAM.Q16 i, f`. -/
def pseudoParamQ16 (i f : Word) : List Event := stmtWr .lutParam (i * 65536#32 + f)

/-- `RUN command`. -/
def pseudoRun (i : Instr) : List Event := stmtCmd i ++ stmtWait

/-- `CURVE.kind[.MONO] [v]`. -/
def pseudoCurve (build : Instr) (mono : Bool) (param : Option Word) : List Event :=
  (match param with
    | none => []
    | some v => pseudoParam v) ++ pseudoRun build ++ pseudoRun (.apply mono)

/-- `IRQACK mask`. -/
def pseudoIrqAck (mask : Word) : List Event := stmtWr .irqst mask

end Sys2Proof.Machine
end

