-- ==== Sys2Proof/Tests/Slice0.lean ====
section
/-! SUPPORT. Tests: what `wellFormed` refuses, a written-out word for every command, one step of each command from the
spec's own vectors (spec/95), and for every statement with hypotheses a state that meets them. -/

namespace Sys2Proof.Tests

open Sys2Proof Sys2Proof.Machine

-- One test at a time: `decide +kernel` waits for the kernel, and each waiting proof would hold a thread's stack.
set_option Elab.async false

/-! ## States to test on -/

/-- A small instance: `RMAX = 2`, six pixels to a line, 128 bytes of frame memory. -/
def cfg : Config where
  rmax := 2
  wmax := 6
  fmBytes := 128
  round := .tiesToEven
  monoPick := 2
  pseudoRom := tablesOf fun k v => BitVec.ofNat 8 (v.val + 10 * k.val)

/-- An idle block with every register at its reset value, identity tables and zero weights. -/
def idle : State where
  cfg := cfg
  status := 0
  errcode := 0
  lastcmd := 0
  irqen := 0
  irqst := 0
  srcBase := 0
  srcLen := 0
  dstBase := 0
  dstLen := 0
  width := 0
  height := 0
  kradius := 0
  klen := 0
  divNum := 1
  divDen := 1
  lutParam := 0
  kw := List.replicate 25 0
  lut := tablesOf fun _ v => BitVec.ofNat 8 v.val
  phase := .idle
  lb := List.replicate 5 ⟨none, List.replicate 24 0⟩
  fm := []
  inputs := []
  hostData := 0
  disturbed := false
  freeCount := 0

/-- Frame memory with the bytes from address `a` up. -/
def bytesAt (a : Nat) (bs : List Nat) : Memory :=
  Memory.writeAll [] ((List.range bs.length).map fun i => (a + i, BitVec.ofNat 8 (bs.getD i 0)))

/-- A `w` by `h` image from address 0 up, the destination from 64 up. -/
def image (w h : Nat) (bs : List Nat) : State :=
  { idle with
    width := BitVec.ofNat 32 w, height := BitVec.ofNat 32 h, srcLen := BitVec.ofNat 32 bs.length, dstBase := 64
    fm := bytesAt 0 bs }

/-- A kernel of radius `r` and a divisor. -/
def withKernel (s : State) (r : Nat) (ws : List Int) (num den : Int) : State :=
  { s with
    kradius := BitVec.ofNat 32 r, klen := BitVec.ofNat 32 ws.length
    kw := ws.map (BitVec.ofInt 16) ++ List.replicate (25 - ws.length) 0
    divNum := BitVec.ofInt 32 num, divDen := BitVec.ofInt 32 den }

/-- What one complete step leaves, seen through `f`. -/
def after (i : Instr) (s : State) (f : State → α) : Option α :=
  match exec i s with
  | .next t => some (f t)
  | .fault _ => none
  | .refused _ => none

/-- What one step leaves, seen through `f`. -/
def afterStep (s : State) (f : State → α) : Option α :=
  match step s with
  | .next t => some (f t)
  | .fault _ => none
  | .refused _ => none

/-- The first `n` destination bytes. -/
def dst (n : Nat) (s : State) : List Nat := (List.range n).map fun i => (s.fm.read (64 + i)).toNat

/-- Entries of the second table. -/
def entries (vs : List (Fin 256)) (s : State) : List Nat := vs.map fun v => (s.lutEntry 1 v).toNat

/-- The registers a complete step writes. -/
def report (s : State) : Nat × Nat × Nat × Nat :=
  (s.status.toNat, s.errcode.toNat, s.dstLen.toNat, s.irqst.toNat)

/-! ## `wellFormed` refuses what no word encodes -/

theorem test_wellFormed_refuses_build_kind_below_8 : (Instr.buildUnknown8to15 7#4).wellFormed = false := by decide
theorem test_wellFormed_refuses_gray_mode_below_4 : (Instr.grayUnknown4to7 3#4 0#4 false).wellFormed = false := by decide
theorem test_wellFormed_refuses_gray_mode_above_7 : (Instr.grayUnknown4to7 8#4 0#4 false).wellFormed = false := by decide
theorem test_wellFormed_refuses_gray_mode_below_8 : (Instr.grayUnknown8to15 7#4 0#4 false).wellFormed = false := by decide
theorem test_wellFormed_refuses_illegal_nop : (Instr.illegal 0x00000000#32).wellFormed = false := by decide
theorem test_wellFormed_refuses_illegal_unknown : (Instr.illegal 0x00000702#32).wellFormed = false := by decide

/-! ## Decoding: words written out bit by bit from R101 to R105, as RSV MED MONO ARG SUB OP -/

theorem test_decode_nop : decode 0b00000000000000_0_0_0000_0000_00000000#32 = .nop := by decide
theorem test_decode_conv : decode 0b00000000000000_1_0_0000_0000_00000001#32 = .conv false true := by decide
theorem test_decode_brightness : decode 0b00000000000000_0_0_0000_0000_00000010#32 = .buildBrightness := by decide
theorem test_decode_contrast : decode 0b00000000000000_0_0_0000_0001_00000010#32 = .buildContrast := by decide
theorem test_decode_posterize : decode 0b00000000000000_0_0_0000_0010_00000010#32 = .buildPosterize := by decide
theorem test_decode_threshold : decode 0b00000000000000_0_0_0000_0011_00000010#32 = .buildThreshold := by decide
theorem test_decode_solarize : decode 0b00000000000000_0_0_0000_0100_00000010#32 = .buildSolarize := by decide
theorem test_decode_pseudocolor : decode 0b00000000000000_0_0_0000_0101_00000010#32 = .buildPseudocolor := by decide
theorem test_decode_invert : decode 0b00000000000000_0_0_0000_0110_00000010#32 = .buildInvert := by decide
theorem test_decode_build_7 : decode 0b00000000000000_0_0_0000_0111_00000010#32 = .buildUnknown7 := by decide
theorem test_decode_build_8 : decode 0b00000000000000_0_0_0000_1000_00000010#32 = .buildUnknown8to15 8#4 := by decide
theorem test_decode_apply : decode 0b00000000000000_0_1_0000_0000_00000011#32 = .apply true := by decide
theorem test_decode_luma : decode 0b00000000000000_0_1_0000_0000_00000100#32 = .grayLuma true := by decide
theorem test_decode_average : decode 0b00000000000000_0_0_0000_0001_00000100#32 = .grayAverage false := by decide
theorem test_decode_simple : decode 0b00000000000000_0_1_0010_0010_00000100#32 = .graySimple 2#4 true := by decide
theorem test_decode_gray_3 : decode 0b00000000000000_0_0_0001_0011_00000100#32 = .grayUnknown3 1#4 false := by decide
theorem test_decode_gray_6 : decode 0b00000000000000_0_1_1000_0110_00000100#32 = .grayUnknown4to7 6#4 8#4 true := by decide
theorem test_decode_gray_9 : decode 0b00000000000000_0_0_0010_1001_00000100#32 = .grayUnknown8to15 9#4 2#4 false := by decide
theorem test_decode_valid : decode 0b00000000000000_0_0_0000_0000_00000101#32 = .valid := by decide
theorem test_decode_illegal : decode 0b00000000000000_1_0_0000_0011_00000100#32 = .illegal 0x00020304#32 := by decide

/-! ## One complete step of each command (the vector of spec/95 in the comment) -/

/-- Trace T1. -/
theorem test_nop : after .nop { idle with phase := .busy, status := 1 } report = some (2, 0, 0, 1) := by decide

/-- V-E12: a source that ends at the last byte; V-E10: no wrap of `N`. -/
theorem test_valid : after .valid { image 2 2 [] with srcLen := 16, srcBase := 112 } report = some (2, 0, 0, 1) ∧
    after .valid { idle with width := 0x10000, height := 0x10000 } report = some (6, 2, 0, 3) := by decide +kernel

/-- V-E13: one byte too far. -/
theorem test_valid_range : after .valid { image 2 2 [] with srcLen := 16, srcBase := 113 } report = some (6, 7, 0, 3) := by
  decide +kernel

/-- V-G7: 28.5 to even, alpha kept; V-G2 with `MONO`. -/
theorem test_luma : after (.grayLuma false) (image 1 1 [0, 0, 250, 7]) (dst 4) = some [28, 28, 28, 7] ∧
    after (.grayLuma true) (image 1 1 [30, 60, 90, 255]) (dst 2) = some [54, 0] := by decide +kernel

/-- V-E17: the regions share a byte. -/
theorem test_luma_overlap :
    after (.grayLuma false) { image 2 2 [] with srcLen := 16, dstBase := 15 } report = some (6, 8, 0, 3) := by decide +kernel

/-- V-G13 and V-G11. -/
theorem test_average : after (.grayAverage false) (image 1 1 [255, 255, 254, 0]) (dst 4) = some [255, 255, 255, 0] ∧
    after (.grayAverage false) (image 1 1 [1, 1, 0, 9]) (dst 4) = some [1, 1, 1, 9] := by decide +kernel

/-- V-G4 and V-G5. -/
theorem test_simple : after (.graySimple 1#4 false) (image 1 1 [30, 60, 90, 255]) (dst 4) = some [60, 60, 60, 255] ∧
    after (.graySimple 2#4 true) (image 1 1 [30, 60, 90, 255]) (dst 2) = some [90, 0] := by decide +kernel

/-- V-E36 and V-E37: depth before parameter. -/
theorem test_simple_channel : after (.graySimple 3#4 false) (image 1 1 [1, 2, 3, 4]) report = some (6, 5, 0, 3) ∧
    after (.graySimple 3#4 false) (image 1 1 [1]) report = some (6, 2, 0, 3) := by decide +kernel

/-- V-T2. -/
theorem test_brightness : after .buildBrightness { idle with lutParam := 0xFFFFFFD8 } (entries [0, 39, 40, 41, 255]) =
    some [0, 0, 0, 1, 215] := by decide +kernel

/-- V-T6. -/
theorem test_contrast : after .buildContrast { idle with lutParam := 0x00018000 }
    (entries [0, 43, 85, 127, 128, 129, 171, 213, 255]) = some [0, 0, 64, 126, 128, 130, 192, 255, 255] := by decide +kernel

/-- V-T12. -/
theorem test_posterize : after .buildPosterize { idle with lutParam := 5 } (entries [51, 52, 103, 154, 204, 205]) =
    some [0, 64, 128, 192, 192, 255] := by decide +kernel

/-- V-E38. -/
theorem test_posterize_one_level : after .buildPosterize { idle with lutParam := 1 } report = some (6, 5, 0, 3) := by
  decide +kernel

/-- V-T16 and V-T19: the level is signed. -/
theorem test_threshold :
    after .buildThreshold { idle with lutParam := 128 } (entries [0, 127, 128, 255]) = some [0, 0, 255, 255] ∧
      after .buildThreshold { idle with lutParam := 0xFFFFFFFF } (entries [0]) = some [255] := by decide +kernel

/-- V-T21. -/
theorem test_solarize : after .buildSolarize idle (entries [0, 1, 42, 85, 86, 128, 170, 171, 200, 255]) =
    some [255, 252, 129, 0, 2, 128, 254, 254, 167, 2] := by decide +kernel

/-- V-T23, with the pseudocolor tables of the small instance. -/
theorem test_pseudocolor : after .buildPseudocolor idle (entries [0, 7, 255]) = some [10, 17, 9] := by decide +kernel

/-- V-T22. -/
theorem test_invert : after .buildInvert idle (entries [0, 100, 255]) = some [255, 155, 0] := by decide +kernel

/-- The rows 0x00000702 and 0x00000F02 of part 2. -/
theorem test_build_unknown : after .buildUnknown7 idle report = some (6, 4, 0, 3) ∧
    after (.buildUnknown8to15 15#4) idle report = some (6, 4, 0, 3) := by decide

/-- The row 0x00001304 of part 2, and its neighbours. -/
theorem test_gray_unknown : after (.grayUnknown3 1#4 false) idle report = some (6, 4, 0, 3) ∧
    after (.grayUnknown4to7 7#4 0#4 true) idle report = some (6, 4, 0, 3) ∧
    after (.grayUnknown8to15 15#4 3#4 false) idle report = some (6, 4, 0, 3) := by decide

/-- The row 0xFFFFFFFF of part 2. -/
theorem test_illegal : after (.illegal 0xFFFFFFFF#32) idle report = some (6, 6, 0, 3) := by decide

/-- V-A8: a table for each channel, and the alpha passed through. -/
theorem test_apply : after (.apply false)
    { image 1 1 [10, 20, 30, 40] with
      lut := tablesOf fun k v => BitVec.ofNat 8 (if k = 0 then v.val else if k = 1 then 0 else 255 - v.val) } (dst 4) =
    some [10, 0, 225, 40] := by decide +kernel

/-- V-A6: solarize on a 1-channel source, full and monochrome. -/
theorem test_apply_one_channel :
    after (.apply false) { image 1 1 [86] with lut := sameTables solarizeEntry } (dst 4) = some [2, 2, 2, 255] ∧
      after (.apply true) { image 1 1 [86] with lut := sameTables solarizeEntry } (dst 2) = some [2, 0] := by decide +kernel

/-- The image `m43`. -/
def m43 : State := image 4 3 [10, 20, 30, 40, 50, 60, 70, 80, 90, 100, 110, 120]

/-- The image `m5`. -/
def m5 : State :=
  image 5 5 [10, 10, 10, 10, 10, 10, 200, 10, 10, 10, 10, 10, 10, 12, 10, 10, 10, 14, 10, 10, 10, 10, 10, 10, 10]

/-- V-C3: the window runs along a row first. V-C6n: a negative rational divisor, clamped both ways. -/
theorem test_conv : after (.conv true false) (withKernel m43 1 [0, 0, 0, 0, 0, 1, 0, 0, 0] 1 1) (dst 12) =
      some [10, 20, 30, 40, 50, 70, 80, 80, 90, 100, 110, 120] ∧
    after (.conv true false) (withKernel m5 1 [-1, -1, -1, -1, 8, -1, -1, -1, -1] (-9) 2) (dst 25) =
      some [10, 10, 10, 10, 10, 10, 0, 43, 0, 10, 10, 43, 44, 0, 10, 10, 1, 0, 1, 10, 10, 10, 10, 10, 10] := by
  decide +kernel

/-- V-C8, with a weight count that only median mode accepts, and the line buffer of R266 (3) after five rows. -/
theorem test_conv_median : after (.conv true true) (withKernel m5 1 [7] 1 1) (dst 25) = some (List.replicate 25 10) ∧
    after (.conv true true) (withKernel m43 1 [7] 1 1) (fun t => t.lb.map (·.tag)) =
      some [some 0, some 1, some 2, none, none] := by decide +kernel

/-! ## One step of the register port -/

/-- Trace T2: a locked write sets `OVR`, and `IRQEN` is not locked. -/
theorem test_write_lock :
    afterStep { idle with phase := .busy, inputs := [.regWrite 0x050#12 7#32] } (fun t => (t.lutParam, t.irqst)) =
      some (0#32, 4#3) ∧
    afterStep { idle with phase := .busy, inputs := [.regWrite 0x014#12 4#32] } (fun t => (t.irqen, t.irqst)) =
      some (4#3, 0#3) := by decide +kernel

/-- Trace T3: a weight keeps 16 bits and reads sign-extended. -/
theorem test_weight_window :
    afterStep { idle with inputs := [.regWrite 0x10C#12 0x0001FFFF#32] } (fun t => t.kw.getD 3 0) = some 0xFFFF#16 ∧
      afterStep { idle with kw := List.replicate 25 0xFFFF#16, inputs := [.regRead 0x10C#12] } (·.hostData) =
        some 0xFFFFFFFF#32 := by decide +kernel

/-- Trace T3: the last table entry is at 0xFFC; the first unmapped word after `KW` reads 0. -/
theorem test_table_window :
    afterStep { idle with inputs := [.regWrite 0xFFC#12 0x1234#32] } (fun t => t.lutEntry 2 255) = some 0x34#8 ∧
      afterStep { idle with hostData := 5, inputs := [.regRead 0x164#12] } (·.hostData) = some 0#32 := by decide +kernel

/-- Trace T1: a write of 1 clears an `IRQST` bit. -/
theorem test_irq_acknowledge :
    afterStep { idle with irqst := 3, inputs := [.regWrite 0x018#12 2#32] } (·.irqst) = some 1#3 := by decide +kernel

/-- R111, R112: `RUN CONV` is a write to `CMD`, the engine's step, and the host's read of `STATUS`. -/
theorem test_run_script : pseudoRun (.conv true true) =
    [.regWrite 0x004#12 0x00030001#32, .engine, .regRead 0x008#12] := by decide

/-! ## Witnesses: for each statement with hypotheses, states and operands that meet them -/

/-- What holds of `f` of the next state, from one evaluation. -/
theorem of_after {α : Type} {i : Instr} {s u : State} {f : State → α} {b : α} (h : after i s f = some b)
    (hu : exec i s = .next u) : f u = b := by
  rw [after, hu] at h
  exact Option.some.inj h

/-- A 2 by 2 image of depth 4 at 0, its full output at the last 16 bytes of frame memory. -/
def edge : State := { image 2 2 (List.range 16) with dstBase := 112 }

/-- A 2 by 2 image of depth 1 at the last 4 bytes of frame memory, its full output just below it. -/
def edge1 : State := { image 2 2 [] with srcLen := 4, srcBase := 124, dstBase := 108 }

/-- `edge` with `GRAY.LUMA` in execution and moves to come. -/
def busyEdge (moves : List Event) : State :=
  { edge with lastcmd := 0x00000004, status := 1, phase := .busy, inputs := moves }

theorem edge_source : SourceOk edge 4 := by constructor <;> decide
theorem edge_dest : DestOk edge false := by constructor <;> decide
theorem edge_dest_mono : DestOk { edge with dstBase := 124 } true := by constructor <;> decide
theorem edge_wf : edge.fm.wf = true := by decide +kernel
theorem edge1_source : SourceOk edge1 1 := by constructor <;> decide
theorem edge1_dest : DestOk edge1 false := by constructor <;> decide
theorem edge1_wf : edge1.fm.wf = true := by decide

theorem slots_fit {i : Nat} {x : LineSlot}
    (h : (List.replicate 5 ⟨none, List.replicate 24 0#8⟩ : LineBuffer)[i]? = some x) : slotFits cfg i x := by
  obtain rfl := List.eq_of_mem_replicate (List.mem_of_getElem? h)
  exact ⟨rfl, by rintro q ⟨⟩⟩

/-- The image `m43` with the Gaussian kernel. -/
def gauss : State := withKernel m43 1 [1, 2, 1, 2, 4, 2, 1, 2, 1] 16 1

theorem gauss_inv : gauss.Inv where
  cfgValid := by decide
  status := .inr (.inl ⟨rfl, .inl rfl, rfl⟩)
  weights := by decide
  slots := by decide
  slotsFit := fun _ _ => slots_fit
  memory := by decide +kernel
  memoryBelow := by decide +kernel
  calm := by decide

theorem gauss_source : SourceOk gauss 1 := by constructor <;> decide
theorem gauss_dest : DestOk gauss true := by constructor <;> decide
theorem gauss_dest_full : DestOk gauss false := by constructor <;> decide
theorem gauss_kernel : KernelOk gauss false := by constructor <;> decide
theorem gauss_wf : gauss.fm.wf = true := by decide +kernel

/-- A row of the widest line, of depth 1, and the largest radius. -/
def widest : State := withKernel (image 6 5 (List.range 30)) 2 (List.replicate 25 1) 25 1

theorem witness_DecodeInvertsEncode : (Instr.buildUnknown8to15 8#4).wellFormed = true ∧
    (Instr.buildUnknown8to15 15#4).wellFormed = true ∧ (Instr.grayUnknown4to7 4#4 15#4 true).wellFormed = true ∧
    (Instr.grayUnknown4to7 7#4 0#4 false).wellFormed = true ∧ (Instr.grayUnknown8to15 8#4 0#4 false).wellFormed = true ∧
    (Instr.grayUnknown8to15 15#4 15#4 true).wellFormed = true ∧ (Instr.illegal 0xFFFFFFFF#32).wellFormed = true ∧
    (Instr.illegal 0x00000006#32).wellFormed = true := by decide

theorem witness_OpcodeTableAgreesWithDecoder :
    ∃ a b, opcodeTable[17]? = some a ∧ opcodeTable[18]? = some b ∧ ∃ z, opcodeTable[19]? = some z := ⟨_, _, rfl, rfl, _, rfl⟩

theorem witness_ReservedWordsFailAsIllegal : reservedWord 0x00040000#32 = true ∧ reservedWord 0x00001104#32 = true ∧
    ({ idle with inputs := [.regWrite 0x004#12 0x00040000#32, .engine] } : State).phase = .idle := by decide

theorem witness_AcceptStepLatchesCommand :
    ({ idle with inputs := [.regWrite 0x004#12 2#32] } : State).phase = .idle ∧
      (busyEdge [.regWrite 0x004#12 2#32]).phase = .busy := by decide

theorem witness_EngineTurnRunsDecodedCommand :
    ((busyEdge [.engine]).phase = .busy ∧ (busyEdge [.engine]).disturbed = false) ∧
      ((busyEdge []).phase = .busy ∧ (busyEdge []).inputs = []) ∧ (Instr.grayLuma false).wellFormed = true ∧
      ({ busyEdge [.engine] with disturbed := true } : State).disturbed = true ∧
      ({ idle with inputs := [.engine] } : State).phase = .idle ∧ (idle.phase = .idle ∧ idle.inputs = []) := by decide

theorem witness_FailedCommandChangesFiveItems :
    commandEffect (.illegal 0xFFFFFFFF#32) idle = .error .illegalCommand ∧
      ∃ t, exec (.illegal 0xFFFFFFFF#32) idle = .next t ∧ t.errcode ≠ 0#4 := ⟨rfl, _, rfl, by decide⟩

theorem witness_CommandsChangeOnlyResults :
    (∃ t, exec .nop idle = .next t ∧ t.errcode = 0#4) ∧ (∃ t, exec .buildUnknown7 idle = .next t ∧ t.errcode ≠ 0#4) ∧
      Instr.nop.isBuild = false ∧ Instr.buildInvert.isConv = false ∧ Instr.buildInvert.depthOut = none :=
  ⟨⟨_, rfl, by decide⟩, ⟨_, rfl, by decide⟩, rfl, rfl, rfl⟩

theorem witness_NopCompletes :
    ({ idle with inputs := [.regWrite 0x004#12 0#32, .engine] } : State).phase = .idle := rfl

theorem witness_ValidCompletes : SourceOk edge 4 ∧ SourceOk edge1 1 := ⟨edge_source, edge1_source⟩

theorem witness_UnknownAndIllegalCommandsFail :
    (Instr.grayUnknown8to15 15#4 15#4 true).isUnknown = true ∧ (Instr.illegal 6#32).isIllegal = true := by decide

theorem witness_GrayLumaWritesLuminance : SourceOk edge 4 ∧ DestOk edge false ∧ edge.fm.wf = true :=
  ⟨edge_source, edge_dest, edge_wf⟩

theorem witness_GrayAverageWritesMean :
    SourceOk { edge with dstBase := 124 } 4 ∧ DestOk { edge with dstBase := 124 } true ∧ edge.fm.wf = true :=
  ⟨by constructor <;> decide, edge_dest_mono, edge_wf⟩

theorem witness_GraySimpleCopiesChannel : SourceOk edge 4 ∧ DestOk edge false ∧ edge.fm.wf = true ∧
    (2#4).toNat < 3 ∧ 3 ≤ (3#4).toNat := ⟨edge_source, edge_dest, edge_wf, by decide, by decide⟩

theorem witness_GrayKeepsGrayPixels : let s := image 1 1 [9, 9, 9, 4]
    SourceOk s 4 ∧ DestOk s false ∧ s.fm.wf = true ∧
      (∀ x y, x < s.width.toNat → y < s.height.toNat →
        sourceByte s 4 x y 0 = sourceByte s 4 x y 1 ∧ sourceByte s 4 x y 1 = sourceByte s 4 x y 2) ∧
      (2#4).toNat < 3 ∧ ∃ t, exec (.grayLuma false) s = .next t := by
  refine ⟨by constructor <;> decide, by constructor <;> decide, by decide, ?_, by decide, _, rfl⟩
  intro x y hx hy
  obtain rfl : x = 0 := Nat.lt_one_iff.1 hx
  obtain rfl : y = 0 := Nat.lt_one_iff.1 hy
  decide

theorem witness_PosterizeFillsTables : 2 ≤ ({ idle with lutParam := 2 } : State).lutParam.toNat ∧
    ({ idle with lutParam := 1 } : State).lutParam.toNat < 2 := by decide

theorem witness_TablesHaveTheirShape :
    (∃ t, exec .buildBrightness idle = .next t) ∧ (∃ t, exec .buildThreshold idle = .next t) ∧
      (∃ t, exec .buildPosterize { idle with lutParam := 2 } = .next t ∧ t.errcode = 0#4) ∧
      (∃ t, exec .buildPosterize { idle with lutParam := 256 } = .next t ∧ t.errcode = 0#4) ∧
      (∃ t, exec .buildContrast idle = .next t) ∧ 0 ≤ idle.lutParam.toInt ∧ idle.lutParam.toInt ≤ 0 ∧
      (∃ t, exec .buildInvert idle = .next t) ∧ (∃ t, exec .buildSolarize idle = .next t) ∧ (0 : Fin 256) < 255 :=
  ⟨⟨_, rfl⟩, ⟨_, rfl⟩, ⟨_, rfl, by decide⟩, ⟨_, rfl, by decide⟩, ⟨_, rfl⟩, by decide, by decide, ⟨_, rfl⟩, ⟨_, rfl⟩, by decide⟩

theorem witness_ApplyRemapsColours : (SourceOk edge 4 ∧ DestOk edge false ∧ edge.fm.wf = true) ∧
    SourceOk edge1 1 ∧ DestOk edge1 false ∧ edge1.fm.wf = true :=
  ⟨⟨edge_source, edge_dest, edge_wf⟩, edge1_source, edge1_dest, edge1_wf⟩

theorem witness_ConvWeightedWritesQuotient : (SourceOk gauss 1 ∧ DestOk gauss true ∧ KernelOk gauss false ∧
      gauss.fm.wf = true) ∧ SourceOk widest 1 ∧ DestOk widest true ∧ KernelOk widest false ∧ widest.fm.wf = true :=
  ⟨⟨gauss_source, gauss_dest, gauss_kernel, gauss_wf⟩, by constructor <;> decide, by constructor <;> decide,
    by constructor <;> decide, by decide +kernel⟩

theorem witness_ConvMedianWritesMedian : let s := withKernel m43 1 [7] 1 1
    SourceOk s 1 ∧ DestOk s false ∧ KernelOk s true ∧ s.fm.wf = true :=
  ⟨by constructor <;> decide, by constructor <;> decide, by constructor <;> decide, gauss_wf⟩

theorem witness_ConvLeavesLastRowsBuffered : gauss.Inv ∧ SourceOk gauss 1 ∧ DestOk gauss true ∧ KernelOk gauss false ∧
    (∃ t, exec (.conv true false) gauss = .next t) ∧ (2 < gauss.height.toNat ∧ gauss.height.toNat ≤ 2 + gauss.cfg.nr) ∧
    ∀ q, q < gauss.height.toNat → gauss.height.toNat ≤ q + gauss.cfg.nr → q % gauss.cfg.nr ≠ 4 :=
  ⟨gauss_inv, gauss_source, gauss_dest, gauss_kernel, ⟨_, rfl⟩, by decide, by decide⟩

theorem witness_StreamedConvEqualsDirect : gauss.Inv ∧ SourceOk gauss 1 ∧ DestOk gauss false ∧ KernelOk gauss false :=
  ⟨gauss_inv, gauss_source, gauss_dest_full, gauss_kernel⟩

theorem witness_IdentityKernelCopiesImage : let s := withKernel m43 1 [0, 0, 0, 0, 1, 0, 0, 0, 0] 1 1
    SourceOk s 1 ∧ DestOk s true ∧ KernelOk s false ∧ s.fm.wf = true ∧ 1 = outDepth true ∧ s.divNum = 1#32 ∧
      s.divDen = 1#32 ∧
      (∀ j, j < (2 * s.kradius.toNat + 1) ^ 2 →
        (s.kw.getD j 0#16).toInt = if j = ((2 * s.kradius.toNat + 1) ^ 2 - 1) / 2 then 1 else 0) ∧
      ∃ t, exec (.conv true false) s = .next t :=
  ⟨by constructor <;> decide, by constructor <;> decide, by constructor <;> decide, gauss_wf, rfl, by decide, by decide,
    by decide, _, rfl⟩

theorem witness_ScaledKernelSameResult : let s' := withKernel m43 1 [2, 4, 2, 4, 8, 4, 2, 4, 2] 32 1
    s' = { gauss with kw := s'.kw, divNum := s'.divNum } ∧ s'.divNum.toInt = (2 : Nat) * gauss.divNum.toInt ∧
      (∀ j, (s'.kw.getD j 0#16).toInt = (2 : Nat) * (gauss.kw.getD j 0#16).toInt) ∧
      ∃ t, exec (.conv true false) gauss = .next t := by
  refine ⟨rfl, by decide, fun j => ?_, _, rfl⟩
  by_cases hj : j < 25
  · revert hj
    revert j
    decide
  · rw [List.getD_eq_default _ _ (not_lt.1 hj), List.getD_eq_default _ _ (not_lt.1 hj)]
    decide

theorem witness_AccumulatorFitsThirtyTwoBits : widest.cfg.valid = true ∧ widest.kradius.toNat ≤ widest.cfg.rmax := by
  decide

theorem witness_SmallImageNeedsNoWeights :
    (withKernel (image 2 3 (List.range 6)) 1 [7] 1 1).width.toNat < 2 * 1 + 1 ∧
      ∃ t, exec (.conv true true) (withKernel (image 2 3 (List.range 6)) 1 [7] 1 1) = .next t ∧ t.errcode = 0#4 :=
  ⟨by decide, _, rfl, by decide⟩

theorem witness_LineBufferNeverObserved : ∃ t, exec (.conv true false) gauss = .next t ∧ t.errcode = 0#4 :=
  ⟨_, rfl, by decide⟩

theorem witness_CommandsWriteOnlyDestination : edge.cfg.valid = true ∧
    (∃ t, exec (.grayLuma false) edge = .next t ∧ t.errcode = 0#4) ∧
    (∃ t, exec (.grayLuma false) edge1 = .next t ∧ t.errcode ≠ 0#4) ∧
    edge.srcBase.toNat ≤ 15 ∧ 15 < edge.srcBase.toNat + edge.srcLen.toNat :=
  ⟨by decide, ⟨_, rfl, by decide⟩, ⟨_, rfl, by decide⟩, by decide, by decide⟩

theorem witness_DstLenIsOutputLength : edge.cfg.valid = true ∧ (∃ t, exec (.apply true) edge = .next t) ∧
    ({ idle with inputs := [.regWrite 0x02C#12 5#32] } : State).inputs = .regWrite 0x02C#12 5#32 :: [] :=
  ⟨by decide, ⟨_, rfl⟩, rfl⟩

theorem witness_SourceRegionDeterminesOutput : let s' := { edge with lb := [], fm := edge.fm.write 64 9#8 }
    edge.cfg.valid = true ∧ edge.fm.wf = true ∧ s'.fm.wf = true ∧
      (∀ a, edge.srcBase.toNat ≤ a → a < edge.srcBase.toNat + edge.srcLen.toNat → s'.fm.read a = edge.fm.read a) ∧
      (∃ t, exec (.apply false) edge = .next t) ∧ ∃ t, exec (.apply false) s' = .next t := by
  refine ⟨by decide, edge_wf, by decide +kernel, fun a _ => ?_, ⟨_, rfl⟩, _, rfl⟩
  revert a
  decide +kernel

/-- The bytes of `edge`'s destination region, as `GRAY.LUMA` in execution sees them. -/
theorem busyEdge_outside {moves : List Event} {a : Nat} (ha : a < 112) :
    ∀ u, exec (decode (busyEdge moves).lastcmd) (busyEdge moves) = .next u →
      ¬ ((busyEdge moves).dstBase.toNat ≤ a ∧ a < (busyEdge moves).dstBase.toNat + u.dstLen.toNat) := by
  intro u _ h
  exact absurd (show 112 ≤ a from h.1) (Nat.not_le.2 ha)

theorem witness_HostReadsWhatWasWritten :
    idle.cfg.valid = true ∧ idle.fm.wf = true ∧ idle.phase = .idle ∧ 127 < idle.cfg.fmBytes ∧ idle.cfg.fmBytes ≤ 128 ∧
      (busyEdge [.memWrite 111 5#8]).phase = .busy ∧ (busyEdge [.memWrite 111 5#8]).fm.wf = true ∧
      (∀ u, exec (decode (busyEdge [.memWrite 111 5#8]).lastcmd) (busyEdge [.memWrite 111 5#8]) = .next u →
        ¬ ((busyEdge [.memWrite 111 5#8]).dstBase.toNat ≤ 111 ∧
          111 < (busyEdge [.memWrite 111 5#8]).dstBase.toNat + u.dstLen.toNat)) ∧
      ¬ ((busyEdge [.memWrite 111 5#8]).srcBase.toNat ≤ 111 ∧
        111 < (busyEdge [.memWrite 111 5#8]).srcBase.toNat + (busyEdge [.memWrite 111 5#8]).srcLen.toNat) :=
  ⟨by decide, by decide, rfl, by decide, by decide, rfl, edge_wf, busyEdge_outside (by decide), by decide⟩

theorem witness_HostAccessToBusyRegions : let s := busyEdge [.memRead 127]
    s.cfg.valid = true ∧ s.phase = .busy ∧ 127 < s.cfg.fmBytes ∧ s.disturbed = false ∧
      (∃ u, exec (decode s.lastcmd) s = .next u ∧ u.dstLen ≠ 0#32 ∧ s.dstBase.toNat ≤ 127 ∧
        127 < s.dstBase.toNat + u.dstLen.toNat) ∧
      (s.srcBase.toNat ≤ 15 ∧ 15 < s.srcBase.toNat + s.srcLen.toNat) :=
  ⟨by decide, rfl, by decide, rfl, ⟨_, rfl, by decide, by decide, by decide⟩, by decide⟩

theorem witness_OperandWritesReachTheirRegisters :
    ({ idle with inputs := [.regWrite 0x050#12 0xFFFFFFFF#32] } : State).phase = .idle := rfl

theorem witness_RegisterReadsHaveNoSideEffect : (0x002#12).toNat % 4 ≠ 0 ∧ (0x0FC#12).toNat % 4 = 0 ∧
    0x100 + 4 * idle.cfg.nw ≤ (0x164#12).toNat ∧ (0x164#12).toNat ≤ 0x3FC ∧
    (0x100 ≤ (0x160#12).toNat ∧ (0x160#12).toNat ≤ 0x3FC ∧ (0x160#12).toNat < 0x100 + 4 * edge.cfg.nw ∧
      edge.kw[((0x160#12).toNat - 0x100) / 4]? = some 0#16) ∧
    (0xFFC#12 = BitVec.ofNat 12 (0x400 + 4 * (256 * (2 : Fin 3).val + (255 : Fin 256).val)) ∧
      ¬ ((busyEdge [.regRead 0xFFC#12]).phase = .busy ∧ (decode (busyEdge [.regRead 0xFFC#12]).lastcmd).isBuild = true)) ∧
    ({ idle with inputs := [.regRead 0x164#12] } : State).inputs = .regRead 0x164#12 :: [] := by decide

theorem witness_WeightWindowKeepsSixteenBits : idle.cfg.valid = true ∧ idle.kw.length = idle.cfg.nw ∧
    24 < idle.cfg.nw ∧ idle.phase = .idle := by decide

theorem witness_TableWindowKeepsEightBits :
    ({ idle with inputs := [.regWrite 0xFFC#12 7#32, .regRead 0xFFC#12] } : State).phase = .idle ∧
      BitVec.ofNat 12 (0x400 + 4 * (256 * (2 : Fin 3).val + (255 : Fin 256).val)) = 0xFFC#12 := by decide

theorem witness_WriteLockDiscards : (busyEdge [.regWrite 0x160#12 7#32]).phase = .busy ∧ (0x160#12).toNat % 4 = 0 ∧
    lockedOffset edge.cfg 0x160#12 ∧ lockedOffset edge.cfg 0x400#12 ∧ lockedOffset edge.cfg 0x050#12 ∧
    0x100 + 4 * edge.cfg.nw ≤ (0x164#12).toNat ∧ (0x3FC#12).toNat ≤ 0x3FC ∧ (0x163#12).toNat % 4 ≠ 0 := by
  refine ⟨by decide, by decide, .inr (.inl (by decide)), .inr (.inr (by decide)), .inl (by decide), ?_⟩
  decide

theorem witness_InterruptRegistersAndLine :
    ({ idle with inputs := [.regWrite 0x014#12 7#32] } : State).inputs = .regWrite 0x014#12 7#32 :: [] ∧
      ({ idle with inputs := [.regWrite 0x018#12 7#32] } : State).inputs = .regWrite 0x018#12 7#32 :: [] ∧
      ({ idle with irqst := 4, irqen := 4 } : State).irq = true := by decide

theorem witness_TableReadDuringBuild : let s := { busyEdge [.regRead 0xFFC#12] with lastcmd := 0x00000602#32 }
    s.phase = .busy ∧ (decode s.lastcmd).isBuild = true ∧
      ¬ ((busyEdge [.regRead 0xFFC#12]).phase = .busy ∧ (decode (busyEdge [.regRead 0xFFC#12]).lastcmd).isBuild = true) := by
  decide

theorem witness_ResetEventRestoresRegisters : (busyEdge [.reset]).inputs = .reset :: [] ∧
    ({ edge with inputs := [.reset] } : State).phase = .idle := ⟨rfl, rfl⟩

theorem witness_ResetDuringCommand : let s := busyEdge [.reset]
    s.cfg.valid = true ∧ s.fm.wf = true ∧ s.phase = .busy ∧ s.disturbed = false ∧
      (∃ u, exec (decode s.lastcmd) s = .next u ∧ u.dstLen ≠ 0#32) ∧ ∃ t, step s = .next t :=
  ⟨by decide, edge_wf, rfl, rfl, ⟨_, rfl, by decide⟩, _, rfl⟩

theorem witness_StepKeepsInvariant : gauss.Inv ∧ ∃ t, step gauss = .next t := ⟨gauss_inv, _, rfl⟩

theorem witness_ConfigurationNeverChanges : ∃ t, step (busyEdge [.engine]) = .next t := ⟨_, rfl⟩

theorem witness_OperandsLockedWhileBusy : (busyEdge [.regWrite 0x030#12 9#32]).phase = .busy ∧
    (∃ t, step (busyEdge [.regWrite 0x030#12 9#32]) = .next t ∧ t.phase = .busy) ∧
    ∃ t, step (busyEdge [.memWrite 127 9#8]) = .next t ∧ t.phase = .busy := ⟨rfl, ⟨_, rfl, rfl⟩, _, rfl, rfl⟩

theorem witness_LastcmdChangesOnlyOnAccept :
    ∃ t, step { idle with inputs := [.regWrite 0x004#12 2#32] } = .next t ∧ t.lastcmd ≠ idle.lastcmd :=
  ⟨_, rfl, by decide⟩

theorem witness_PhaseChangesOnlyByItsThreeSteps :
    (∃ t, step { idle with inputs := [.regWrite 0x004#12 2#32] } = .next t ∧ t.phase = .busy) ∧
      ∃ t, step (busyEdge [.reset]) = .next t ∧ t.phase = .idle := ⟨⟨_, rfl, rfl⟩, _, rfl, rfl⟩

theorem witness_IrqBitsAreSticky :
    (∃ t, step { idle with irqst := 7, inputs := [.regWrite 0x018#12 1#32] } = .next t ∧ t.irqst.getLsbD 0 = false) ∧
      (∃ t, step (busyEdge [.engine]) = .next t ∧ (busyEdge [.engine]).irqst.getLsbD 0 = false ∧ t.irqst.getLsbD 0 = true) ∧
      (∃ t, step { busyEdge [.engine] with lastcmd := 6 } = .next t ∧ t.irqst.getLsbD 1 = true) ∧
      ∃ t, step (busyEdge [.regWrite 0x004#12 0#32]) = .next t ∧ t.irqst.getLsbD 2 = true :=
  ⟨⟨_, rfl, by decide⟩, ⟨_, rfl, by decide, by decide⟩, ⟨_, rfl, by decide⟩, _, rfl, by decide⟩

theorem witness_BusyEngineCompletes : (busyEdge [.regRead 0x008#12]).phase = .busy := rfl

theorem witness_ArithmeticPrimitives : (-9 : Int) ≠ 0 ∧ (1 : Int) * 4 = 2 * 2 := by decide

end Sys2Proof.Tests
end

section
/-! PROOFS. The arithmetic primitives (R12) and the invariant of the whole machine. -/

namespace Sys2Proof.Machine

/-! ## Arithmetic -/

/-- Ties-to-even rounds down by at most half of `d`, or up by at most half, to an even integer at a tie. -/
theorem rnd_tiesToEven_error {n d : Int} (hd : 0 < d) :
    let f := rnd .tiesToEven n d
    (f * d - n = -(n % d) ∧ 2 * (n % d) ≤ d ∨ f * d - n = d - n % d ∧ d ≤ 2 * (n % d)) ∧
      (2 * (n % d) = d → f % 2 = 0) := by
  have hdown : n / d * d - n = -(n % d) := by linarith [Int.mul_ediv_add_emod n d, mul_comm d (n / d)]
  have hup : (n / d + 1) * d - n = d - n % d := by linarith [add_mul (n / d) 1 d]
  simp only [rnd_pos .tiesToEven hd]
  split_ifs with hlt hgt heven
  · exact ⟨.inl ⟨hdown, by omega⟩, by omega⟩
  · exact ⟨.inr ⟨hup, by omega⟩, by omega⟩
  · exact ⟨.inl ⟨hdown, by omega⟩, fun _ => heven⟩
  · exact ⟨.inr ⟨hup, by omega⟩, by omega⟩

/-- Ties-to-even gives the nearest integer, the even one at a tie (R12), for a positive denominator. -/
theorem rnd_tiesToEven_nearest_pos {n d : Int} (hd : 0 < d) :
    2 * |rnd .tiesToEven n d * d - n| ≤ d ∧
      (2 * |rnd .tiesToEven n d * d - n| = d → rnd .tiesToEven n d % 2 = 0) := by
  have hr := Int.emod_nonneg n hd.ne'
  have hr' := Int.emod_lt_of_pos n hd
  obtain ⟨⟨he, hhalf⟩ | ⟨he, hhalf⟩, htie⟩ := rnd_tiesToEven_error (n := n) hd
  · rw [he, abs_neg, abs_of_nonneg hr]
    exact ⟨hhalf, htie⟩
  · rw [he, abs_of_nonneg (by omega)]
    exact ⟨by omega, fun h => htie (by omega)⟩

/-- Ties-to-even gives the nearest integer, the even one at a tie (R12): a negative denominator changes the sign of
numerator and denominator, and the error keeps its size. -/
theorem rnd_tiesToEven_nearest {n d : Int} (hd : d ≠ 0) :
    2 * |rnd .tiesToEven n d * d - n| ≤ |d| ∧
      (2 * |rnd .tiesToEven n d * d - n| = |d| → rnd .tiesToEven n d % 2 = 0) := by
  rcases Int.lt_or_gt_of_ne hd with hneg | hpos
  · have herr : |rnd .tiesToEven n d * d - n| = |rnd .tiesToEven (-n) (-d) * -d - -n| := by
      rw [rnd_neg _ hneg, ← abs_neg]
      congr 1
      ring
    rw [herr, abs_of_neg hneg, rnd_neg _ hneg]
    exact rnd_tiesToEven_nearest_pos (by omega)
  · rw [abs_of_pos hpos]
    exact rnd_tiesToEven_nearest_pos hpos

/-- Settles O60: nearest by the error of the floor or the next integer; the other parts are the laws of `rnd`, `clamp`
and `sort_asc`. -/
theorem arithmeticPrimitives : Obligations.ArithmeticPrimitives := by
  refine ⟨fun n d hd => rnd_tiesToEven_nearest hd, fun m n d n' d' hd hd' h => rnd_congr m hd hd' h, fun i => ?_,
    fun l => ⟨sortAsc_perm l, sortAsc_sorted l⟩⟩
  rw [clamp_toNat]
  split_ifs <;> omega

/-! ## The line buffer keeps its shape (R260) -/

/-- `NR` slots, each with its row length and its tag in place (R260): what the invariant asks of the line buffer. -/
def LineBuffer.Fits (c : Config) (lb : LineBuffer) : Prop :=
  lb.length = c.nr ∧ ∀ i x, lb[i]? = some x → slotFits c i x

theorem State.Inv.lineBuffer {s : State} (h : s.Inv) : LineBuffer.Fits s.cfg s.lb := ⟨h.slots, h.slotsFit⟩

theorem invalidate_fits {c : Config} {lb : LineBuffer} (h : LineBuffer.Fits c lb) :
    LineBuffer.Fits c (LineBuffer.invalidate lb) := by
  refine ⟨(invalidate_length lb).trans h.1, fun i x hx => ?_⟩
  rw [LineBuffer.invalidate, List.getElem?_map, Option.map_eq_some_iff] at hx
  obtain ⟨y, hy, rfl⟩ := hx
  exact ⟨(h.2 i y hy).1, nofun⟩

/-- A row no longer than a slot goes into the slot of its number (R263). -/
theorem fetchRow_fits {s : State} {sh : Shape} {lb : LineBuffer} (hrow : sh.w * sh.d ≤ s.cfg.slotBytes) (q : Nat)
    (h : LineBuffer.Fits s.cfg lb) : LineBuffer.Fits s.cfg (fetchRow s sh lb q) := by
  refine ⟨(fetchRow_length s sh lb q).trans h.1, fun i x hx => ?_⟩
  rw [fetchRow_getElem?] at hx
  split at hx
  · rename_i hslot
    obtain ⟨y, hy, rfl⟩ := Option.map_eq_some_iff.1 hx
    have hlen := (h.2 i y hy).1
    refine ⟨?_, fun _ htag => Option.some.inj htag ▸ hslot⟩
    rw [List.length_append, rowBytes_length, List.length_drop]
    omega
  · exact h.2 i x hx

theorem fetched_fits {s : State} {sh : Shape} (hrow : sh.w * sh.d ≤ s.cfg.slotBytes) (h : LineBuffer.Fits s.cfg s.lb)
    (n : Nat) : LineBuffer.Fits s.cfg (fetched s sh n) := by
  induction n with
  | zero => exact invalidate_fits h
  | succ n ih =>
    rw [fetched_succ]
    exact fetchRow_fits hrow n ih

/-- A row of a source that `CONV` accepts fits in a slot: `W ≤ WMAX` and `d ≤ 4` (R221, R260). -/
theorem KernelOk.row_le_slot {s : State} {med : Bool} {d : Nat} (hk : KernelOk s med) (hs : SourceOk s d) :
    (shapeOf s d).w * (shapeOf s d).d ≤ s.cfg.slotBytes := by
  have hd : d ≤ 4 := by have := hs.depth; omega
  calc s.width.toNat * d ≤ s.cfg.wmax * 4 := Nat.mul_le_mul hk.line hd
    _ = s.cfg.slotBytes := Nat.mul_comm _ _

/-- The line buffer after a command that succeeds: what `CONV` fetched, or the one before (R266). -/
theorem effect_lineBuffer_fits {i : Instr} {s : State} {e : Effect} (he : commandEffect i s = .ok e)
    (h : LineBuffer.Fits s.cfg s.lb) : LineBuffer.Fits s.cfg (e.lb.getD s.lb) := by
  cases hconv : i.isConv with
  | false =>
    have hlb : e.lb = none := by
      rcases effect_cases he with ⟨_, _, _, _, _, _, _, _, _, hlb, _⟩ | ⟨_, _, _, hlb, _⟩
      · exact hlb hconv
      · exact hlb
    rw [hlb]
    exact h
  | true =>
    cases i <;> simp only [Instr.isConv, reduceCtorEq] at hconv
    obtain ⟨d, hs, _, hk, rfl⟩ := convEffect_ok_iff.1 he
    exact fetched_fits (hk.row_le_slot hs) h _

/-! ## Every byte the engine writes exists (R71, R78) -/

/-- The destination region of a command that succeeds lies in frame memory. -/
theorem dstRegion_lt_fmBytes {i : Instr} {s : State} {e : Effect} (he : commandEffect i s = .ok e) {a : Nat}
    (ha : s.dstBase.toNat ≤ a ∧ a < s.dstBase.toNat + e.outLen) : a < s.cfg.fmBytes := by
  have := outLen_fits he (by omega)
  omega

theorem mem_freeCells {count a n : Nat} {c : Host.Cell} (hc : c ∈ freeCells count a n) : a ≤ c.1 ∧ c.1 < a + n := by
  obtain ⟨i, hi, rfl⟩ := List.mem_map.1 hc
  have := List.mem_range.1 hi
  exact ⟨by omega, by omega⟩

/-- The bytes an abandoned command has written lie in its destination region (R322). -/
theorem landedCells_lt_fmBytes {s : State} {c : Host.Cell} (hc : c ∈ landedCells s) : c.1 < s.cfg.fmBytes := by
  rw [landedCells] at hc
  cases hf : inFlight s with
  | none =>
    rw [hf] at hc
    cases hc
  | some e =>
    rw [hf] at hc
    have hmem := (List.mem_filter.1 hc).1
    have he := (inFlight_some hf).2
    refine dstRegion_lt_fmBytes he ?_
    split at hmem
    · exact mem_freeCells hmem
    · exact fmWrites_bounds he hmem

/-! ## The invariant, one move after another -/

theorem accept_inv {s : State} (h : s.Inv) (w : Word) : (accept w s).Inv :=
  { h with status := .inl ⟨rfl, rfl, rfl⟩, calm := nofun }

theorem overrun_inv {s : State} (h : s.Inv) : (overrun s).Inv := { h with }

theorem storeReg_inv {s : State} (h : s.Inv) (r : Reg) (v : Word) : (storeReg s r v).Inv := by
  cases r with
  | cmd => exact accept_inv h v
  | kw j => exact { h with weights := List.length_set.trans h.weights }
  | _ => exact { h with }

theorem writeReg_inv {s : State} (h : s.Inv) (r : Reg) (v : Word) : (writeReg s r v).Inv := by
  rw [writeReg]
  split
  · exact overrun_inv h
  · exact storeReg_inv h r v

/-- A host write to frame memory marks a command only while one is in execution (R84). -/
theorem memWrite_inv {s : State} (h : s.Inv) {a : Nat} (ha : a < s.cfg.fmBytes) (b : Byte) :
    ({ s with fm := s.fm.write a b, disturbed := s.disturbed || inSrcRegion s a || inDstRegion s a } : State).Inv where
  __ := h
  memory := Memory.wf_write a b h.memory
  memoryBelow := Memory.below_write ha b h.memoryBelow
  calm hd := by
    simp only [Bool.or_eq_true] at hd
    rcases hd with (hd | hd) | hd
    · exact h.calm hd
    · obtain ⟨e, he, _⟩ := inSrcRegion_iff.1 hd
      exact (inFlight_some he).1
    · obtain ⟨e, he, _⟩ := inDstRegion_iff.1 hd
      exact (inFlight_some he).1

/-- A complete step keeps the invariant once the mark of R84 is taken off: only `calm` speaks of the mark. -/
theorem complete_inv {i : Instr} {s : State} (h : s.Inv) :
    ({ complete (commandEffect i s) s with disturbed := false } : State).Inv := by
  cases he : commandEffect i s with
  | error k => exact { h with status := .inr (.inr ⟨rfl, rfl, k, rfl⟩), calm := nofun }
  | ok e =>
    obtain ⟨hslots, hfit⟩ := effect_lineBuffer_fits he h.lineBuffer
    exact { h with
      status := .inr (.inl ⟨rfl, .inr rfl, rfl⟩)
      slots := hslots
      slotsFit := hfit
      memory := Memory.wf_writeAll h.memory
      memoryBelow := Memory.below_writeAll (fun c hc => dstRegion_lt_fmBytes he (fmWrites_bounds he hc)) h.memoryBelow
      calm := nofun }

/-- The bytes that `DST_LEN` counts after a complete step exist (R33, R78). -/
theorem complete_dstLen_lt_fmBytes {i : Instr} {s : State} (hv : s.cfg.valid = true) {a : Nat}
    (ha : s.dstBase.toNat ≤ a ∧ a < s.dstBase.toNat + (complete (commandEffect i s) s).dstLen.toNat) :
    a < s.cfg.fmBytes := by
  cases he : commandEffect i s with
  | error k =>
    rw [he] at ha
    exact absurd ha.2 (Nat.not_lt.2 ha.1)
  | ok e =>
    rw [he, complete, completeOk_dstLen, dstLen_toNat hv he] at ha
    exact dstRegion_lt_fmBytes he ha

@[simp] theorem complete_cfg (r : Except ErrKind Effect) (s : State) : (complete r s).cfg = s.cfg := by
  cases r <;> rfl

@[simp] theorem complete_disturbed (r : Except ErrKind Effect) (s : State) :
    (complete r s).disturbed = s.disturbed := by
  cases r <;> rfl

/-- The free bytes of R84 keep the invariant when the region they fill exists. -/
theorem scramble_inv {s t : State} (ht : ({ t with disturbed := false } : State).Inv)
    (hregion : ∀ a, s.db ≤ a ∧ a < s.db + t.dstLen.toNat → a < t.cfg.fmBytes) : (scramble s t).Inv where
  __ := ht
  memory := Memory.wf_writeAll ht.memory
  memoryBelow := Memory.below_writeAll (fun c hc => hregion c.1 (mem_freeCells hc)) ht.memoryBelow

/-- The engine's complete step keeps the invariant, on a disturbed command too (R84, R131). -/
theorem engineEnd_inv {s : State} (h : s.Inv) : (engineEnd s).Inv := by
  have hc := complete_inv (i := decode s.lastcmd) h
  simp only [engineEnd]
  split
  · refine scramble_inv hc fun a ha => ?_
    rw [complete_cfg]
    exact complete_dstLen_lt_fmBytes h.cfgValid ha
  · rename_i hd
    exact { hc with calm := fun hd' => absurd (by rwa [complete_disturbed] at hd') hd }

/-- Reset keeps the invariant: an abandoned command's bytes lie in its destination region, and the line buffer only
loses its tags (R320, R322). -/
theorem resetMove_inv {s : State} (h : s.Inv) : (resetMove s).Inv where
  __ := h
  status := .inr (.inl ⟨rfl, .inl rfl, rfl⟩)
  slots := (invalidate_fits h.lineBuffer).1
  slotsFit := (invalidate_fits h.lineBuffer).2
  memory := Memory.wf_writeAll h.memory
  memoryBelow := Memory.below_writeAll (fun _ hc => landedCells_lt_fmBytes hc) h.memoryBelow
  calm := nofun

/-- The moves to come are no part of the invariant. -/
theorem inputs_inv {s : State} (h : s.Inv) (rest : List Event) : ({ s with inputs := rest } : State).Inv := { h with }

/-- Settles O52, by cases on the move that the step takes. -/
theorem stepKeepsInvariant : Obligations.StepKeepsInvariant := by
  intro s t h hstep
  rcases step_cases hstep with ⟨off, v, rest, -, -, rfl⟩ | ⟨rest, d, rfl, -⟩ | ⟨a, b, rest, -, ha, rfl⟩ |
    ⟨rest, -, ⟨-, rfl⟩ | ⟨-, rfl⟩⟩ | ⟨rest, -, rfl⟩
  · exact writeReg_inv (inputs_inv h rest) _ v
  · exact { h with }
  · exact inputs_inv (memWrite_inv h ha b) rest
  · exact engineEnd_inv (inputs_inv h rest)
  · exact inputs_inv h rest
  · exact resetMove_inv (inputs_inv h rest)

end Sys2Proof.Machine
end

section
/-! PROOFS. The register port and what a step keeps (10_state.md): reads and writes of registers, the life cycle of a
command, and the invariants over every move. -/

namespace Sys2Proof

/-! ## A command word names its command (R106) -/

/-- `BUILD` with `SUB` from 8 up (R188). -/
theorem decodeBuild_unknown : ∀ sub : BitVec 4, 8 ≤ sub.toNat → decodeBuild sub = .buildUnknown8to15 sub := by decide

theorem decodeGray_unknown4to7 {sub : BitVec 4} (h4 : 4 ≤ sub.toNat) (h7 : sub.toNat ≤ 7) (arg : BitVec 4)
    (mono : Bool) : decodeGray sub arg mono = .grayUnknown4to7 sub arg mono := by
  have hne : ∀ n : BitVec 4, n.toNat < 4 → sub ≠ n := by
    rintro n hn rfl
    omega
  rw [decodeGray, if_neg (hne _ (by decide)), if_neg (hne _ (by decide)), if_neg (hne _ (by decide)),
    if_neg (hne _ (by decide)), if_pos h7]

theorem decodeGray_unknown8to15 {sub : BitVec 4} (h8 : 8 ≤ sub.toNat) (arg : BitVec 4) (mono : Bool) :
    decodeGray sub arg mono = .grayUnknown8to15 sub arg mono := by
  have hne : ∀ n : BitVec 4, n.toNat < 8 → sub ≠ n := by
    rintro n hn rfl
    omega
  rw [decodeGray, if_neg (hne _ (by decide)), if_neg (hne _ (by decide)), if_neg (hne _ (by decide)),
    if_neg (hne _ (by decide)), if_neg (by omega)]

/-- A `GRAY` word of an unknown mode is decoded whatever its `ARG` (R106). -/
theorem decode_cmdWord_gray {sub : BitVec 4} (h : 3 ≤ sub.toNat) (arg : BitVec 4) (mono : Bool) :
    decode (cmdWord 4 sub arg mono false) = decodeGray sub arg mono := by
  rw [cmdWord_eq, decode_fieldWord]
  exact if_pos h

theorem decode_cmdWord_build (sub : BitVec 4) : decode (cmdWord 2 sub 0 false false) = decodeBuild sub := by
  rw [cmdWord_eq, decode_fieldWord]
  rfl

/-- A word that R107 reserves decodes to `illegal`. -/
theorem decode_reservedWord {w : Word} (h : reservedWord w = true) : decode w = .illegal w := by
  rw [← fieldWord_fields w] at h ⊢
  rw [reservedWord_fieldWord] at h
  rw [decode_fieldWord]
  simp only [Bool.or_eq_true, Bool.and_eq_true, decide_eq_true_eq] at h
  by_cases hr : rsvField w ≠ 0#14
  · exact if_pos hr
  have hne : ∀ n : BitVec 8, n.toNat ≤ 5 → 5 < (opField w).toNat → opField w ≠ n := by
    rintro n hn hop rfl
    omega
  rw [if_neg hr]
  rcases h with (((((h | hop) | ⟨hop | hop, hf⟩) | ⟨hop, hf⟩) | ⟨hop, hf⟩) | ⟨hop, hf⟩) | ⟨hop, hmed | ⟨hsub, harg⟩⟩
  case neg.inl.inl.inl.inl.inl.inl => exact absurd h hr
  case neg.inl.inl.inl.inl.inl.inr =>
    rw [if_neg (hne _ (by decide) hop), if_neg (hne _ (by decide) hop), if_neg (hne _ (by decide) hop),
      if_neg (hne _ (by decide) hop), if_neg (hne _ (by decide) hop), if_neg (hne _ (by decide) hop)]
  case neg.inr.inl =>
    rw [hop]
    exact if_pos hmed
  case neg.inr.inr =>
    have hlow : ¬ 3 ≤ (subField w).toNat := by omega
    rw [hop, if_neg hlow, if_pos (And.intro hsub harg)]
    exact ite_self _
  all_goals
    rw [hop]
    exact if_pos hf

/-- Decoding the word of a well-formed command gives the command back (R106, R110). -/
theorem decode_encode {i : Instr} (h : i.wellFormed = true) : decode (encode i) = i := by
  cases i with
  | buildUnknown8to15 sub => exact (decode_cmdWord_build sub).trans (decodeBuild_unknown sub (of_decide_eq_true h))
  | grayUnknown3 arg mono => exact decode_cmdWord_gray (by decide) arg mono
  | grayUnknown4to7 sub arg mono =>
    obtain ⟨h4, h7⟩ := Bool.and_eq_true_iff.1 h
    rw [encode, decode_cmdWord_gray (by have := of_decide_eq_true h4; omega)]
    exact decodeGray_unknown4to7 (of_decide_eq_true h4) (of_decide_eq_true h7) arg mono
  | grayUnknown8to15 sub arg mono =>
    have h8 : 8 ≤ sub.toNat := of_decide_eq_true h
    rw [encode, decode_cmdWord_gray (by omega)]
    exact decodeGray_unknown8to15 h8 arg mono
  | illegal w => exact decode_reservedWord h
  | _ =>
    rw [encode, cmdWord_eq, decode_fieldWord]
    rfl

end Sys2Proof

namespace Sys2Proof.Machine

/-! ## The engine's turn (R131, R321) -/

/-- Outside a broken R84 the engine's move is `exec` of the command in `LASTCMD` (R131). -/
theorem engineMove_calm {s : State} (hp : s.phase = .busy) (hd : s.disturbed = false) :
    engineMove s = exec (decode s.lastcmd) s := by
  rw [engineMove_busy hp, exec_eq, engineEnd, hd]
  rfl

/-- After a broken R84 the destination bytes of the complete step are free, and all else is `exec`'s (log entry 12). -/
theorem engineMove_disturbed {s : State} (hp : s.phase = .busy) (hd : s.disturbed = true) :
    engineMove s = .next (scramble s (complete (commandEffect (decode s.lastcmd) s) s)) := by
  rw [engineMove_busy hp, engineEnd, hd]
  rfl

/-- The free bytes of R84 touch no byte outside the region they fill. -/
theorem read_freeCells_outside {a d n : Nat} (h : ¬ (d ≤ a ∧ a < d + n)) (m : Memory) (count : Nat) :
    Memory.read (m.writeAll (freeCells count d n)) a = m.read a :=
  Memory.read_writeAll_other (fun _ hc he => h (by rw [← he]; exact mem_freeCells hc)) m

/-- Placing a 32-bit word accepts that word and puts the engine's move first. -/
theorem withFetchWord_toNat (s : State) (w : Word) : s.withFetchWord 32 w.toNat = fetchState s w := by
  rw [State.withFetchWord, Nat.mod_eq_of_lt w.isLt, BitVec.ofNat_toNat, BitVec.setWidth_eq]

/-- Settles O7: every clause is the engine's move of a busy block, calm or disturbed, or of an idle one. -/
theorem engineTurnRunsDecodedCommand : Obligations.EngineTurnRunsDecodedCommand := by
  refine ⟨fun s rest hp hd hi => ?_, fun s hp hd hi => ?_, fun s i hw => ?_, fun s rest hp hd hi => ?_,
    fun s rest hp hi => ?_, fun s hp hi => ?_⟩
  · rw [step_engine hi]
    exact engineMove_calm hp hd
  · rw [step_nil hi]
    exact engineMove_calm hp hd
  · rw [withFetchWord_toNat, step_engine (fetchState_inputs s (encode i))]
    have h := engineMove_calm (s := accept (encode i) s) rfl rfl
    rw [accept_lastcmd, decode_encode hw] at h
    exact h
  · rw [step_engine hi]
    exact ⟨_, _, exec_eq _ _, engineMove_disturbed hp hd, rfl, fun a ha => read_freeCells_outside ha _ _⟩
  · rw [step_engine hi]
    exact engineMove_idle hp
  · rw [step_nil hi]
    exact engineMove_idle hp

/-! ## Register accesses (R21, R44) -/

/-- A register access at an offset that is not a multiple of 4 does not exist (R21). -/
theorem step_regRead_misaligned {s : State} {off : BitVec 12} {rest : List Event}
    (h : s.inputs = .regRead off :: rest) (ho : off.toNat % 4 ≠ 0) :
    step s = .refused (.misalignedRegisterAccess off) := by
  simp only [step, h, takeMove, hostRead, if_pos ho]

theorem step_regWrite_misaligned {s : State} {off : BitVec 12} {v : Word} {rest : List Event}
    (h : s.inputs = .regWrite off v :: rest) (ho : off.toNat % 4 ≠ 0) :
    step s = .refused (.misalignedRegisterAccess off) := by
  simp only [step, h, takeMove, hostWrite, if_pos ho]

theorem writeReg_locked {s : State} {r : Reg} (hr : r.locked = true) (hp : s.phase = .busy) (v : Word) :
    writeReg s r v = overrun s := if_pos ⟨hr, hp⟩

theorem writeReg_idle {s : State} (hp : s.phase = .idle) (r : Reg) (v : Word) : writeReg s r v = storeReg s r v := by
  rw [writeReg, hp]
  exact if_neg (fun h => nomatch h.2)

theorem writeReg_unlocked {r : Reg} (hr : r.locked = false) (s : State) (v : Word) :
    writeReg s r v = storeReg s r v :=
  if_neg fun h => Bool.noConfusion (hr.symm.trans h.1)

/-- While idle a write is performed on the register of its offset. -/
theorem step_regWrite_idle {s : State} {off : BitVec 12} {v : Word} {rest : List Event} {r : Reg}
    (h : s.inputs = .regWrite off v :: rest) (ho : off.toNat % 4 = 0) (hr : regAt s.cfg off = r)
    (hp : s.phase = .idle) : step s = .next (storeReg { s with inputs := rest } r v) := by
  rw [step_regWrite h ho, hr]
  exact congrArg _ (writeReg_idle (s := { s with inputs := rest }) hp r v)

/-- Busy or idle, a write to a register that the lock does not cover is performed (R44). -/
theorem step_regWrite_unlocked {s : State} {off : BitVec 12} {v : Word} {rest : List Event} {r : Reg}
    (h : s.inputs = .regWrite off v :: rest) (ho : off.toNat % 4 = 0) (hr : regAt s.cfg off = r)
    (hl : r.locked = false) : step s = .next (storeReg { s with inputs := rest } r v) := by
  rw [step_regWrite h ho, hr, writeReg_unlocked hl]

/-- While busy a write at an offset that the lock covers is discarded (R44). -/
theorem step_regWrite_locked {s : State} {off : BitVec 12} {v : Word} {rest : List Event}
    (h : s.inputs = .regWrite off v :: rest) (ho : off.toNat % 4 = 0) (hoff : lockedOffset s.cfg off)
    (hp : s.phase = .busy) : step s = .next (overrun { s with inputs := rest }) := by
  rw [step_regWrite h ho]
  exact congrArg _ (writeReg_locked (s := { s with inputs := rest }) (locked_of_lockedOffset ho hoff) hp v)

/-- Everything a register write can do: the discard of the write lock, or, for a register it covers, the write while
idle; a write to one of the two interrupt registers; nothing. -/
theorem writeReg_cases (s : State) (r : Reg) (v : Word) :
    (r.locked = true ∧ s.phase = .busy ∧ writeReg s r v = overrun s) ∨
      (r.locked = true ∧ s.phase = .idle ∧ writeReg s r v = storeReg s r v) ∨
      writeReg s r v = { s with irqen := v.extractLsb' 0 3 } ∨
      (r = .irqst ∧ writeReg s r v = { s with irqst := ackIrq s.irqst v }) ∨
      writeReg s r v = s := by
  cases hl : r.locked with
  | true =>
    cases hp : s.phase with
    | busy => exact .inl ⟨rfl, rfl, writeReg_locked hl hp v⟩
    | idle => exact .inr (.inl ⟨rfl, rfl, writeReg_idle hp r v⟩)
  | false =>
    rw [writeReg_unlocked hl]
    cases r with
    | irqen => exact .inr (.inr (.inl rfl))
    | irqst => exact .inr (.inr (.inr (.inl ⟨rfl, rfl⟩)))
    | id | status | errcode | lastcmd | dstLen | unmapped => exact .inr (.inr (.inr (.inr rfl)))
    | _ => cases hl

/-- Settles O42: each offset is its register's, and while idle the write is performed. -/
theorem operandWritesReachTheirRegisters : Obligations.OperandWritesReachTheirRegisters := by
  intro s v rest hp
  exact ⟨fun h => step_regWrite_idle h (by decide) (regAt_srcBase _) hp,
    fun h => step_regWrite_idle h (by decide) (regAt_srcLen _) hp,
    fun h => step_regWrite_idle h (by decide) (regAt_dstBase _) hp,
    fun h => step_regWrite_idle h (by decide) (regAt_width _) hp,
    fun h => step_regWrite_idle h (by decide) (regAt_height _) hp,
    fun h => step_regWrite_idle h (by decide) (regAt_kradius _) hp,
    fun h => step_regWrite_idle h (by decide) (regAt_klen _) hp,
    fun h => step_regWrite_idle h (by decide) (regAt_divNum _) hp,
    fun h => step_regWrite_idle h (by decide) (regAt_divDen _) hp,
    fun h => step_regWrite_idle h (by decide) (regAt_lutParam _) hp⟩

/-- A register that the host may not write is neither covered by the lock nor changed by a write (R22, R44). -/
theorem storeReg_readOnly {c : Config} {off : BitVec 12}
    (h : off ∈ [0x000#12, 0x008#12, 0x00C#12, 0x010#12, 0x02C#12]) :
    (regAt c off).locked = false ∧ ∀ s v, storeReg s (regAt c off) v = s := by
  simp only [List.mem_cons, List.not_mem_nil, or_false] at h
  rcases h with rfl | rfl | rfl | rfl | rfl <;> exact ⟨rfl, fun _ _ => rfl⟩

/-- Settles O46: the write lock covers the locked offsets and no other; a register outside it is written, or ignores
the write. -/
theorem writeLockDiscards : Obligations.WriteLockDiscards := by
  refine fun s off v rest h => ⟨step_regWrite_misaligned h, fun ho =>
    ⟨fun hp hoff => step_regWrite_locked h ho hoff hp, fun hoff => ?_, fun hoff => ?_, fun hoff => ?_⟩⟩
  · exact step_regWrite_unlocked h ho (hoff ▸ regAt_irqen _) rfl
  · exact step_regWrite_unlocked h ho (hoff ▸ regAt_irqst _) rfl
  · rcases hoff with hro | hgap
    · obtain ⟨hl, hst⟩ := storeReg_readOnly (c := s.cfg) hro
      rw [step_regWrite_unlocked h ho rfl hl, hst]
    · simp only [List.mem_cons, List.not_mem_nil, or_false] at hgap
      exact step_regWrite_unlocked h ho (regAt_unmapped hgap) rfl

/-! ### Reads -/

/-- What a weight reads as (R41). -/
theorem readReg_kw {s : State} {j : Nat} {w : Weight} (h : s.kw[j]? = some w) :
    readReg s (.kw j) = w.signExtend 32 := by
  rw [readReg, List.getD_eq_getElem?_getD, h]
  rfl

/-- Settles O43: a read returns the register of its offset by the register map, and the rest of the state stays. -/
theorem registerReadsHaveNoSideEffect : Obligations.RegisterReadsHaveNoSideEffect := by
  refine fun s off rest hi => ⟨step_regRead_misaligned hi, fun ho => ⟨_, step_regRead hi ho, rfl, ?_⟩⟩
  -- the eighteen registers outside the windows: the register map evaluates at each offset
  iterate 18 refine ⟨fun hoff => by rw [hoff]; rfl, ?_⟩
  refine ⟨fun h1 h3 h2 w hw => ?_, fun k v hoff hcalm => ?_, fun hgap => ?_⟩
  · show readReg s (regAt s.cfg off) = _
    rw [regAt_weight h1 h2 (by omega), readReg_kw hw]
  · show readReg s (regAt s.cfg off) = _
    rw [hoff, regAt_lut, readReg, lutSeen_settled hcalm]
  · show readReg s (regAt s.cfg off) = _
    rw [regAt_unmapped (by simpa only [or_assoc] using hgap)]
    rfl

/-! ### The two windows -/

theorem kwOffset_toNat {c : Config} {j : Nat} (hc : c.valid = true) (hj : j < c.nw) :
    (BitVec.ofNat 12 (0x100 + 4 * j)).toNat = 0x100 + 4 * j := by
  have := nw_le hc
  rw [BitVec.toNat_ofNat, Nat.mod_eq_of_lt (by omega)]

/-- Settles O44: the write sets one place of the weight file, and the read at the same offset returns that place. -/
theorem weightWindowKeepsSixteenBits : Obligations.WeightWindowKeepsSixteenBits := by
  intro s j v rest hc hlen hj hp hi
  have ho : (BitVec.ofNat 12 (0x100 + 4 * j)).toNat % 4 = 0 := by
    rw [kwOffset_toNat hc hj]
    omega
  have hset : (s.kw.set j (v.extractLsb' 0 16))[j]? = some (v.extractLsb' 0 16) :=
    List.getElem?_set_self (by omega)
  refine ⟨_, _, step_regWrite_idle hi ho (regAt_kw hc hj) hp, rfl, hset, fun j' hne => ?_, step_regRead rfl ho, ?_⟩
  · exact List.getElem?_set_ne (Ne.symm hne)
  · show readReg _ (regAt s.cfg _) = _
    rw [regAt_kw hc hj]
    exact readReg_kw hset

/-- One entry of the tables is replaced and no other (R42). -/
theorem setEntry_entry (t : Tables) (k k' : Fin 3) (v v' : Fin 256) (b : Byte) :
    (setEntry t k v b)[k'][v'] = if (k', v') = (k, v) then b else t[k'][v'] := by
  simp only [setEntry, Fin.getElem_fin, Vector.getElem_set, Prod.mk.injEq]
  by_cases hk : k' = k
  · subst hk
    by_cases hv : v' = v
    · simp [hv]
    · simp [hv, Fin.val_inj, Ne.symm hv]
  · simp [hk, Fin.val_inj, Ne.symm hk]

theorem lutSeen_idle {s : State} (hp : s.phase = .idle) (k : Fin 3) (v : Fin 256) :
    lutSeen s k v = s.lutEntry k v :=
  lutSeen_settled (fun h => nomatch hp.symm.trans h.1) k v

/-- Settles O45: the write replaces one entry of the tables, and the read of an idle block returns it. -/
theorem tableWindowKeepsEightBits : Obligations.TableWindowKeepsEightBits := by
  intro s k v w rest hp off hi
  have ho : off.toNat % 4 = 0 := by
    rw [lutOffset_toNat]
    omega
  have hset := setEntry_entry s.lut k k v v (w.extractLsb' 0 8)
  rw [if_pos rfl] at hset
  refine ⟨_, _, step_regWrite_idle hi ho (regAt_lut _ k v) hp, rfl, hset, fun k' v' hne => ?_, step_regRead rfl ho, ?_⟩
  · exact (setEntry_entry s.lut k k' v v' _).trans (if_neg hne)
  · show readReg _ (regAt s.cfg _) = _
    rw [regAt_lut, readReg]
    exact congrArg _ ((lutSeen_idle (by exact hp) k v).trans hset)

/-! ## The interrupt registers (R28, R29, R295, R296) -/

theorem ackIrq_getLsbD (q : BitVec 3) (m : Word) {b : Nat} (hb : b < 3) :
    (ackIrq q m).getLsbD b = (q.getLsbD b && !m.getLsbD b) := by
  simp [ackIrq, hb]

theorem irqDone_getLsbD : ∀ {b : Nat}, b < 3 → irqDone.getLsbD b = decide (b = 0) := by decide

theorem irqErr_getLsbD : ∀ {b : Nat}, b < 3 → irqErr.getLsbD b = decide (b = 1) := by decide

theorem irqOvr_getLsbD : ∀ {b : Nat}, b < 3 → irqOvr.getLsbD b = decide (b = 2) := by decide

/-- The `irq` line is high exactly when some source is both pending and enabled (R296). -/
theorem irq_iff (s : State) :
    s.irq = true ↔ ∃ b, b < 3 ∧ s.irqst.getLsbD b = true ∧ s.irqen.getLsbD b = true := by
  have hmask : ∀ b, b < 3 → (s.irqst &&& s.irqen &&& 0b111#3).getLsbD b = (s.irqst.getLsbD b && s.irqen.getLsbD b) := by
    intro b hb
    have h7 : ∀ b, b < 3 → (0b111#3).getLsbD b = true := by decide
    rw [BitVec.getLsbD_and, BitVec.getLsbD_and, h7 b hb, Bool.and_true]
  rw [State.irq, bne_iff_ne]
  constructor
  · intro hne
    by_contra hnone
    refine hne (BitVec.eq_of_getLsbD_eq fun b hb => ?_)
    rw [hmask b hb, BitVec.getLsbD_zero, Bool.eq_false_iff]
    exact fun h => hnone ⟨b, hb, Bool.and_eq_true_iff.1 h⟩
  · rintro ⟨b, hb, hst, hen⟩ hzero
    have h := hmask b hb
    rw [hzero, hst, hen, BitVec.getLsbD_zero] at h
    cases h

/-- Settles O47: both registers lie outside the write lock, and the line is read bit by bit. -/
theorem interruptRegistersAndLine : Obligations.InterruptRegistersAndLine := by
  refine fun s v rest => ⟨fun h => ?_, fun h => ?_, irq_iff s⟩
  · exact step_regWrite_unlocked h (by decide) (regAt_irqen _) rfl
  · exact ⟨_, step_regWrite_unlocked h (by decide) (regAt_irqst _) rfl, rfl, fun b hb => ackIrq_getLsbD _ _ hb⟩

/-! ## After reset (R52) -/

theorem reset_lb_tag {x : LineSlot} (h : x ∈ State.reset.lb) : x.tag = none := by
  obtain ⟨i, _, rfl⟩ := List.mem_map.1 h
  rfl

/-- Settles O49: each value is the one the reset state is written with, and no slot has a tag. -/
theorem resetStateHasItsValues : Obligations.ResetStateHasItsValues :=
  ⟨rfl, rfl, rfl, rfl, rfl, rfl, rfl, rfl, rfl, rfl, rfl, rfl, rfl, rfl, rfl, rfl, rfl, rfl, fun _ => reset_lb_tag⟩

/-- The line buffer of the reset state: `NR` slots of `4*WMAX` bytes with no tag. -/
theorem reset_lb_fits : LineBuffer.Fits State.reset.cfg State.reset.lb := by
  refine ⟨(List.length_map _).trans List.length_range, fun i x hx => ?_⟩
  have hmem := List.mem_of_getElem? hx
  refine ⟨?_, fun q hq => nomatch (reset_lb_tag hmem).symm.trans hq⟩
  obtain ⟨j, _, rfl⟩ := List.mem_map.1 hmem
  rw [List.length_map, List.length_range, State.reset]

/-- Settles O53: the lists of the reset state have the lengths of its parameters. -/
theorem resetMeetsInvariant : Obligations.ResetMeetsInvariant where
  cfgValid := by decide
  status := .inr (.inl ⟨rfl, .inl rfl, rfl⟩)
  weights := (List.length_map _).trans List.length_range
  slots := reset_lb_fits.1
  slotsFit := reset_lb_fits.2
  memory := rfl
  memoryBelow := rfl
  calm := nofun

/-! ## What every move keeps -/

theorem storeReg_cfg (s : State) (r : Reg) (v : Word) : (storeReg s r v).cfg = s.cfg := by
  cases r <;> rfl

/-- Of the registers a host write reaches only `CMD` starts a command (R27, R48). -/
theorem storeReg_keeps_command {r : Reg} (hr : r ≠ .cmd) (s : State) (v : Word) :
    (storeReg s r v).lastcmd = s.lastcmd ∧ (storeReg s r v).phase = s.phase := by
  cases r with
  | cmd => exact absurd rfl hr
  | _ => exact ⟨rfl, rfl⟩

theorem storeReg_irqst {r : Reg} (hr : r.locked = true) (s : State) (v : Word) : (storeReg s r v).irqst = s.irqst := by
  cases r with
  | irqst => cases hr
  | _ => rfl

theorem writeReg_cfg (s : State) (r : Reg) (v : Word) : (writeReg s r v).cfg = s.cfg := by
  rw [writeReg]
  split
  · rfl
  · exact storeReg_cfg s r v

/-- A register write that changes `LASTCMD` or the phase is the accept step of an idle block (R130). -/
theorem writeReg_command (s : State) (r : Reg) (v : Word) :
    (r = .cmd ∧ s.phase = .idle ∧ writeReg s r v = accept v s) ∨
      ((writeReg s r v).lastcmd = s.lastcmd ∧ (writeReg s r v).phase = s.phase) := by
  rcases writeReg_cases s r v with ⟨-, -, h⟩ | ⟨-, hp, h⟩ | h | ⟨-, h⟩ | h <;> rw [h]
  case inr.inl =>
    by_cases hr : r = .cmd
    · exact .inl ⟨hr, hp, by rw [hr]; rfl⟩
    · exact .inr (storeReg_keeps_command hr s v)
  all_goals exact .inr ⟨rfl, rfl⟩

@[simp] theorem complete_lastcmd (r : Except ErrKind Effect) (s : State) : (complete r s).lastcmd = s.lastcmd := by
  cases r <;> rfl

@[simp] theorem complete_phase (r : Except ErrKind Effect) (s : State) : (complete r s).phase = .idle := by
  cases r <;> rfl

/-- A complete step sets `IRQST.DONE`, and `IRQST.ERR` exactly with a nonzero error code (R295). -/
theorem complete_irqst (r : Except ErrKind Effect) (s : State) :
    (complete r s).irqst = s.irqst ||| irqDone ∨
      ((complete r s).errcode ≠ 0#4 ∧ (complete r s).irqst = s.irqst ||| (irqDone ||| irqErr)) := by
  cases r with
  | ok e => exact .inl rfl
  | error k => exact .inr ⟨code_ne_zero k, rfl⟩

/-- The mark of R84 changes no register of a complete step. -/
theorem engineEnd_registers (s : State) :
    let u := complete (commandEffect (decode s.lastcmd) s) s
    (engineEnd s).cfg = s.cfg ∧ (engineEnd s).lastcmd = s.lastcmd ∧ (engineEnd s).phase = .idle ∧
      (engineEnd s).errcode = u.errcode ∧ (engineEnd s).irqst = u.irqst := by
  simp only [engineEnd]
  split
  · exact ⟨complete_cfg _ s, complete_lastcmd _ s, complete_phase _ s, rfl, rfl⟩
  · exact ⟨complete_cfg _ s, complete_lastcmd _ s, complete_phase _ s, rfl, rfl⟩

/-- Settles O54, by cases on the move. -/
theorem configurationNeverChanges : Obligations.ConfigurationNeverChanges := by
  intro s t h
  rcases step_cases h with ⟨off, v, rest, -, -, rfl⟩ | ⟨rest, d, rfl, -⟩ | ⟨a, b, rest, -, -, rfl⟩ |
    ⟨rest, -, ⟨-, rfl⟩ | ⟨-, rfl⟩⟩ | ⟨rest, -, rfl⟩
  · exact writeReg_cfg _ _ _
  · rfl
  · rfl
  · exact (engineEnd_registers _).1
  · rfl
  · rfl

/-- What a step does to `LASTCMD` and the phase (R27, R48): an accept step, the end of a command by the engine, reset,
or nothing. -/
theorem step_command {s t : State} (h : step s = .next t) :
    (∃ w rest, s.inputs = .regWrite 0x004#12 w :: rest ∧ s.phase = .idle ∧ t.lastcmd = w ∧ t.phase = .busy) ∨
      ((s.inputs = [] ∨ ∃ rest, s.inputs = .engine :: rest) ∧ t.lastcmd = s.lastcmd ∧ t.phase = .idle) ∨
      ((∃ rest, s.inputs = .reset :: rest) ∧ t.phase = .idle) ∨
      (t.lastcmd = s.lastcmd ∧ t.phase = s.phase) := by
  rcases step_cases h with ⟨off, v, rest, hi, -, rfl⟩ | ⟨rest, d, rfl, -⟩ | ⟨a, b, rest, -, -, rfl⟩ |
    ⟨rest, hi, ⟨-, rfl⟩ | ⟨-, rfl⟩⟩ | ⟨rest, hi, rfl⟩
  · rcases writeReg_command { s with inputs := rest } (regAt s.cfg off) v with ⟨hr, hp, hw⟩ | hkept
    · rw [offset_of_cmd hr] at hi
      rw [hw]
      exact .inl ⟨v, rest, hi, hp, rfl, rfl⟩
    · exact .inr (.inr (.inr hkept))
  · exact .inr (.inr (.inr ⟨rfl, rfl⟩))
  · exact .inr (.inr (.inr ⟨rfl, rfl⟩))
  · obtain ⟨-, hlast, hphase, -⟩ := engineEnd_registers { s with inputs := rest }
    exact .inr (.inl ⟨hi.symm.imp And.left fun h => ⟨rest, h⟩, hlast, hphase⟩)
  · exact .inr (.inr (.inr ⟨rfl, rfl⟩))
  · exact .inr (.inr (.inl ⟨⟨rest, hi⟩, rfl⟩))

/-- Settles O56: of the four things a step does to a command only the accept step and reset write `LASTCMD`. -/
theorem lastcmdChangesOnlyOnAccept : Obligations.LastcmdChangesOnlyOnAccept := by
  intro s t h hne
  rcases step_command h with ⟨w, rest, hi, hp, hw, -⟩ | ⟨-, hkept, -⟩ | ⟨hreset, -⟩ | ⟨hkept, -⟩
  · exact .inl ⟨w, rest, hi, hp, hw⟩
  · exact absurd hkept hne
  · exact .inr hreset
  · exact absurd hkept hne

/-- Settles O57: likewise for the phase. -/
theorem phaseChangesOnlyByItsThreeSteps : Obligations.PhaseChangesOnlyByItsThreeSteps := by
  intro s t h
  rcases step_command h with ⟨w, rest, hi, -, -, hp⟩ | ⟨hi, -, hp⟩ | ⟨hi, hp⟩ | ⟨-, hp⟩
  · exact ⟨fun _ _ => ⟨w, rest, hi⟩, fun _ ht => nomatch hp.symm.trans ht⟩
  · exact ⟨fun _ ht => (nomatch hp.symm.trans ht), fun _ _ => hi.imp_right .inl⟩
  · exact ⟨fun _ ht => (nomatch hp.symm.trans ht), fun _ _ => .inr (.inr hi)⟩
  · rw [hp]
    exact ⟨fun hs ht => (nomatch hs.symm.trans ht), fun hs ht => (nomatch hs.symm.trans ht)⟩

/-- Settles O55: of a busy block the host writes only the interrupt registers and bytes of frame memory; the engine's
step and reset leave it idle. -/
theorem operandsLockedWhileBusy : Obligations.OperandsLockedWhileBusy := by
  intro s t hp h ht
  rcases step_cases h with ⟨off, v, rest, -, -, rfl⟩ | ⟨rest, d, rfl, -⟩ | ⟨a, b, rest, hi, -, rfl⟩ |
    ⟨rest, -, ⟨-, rfl⟩ | ⟨hidle, -⟩⟩ | ⟨rest, -, rfl⟩
  · rcases writeReg_cases { s with inputs := rest } (regAt s.cfg off) v with
      ⟨-, -, hw⟩ | ⟨-, hidle, -⟩ | hw | ⟨-, hw⟩ | hw
    case inr.inl => exact nomatch hp.symm.trans hidle
    all_goals
      rw [hw]
      exact ⟨rfl, .inl rfl⟩
  · exact ⟨rfl, .inl rfl⟩
  · exact ⟨rfl, .inr ⟨a, b, rest, hi, rfl⟩⟩
  · obtain ⟨-, -, hphase, -⟩ := engineEnd_registers { s with inputs := rest }
    exact nomatch hphase.symm.trans ht
  · exact nomatch hp.symm.trans hidle
  · cases ht

/-! ### `IRQST` (R295, R297) -/

/-- What a step does to `IRQST`: nothing, the host's acknowledgement, the discard of the write lock, a complete step, or
reset. -/
theorem step_irqst {s t : State} (h : step s = .next t) :
    t.irqst = s.irqst ∨
      (∃ v rest, s.inputs = .regWrite 0x018#12 v :: rest ∧ t.irqst = ackIrq s.irqst v) ∨
      (∃ off v rest, s.inputs = .regWrite off v :: rest ∧ off.toNat % 4 = 0 ∧ lockedOffset s.cfg off ∧
        s.phase = .busy ∧ t.irqst = s.irqst ||| irqOvr) ∨
      ((s.inputs = [] ∨ ∃ rest, s.inputs = .engine :: rest) ∧ s.phase = .busy ∧ t.phase = .idle ∧
        (t.irqst = s.irqst ||| irqDone ∨ (t.errcode ≠ 0#4 ∧ t.irqst = s.irqst ||| (irqDone ||| irqErr)))) ∨
      ((∃ rest, s.inputs = .reset :: rest) ∧ t.irqst = 0#3) := by
  rcases step_cases h with ⟨off, v, rest, hi, ho, rfl⟩ | ⟨rest, d, rfl, -⟩ | ⟨a, b, rest, -, -, rfl⟩ |
    ⟨rest, hi, ⟨hp, rfl⟩ | ⟨-, rfl⟩⟩ | ⟨rest, hi, rfl⟩
  · rcases writeReg_cases { s with inputs := rest } (regAt s.cfg off) v with
      ⟨hl, hp, hw⟩ | ⟨hl, -, hw⟩ | hw | ⟨hr, hw⟩ | hw <;> rw [hw]
    · exact .inr (.inr (.inl ⟨off, v, rest, hi, ho, lockedOffset_of_locked hl, hp, rfl⟩))
    · exact .inl (storeReg_irqst hl _ v)
    · exact .inl rfl
    · rw [offset_of_irqst hr] at hi
      exact .inr (.inl ⟨v, rest, hi, rfl⟩)
    · exact .inl rfl
  · exact .inl rfl
  · exact .inl rfl
  · obtain ⟨-, -, hphase, herr, hirq⟩ := engineEnd_registers { s with inputs := rest }
    refine .inr (.inr (.inr (.inl ⟨hi.symm.imp And.left fun h => ⟨rest, h⟩, hp, hphase, ?_⟩)))
    rw [herr, hirq]
    exact complete_irqst _ _
  · exact .inl rfl
  · exact .inr (.inr (.inr (.inr ⟨⟨rest, hi⟩, rfl⟩)))

/-- Settles O58: bit by bit, what each of the five things a step does to `IRQST` sets and clears. -/
theorem irqBitsAreSticky : Obligations.IrqBitsAreSticky := by
  intro s t b hb h
  rcases step_irqst h with hq | ⟨v, rest, hi, hq⟩ | ⟨off, v, rest, hi, ho, hoff, hp, hq⟩ |
    ⟨hi, hp, ht, hq | ⟨herr, hq⟩⟩ | ⟨hi, hq⟩ <;> rw [hq]
  · exact ⟨fun h1 h0 => (nomatch h1.symm.trans h0), fun h0 h1 => (nomatch h1.symm.trans h0),
      fun h0 h1 => (nomatch h1.symm.trans h0)⟩
  · rw [ackIrq_getLsbD _ _ hb]
    refine ⟨fun h1 h0 => .inl ⟨v, rest, hi, by simpa [h1] using h0⟩, fun h0 h1 => ?_, fun h0 h1 => ?_⟩
    · simp [h0] at h1
    · simp [h0] at h1
  · rw [BitVec.getLsbD_or, irqOvr_getLsbD hb]
    refine ⟨fun h1 h0 => ?_, fun h0 h1 hlow => ?_, fun _ _ _ => ⟨hp, off, v, rest, hi, ho, hoff⟩⟩
    · simp [h1] at h0
    · have hbit : b = 2 := by simpa [h0] using h1
      omega
  · rw [BitVec.getLsbD_or, irqDone_getLsbD hb]
    have hset (h0 : s.irqst.getLsbD b = false) (h1 : (s.irqst.getLsbD b || decide (b = 0)) = true) : b = 0 := by
      simpa [h0] using h1
    refine ⟨fun h1 h0 => ?_, fun h0 h1 _ => ⟨hp, ht, hi, fun herr => ?_⟩, fun h0 h1 hovr => ?_⟩
    · simp [h1] at h0
    · exact absurd ((hset h0 h1).symm.trans herr) (by decide)
    · exact absurd ((hset h0 h1).symm.trans hovr) (by decide)
  · rw [BitVec.getLsbD_or, BitVec.getLsbD_or, irqDone_getLsbD hb, irqErr_getLsbD hb]
    refine ⟨fun h1 h0 => ?_, fun _ _ _ => ⟨hp, ht, hi, fun _ => herr⟩, fun h0 h1 hovr => ?_⟩
    · simp [h1] at h0
    · have hbit : b = 0 ∨ b = 1 := by simpa [h0] using h1
      omega
  · rw [BitVec.getLsbD_zero]
    exact ⟨fun _ _ => .inr hi, nofun, nofun⟩

/-! ## `DST_LEN` (R33) -/

/-- Settles O38: `DST_LEN` is the exact output length of a success and 0 after an error, and it is read-only. -/
theorem dstLenIsOutputLength : Obligations.DstLenIsOutputLength := by
  refine ⟨fun i s t hv h => ?_, fun s v rest hi => step_regWrite_unlocked hi (by decide) (regAt_dstLen _) rfl, rfl⟩
  rcases exec_cases h with ⟨e, he, rfl⟩ | ⟨k, he, rfl⟩
  · rw [if_pos (completeOk_errcode e s), completeOk_dstLen, dstLen_toNat hv he]
    rcases effect_cases he with ⟨_, mono, _, _, _, hdepth, _, hlen, _⟩ | ⟨hdepth, _, hlen, _⟩
    · rw [hdepth, hlen]
    · rw [hdepth, hlen]
  · exact (if_neg (code_ne_zero k)).symm

end Sys2Proof.Machine
end

section
/-! PROOFS. Frame memory (20_memory.md): what a command reads and writes of it (R80, R88), and the host's accesses to
it while a command is in execution (R71, R84). -/

namespace Sys2Proof.Machine

/-! ## The engine's accesses (R80, R88) -/

/-- A byte of the source region is no byte a command writes (R79, R88). -/
theorem read_writes_source {i : Instr} {s : State} {e : Effect} (he : commandEffect i s = .ok e) {a : Nat}
    (ha : s.srcBase.toNat ≤ a ∧ a < s.srcBase.toNat + s.srcLen.toNat) (m : Memory) :
    Memory.read (m.writeAll e.fmWrites) a = m.read a :=
  read_writes_outside he (regions_apart he ha) m

/-- Settles O37: a success writes inside its destination region, which the source region does not meet; an error
leaves frame memory as it is. -/
theorem commandsWriteOnlyDestination : Obligations.CommandsWriteOnlyDestination := by
  intro i s t hv h
  rcases exec_cases h with ⟨e, he, rfl⟩ | ⟨k, -, rfl⟩
  · refine ⟨fun herr => absurd (completeOk_errcode e s) herr, fun _ a ha => ?_,
      fun a h1 h2 => read_writes_source he ⟨h1, h2⟩ s.fm⟩
    rw [completeOk_dstLen, dstLen_toNat hv he] at ha
    exact read_writes_outside he ha s.fm
  · exact ⟨fun _ => rfl, fun herr => absurd herr (code_ne_zero k), fun _ _ _ => rfl⟩

/-- Two results that are equal but for the hidden line buffer are one error, or two effects that differ there only. -/
theorem map_visible_eq {r r' : Except ErrKind Effect} (h : r'.map Effect.visible = r.map Effect.visible) :
    (∃ k, r = .error k ∧ r' = .error k) ∨
      ∃ e e', r = .ok e ∧ r' = .ok e' ∧ e'.fmWrites = e.fmWrites ∧ e'.lut = e.lut ∧ e'.outLen = e.outLen := by
  cases r with
  | error k =>
    cases r' with
    | error k' => exact .inl ⟨k, rfl, congrArg _ (Except.error.inj h)⟩
    | ok e' => cases h
  | ok e =>
    cases r' with
    | error k' => cases h
    | ok e' =>
      have hvis : e'.visible = e.visible := Except.ok.inj h
      exact .inr ⟨e, e', rfl, rfl, congrArg (·.fmWrites) hvis, congrArg (·.lut) hvis, congrArg (·.outLen) hvis⟩

/-- Settles O39: the two commands have one effect but for the hidden line buffer, and it writes every byte of the
destination region. -/
theorem sourceRegionDeterminesOutput : Obligations.SourceRegionDeterminesOutput := by
  intro i s s' t t' hv hwf hwf' hs hsrc h h'
  have hops : SameOperands s s' := by
    rw [hs]
    exact ⟨rfl, rfl, rfl, rfl, rfl, rfl, rfl, rfl, rfl, rfl, rfl⟩
  have hkw : s'.kw = s.kw := by rw [hs]
  have hlut : s'.lut = s.lut := by rw [hs]
  rw [exec_next_iff] at h h'
  rcases map_visible_eq (commandEffect_congr hops hsrc hkw hlut i) with
    ⟨k, he, he'⟩ | ⟨e, e', he, he', hw, hl, hn⟩
  · rw [h, h', he, he']
    exact ⟨rfl, hlut, rfl, fun a h1 h2 => absurd h2 (Nat.not_lt.2 h1)⟩
  · rw [h, h', he, he']
    refine ⟨rfl, ?_, congrArg (BitVec.ofNat 32) hn, fun a h1 h2 => ?_⟩
    · show e'.lut.getD s'.lut = e.lut.getD s.lut
      rw [hl, hlut]
    · show Memory.read (s'.fm.writeAll e'.fmWrites) a = Memory.read (s.fm.writeAll e.fmWrites) a
      rw [complete, completeOk_dstLen, dstLen_toNat hv he] at h2
      rw [hw]
      exact Memory.read_writeAll_congr hwf' hwf (.inr (fmWrites_covers he ⟨h1, h2⟩))

/-! ## The regions of a command in execution (R77, R84)

`u` is the state that the complete step of the command will leave: its `DST_LEN` is the length of the destination
region, 0 for a command that has none (log entry 12). -/

section
variable {s u : State} (hu : exec (decode s.lastcmd) s = .next u)
include hu

/-- The complete step of a command that will succeed is `completeOk` on its effect. -/
theorem completeOk_of_inFlight {e : Effect} (he : inFlight s = some e) :
    commandEffect (decode s.lastcmd) s = .ok e ∧ u = completeOk e s := by
  have hc := (inFlight_some he).2
  exact ⟨hc, Host.Outcome.next.inj (hu.symm.trans (exec_ok hc))⟩

/-- A command whose complete step leaves a `DST_LEN` other than 0 succeeds. -/
theorem inFlight_of_dstLen_ne_zero (hp : s.phase = .busy) (h0 : u.dstLen ≠ 0#32) : ∃ e, inFlight s = some e := by
  rcases exec_cases hu with ⟨e, he, -⟩ | ⟨k, -, rfl⟩
  · exact ⟨e, inFlight_ok hp he⟩
  · exact absurd rfl h0

/-- The destination region is the `DST_LEN` bytes from `DST_BASE` (R33, R77). -/
theorem inDstRegion_iff_dstLen (hv : s.cfg.valid = true) (hp : s.phase = .busy) {a : Nat} :
    inDstRegion s a = true ↔ s.dstBase.toNat ≤ a ∧ a < s.dstBase.toNat + u.dstLen.toNat := by
  rw [inDstRegion_iff]
  constructor
  · rintro ⟨e, he, ha⟩
    obtain ⟨hc, rfl⟩ := completeOk_of_inFlight hu he
    rwa [completeOk_dstLen, dstLen_toNat hv hc]
  · intro ha
    have h0 : u.dstLen ≠ 0#32 := by
      intro h0
      rw [h0] at ha
      exact absurd ha.2 (Nat.not_lt.2 ha.1)
    obtain ⟨e, he⟩ := inFlight_of_dstLen_ne_zero hu hp h0
    obtain ⟨hc, rfl⟩ := completeOk_of_inFlight hu he
    rw [completeOk_dstLen, dstLen_toNat hv hc] at ha
    exact ⟨e, he, ha⟩

/-- A command with a destination region has a source region too, the `SRC_LEN` bytes from `SRC_BASE` (R77). -/
theorem inSrcRegion_iff_dstLen (hv : s.cfg.valid = true) (hp : s.phase = .busy) {a : Nat} :
    inSrcRegion s a = true ↔
      u.dstLen ≠ 0#32 ∧ s.srcBase.toNat ≤ a ∧ a < s.srcBase.toNat + s.srcLen.toNat := by
  have hlen {e : Effect} (he : inFlight s = some e) : e.outLen ≠ 0 ↔ u.dstLen ≠ 0#32 := by
    obtain ⟨hc, rfl⟩ := completeOk_of_inFlight hu he
    rw [completeOk_dstLen, Ne, Ne, BitVec.toNat_eq, dstLen_toNat hv hc]
    rfl
  rw [inSrcRegion_iff]
  constructor
  · rintro ⟨e, he, h0, ha⟩
    exact ⟨(hlen he).1 h0, ha⟩
  · rintro ⟨h0, ha⟩
    obtain ⟨e, he⟩ := inFlight_of_dstLen_ne_zero hu hp h0
    exact ⟨e, he, (hlen he).2 h0, ha⟩

/-- In the destination region of an undisturbed command a read sees the byte before or the byte after (R84). -/
theorem memSeen_dstRegion (hd : s.disturbed = false) {a : Nat}
    (ha : inDstRegion s a = true) : memSeen s a = s.fm.read a ∨ memSeen s a = u.fm.read a := by
  obtain ⟨e, he, -⟩ := inDstRegion_iff.1 ha
  obtain ⟨-, rfl⟩ := completeOk_of_inFlight hu he
  rw [memSeen, if_pos ha, hd, if_neg Bool.false_ne_true, he]
  cases Config.freeBit s.freeCount a with
  | false => exact .inl rfl
  | true => exact .inr rfl

end

theorem inDstRegion_idle {s : State} (hp : s.phase = .idle) (a : Nat) : inDstRegion s a = false := by
  rw [inDstRegion, inFlight_idle hp]

theorem inSrcRegion_idle {s : State} (hp : s.phase = .idle) (a : Nat) : inSrcRegion s a = false := by
  rw [inSrcRegion, inFlight_idle hp]

/-- Outside the destination region a read sees frame memory (R71). -/
theorem memSeen_outside {s : State} {a : Nat} (ha : inDstRegion s a = false) : memSeen s a = s.fm.read a := by
  rw [memSeen, ha]
  rfl

/-! ## The host's accesses (R70, R71, R84) -/

/-- Frame memory has no byte from `FM_BYTES` up (R71). -/
theorem step_memRead_beyond {s : State} {a : Nat} {rest : List Event} (h : s.inputs = .memRead a :: rest)
    (ha : s.cfg.fmBytes ≤ a) : step s = .fault (.noFrameByte a) := by
  simp only [step, h, takeMove, hostMemRead]
  exact if_neg (Nat.not_lt.2 ha)

theorem step_memWrite_beyond {s : State} {a : Nat} {b : Byte} {rest : List Event}
    (h : s.inputs = .memWrite a b :: rest) (ha : s.cfg.fmBytes ≤ a) : step s = .fault (.noFrameByte a) := by
  simp only [step, h, takeMove, hostMemWrite]
  exact if_neg (Nat.not_lt.2 ha)

/-- Settles O40: outside the regions of a command in execution a read sees frame memory and a write leaves no mark. -/
theorem hostReadsWhatWasWritten : Obligations.HostReadsWhatWasWritten := by
  intro s a b rest hv hwf hout
  have hdst : inDstRegion s a = false := by
    cases hp : s.phase with
    | idle => exact inDstRegion_idle hp a
    | busy =>
      have hu := exec_eq (decode s.lastcmd) s
      exact Bool.eq_false_iff.2 fun h => hout hp _ hu ((inDstRegion_iff_dstLen hu hv hp).1 h)
  refine ⟨fun ha hi => ?_, fun ha hi hsrcOut => ?_, fun ha hi => step_memRead_beyond hi ha,
    fun ha hi => step_memWrite_beyond hi ha⟩
  · rw [step_memRead hi ha, memSeen_outside hdst]
  · have hsrc : inSrcRegion s a = false := by
      cases hp : s.phase with
      | idle => exact inSrcRegion_idle hp a
      | busy =>
        have hu := exec_eq (decode s.lastcmd) s
        refine Bool.eq_false_iff.2 fun h => ?_
        obtain ⟨h0, hin⟩ := (inSrcRegion_iff_dstLen hu hv hp).1 h
        exact hsrcOut hp _ hu h0 hin
    refine ⟨_, step_memWrite hi ha, ?_, Memory.read_write_same a b hwf,
      fun a' hne => Memory.read_write_other hne b s.fm⟩
    rw [hsrc, hdst, Bool.or_false, Bool.or_false]

/-- Settles O41: a read in the destination region sees the byte before or after the complete step, and a write into
either region leaves its mark. -/
theorem hostAccessToBusyRegions : Obligations.HostAccessToBusyRegions := by
  intro s u a rest hv hp ha hu h0
  refine ⟨fun hd hi h1 h2 => ?_, fun b hi hreg => ?_⟩
  · have hin := (inDstRegion_iff_dstLen hu hv hp).2 ⟨h1, h2⟩
    exact ⟨_, step_memRead hi ha, rfl, (memSeen_dstRegion hu hd hin).imp
      (congrArg (BitVec.setWidth 32)) (congrArg (BitVec.setWidth 32))⟩
  · have hmark : (s.disturbed || inSrcRegion s a || inDstRegion s a) = true := by
      rcases hreg with hsrc | hdst
      · rw [(inSrcRegion_iff_dstLen hu hv hp).2 ⟨h0, hsrc⟩, Bool.or_true, Bool.true_or]
      · rw [(inDstRegion_iff_dstLen hu hv hp).2 hdst, Bool.or_true]
    rw [step_memWrite hi ha, hmark]

end Sys2Proof.Machine
end

section
/-! PROOFS. The encoding (30_encoding.md): decoding and encoding undo each other (R106, R110), the opcode map names the
command that the decoder reads (R114), and the reserved words fail (R107). -/

namespace Sys2Proof

/-! ## Every word is the word of a well-formed command (R106) -/

/-- Settles O1, by the form of the command: `decode_encode`. -/
theorem decodeInvertsEncode : Obligations.DecodeInvertsEncode := fun _ => decode_encode

/-- Each `SUB` names one kind of `BUILD` (R103, R188). -/
theorem encode_decodeBuild : ∀ sub : BitVec 4,
    (decodeBuild sub).wellFormed = true ∧ encode (decodeBuild sub) = cmdWord 2 sub 0 false false := by decide

/-- Each `SUB` names one mode of `GRAY`; the two modes with no channel ask for `ARG = 0` (R104, R164). -/
theorem encode_decodeGray {sub arg : BitVec 4} (h : ¬ (sub.toNat ≤ 1 ∧ arg ≠ 0#4)) (mono : Bool) :
    (decodeGray sub arg mono).wellFormed = true ∧
      encode (decodeGray sub arg mono) = cmdWord 4 sub arg mono false := by
  have harg (hs : sub.toNat ≤ 1) : arg = 0#4 := not_not.1 fun ha => h ⟨hs, ha⟩
  rw [decodeGray]
  split_ifs with h0 h1 h2 h3 h7
  · rw [harg (by simp [h0]), h0]
    exact ⟨rfl, rfl⟩
  · rw [harg (by simp [h1]), h1]
    exact ⟨rfl, rfl⟩
  · rw [h2]
    exact ⟨rfl, rfl⟩
  · rw [h3]
    exact ⟨rfl, rfl⟩
  · have h4 : 4 ≤ sub.toNat := by bv_omega
    exact ⟨Bool.and_eq_true_iff.2 ⟨decide_eq_true h4, decide_eq_true h7⟩, rfl⟩
  · have h8 : 8 ≤ sub.toNat := by omega
    exact ⟨decide_eq_true h8, rfl⟩

theorem op_cases {op : BitVec 8} (h : op.toNat ≤ 5) :
    op = 0#8 ∨ op = 1#8 ∨ op = 2#8 ∨ op = 3#8 ∨ op = 4#8 ∨ op = 5#8 := by
  bv_omega

/-- A reserved word is that of its `illegal`; any other has the zeros that R102 requires of its operation, and the
fields left free are the operands. -/
theorem exists_encode (w : Word) : ∃ i : Instr, i.wellFormed = true ∧ encode i = w := by
  cases hw : reservedWord w with
  | true => exact ⟨.illegal w, hw, rfl⟩
  | false =>
    rw [← fieldWord_fields w] at hw ⊢
    generalize rsvField w = rsv, medField w = med, monoField w = mono, argField w = arg, subField w = sub,
      opField w = op at hw ⊢
    rw [reservedWord_fieldWord] at hw
    simp only [Bool.or_eq_false_iff, Bool.and_eq_false_imp, decide_eq_true_eq, decide_eq_false_iff_not, not_or,
      not_not, not_lt, Bool.not_eq_true] at hw
    obtain ⟨⟨⟨⟨⟨⟨rfl, hop⟩, h05⟩, h1⟩, h2⟩, h3⟩, h4⟩ := hw
    rcases op_cases hop with rfl | rfl | rfl | rfl | rfl | rfl
    · obtain ⟨rfl, rfl, rfl, rfl⟩ := h05 (.inl rfl)
      exact ⟨.nop, rfl, rfl⟩
    · obtain ⟨rfl, rfl⟩ := h1 rfl
      exact ⟨.conv mono med, rfl, rfl⟩
    · obtain ⟨rfl, rfl, rfl⟩ := h2 rfl
      exact ⟨decodeBuild sub, encode_decodeBuild sub⟩
    · obtain ⟨rfl, rfl, rfl⟩ := h3 rfl
      exact ⟨.apply mono, rfl, rfl⟩
    · obtain ⟨rfl, harg⟩ := h4 rfl
      exact ⟨decodeGray sub arg mono, encode_decodeGray harg mono⟩
    · obtain ⟨rfl, rfl, rfl, rfl⟩ := h05 (.inr rfl)
      exact ⟨.valid, rfl, rfl⟩

/-- Settles O2: every word is `encode i` of a well-formed `i`, and decoding gives that `i` back. -/
theorem encodeInvertsDecode : Obligations.EncodeInvertsDecode := by
  intro w
  obtain ⟨i, hi, rfl⟩ := exists_encode w
  rw [decode_encode hi]
  exact ⟨hi, rfl⟩

/-- A word is decoded to the well-formed command it encodes. -/
theorem decode_of_encode {i : Instr} {w : Word} (hi : i.wellFormed = true) (hw : encode i = w) : decode w = i :=
  hw ▸ decode_encode hi

/-- Settles O5: each word is the one that the encoding tables give the command. -/
theorem writtenOutWordsDecode : Obligations.WrittenOutWordsDecode := by
  refine ⟨?_, ?_, ?_, ?_, ?_, ?_, ?_, ?_, ?_, ?_, ?_, ?_, ?_, ?_, ?_⟩ <;> exact decode_of_encode rfl rfl

/-! ## The opcode map (R114) -/

/-- The row of a well-formed command selects its word. -/
theorem row_selects_encode (i : Instr) : Laws.EncodesInRow.Statement i := by
  cases i with
  | nop => exact Laws.EncodesInRow.nop
  | conv mono med => exact Laws.EncodesInRow.conv mono med
  | buildBrightness => exact Laws.EncodesInRow.buildBrightness
  | buildContrast => exact Laws.EncodesInRow.buildContrast
  | buildPosterize => exact Laws.EncodesInRow.buildPosterize
  | buildThreshold => exact Laws.EncodesInRow.buildThreshold
  | buildSolarize => exact Laws.EncodesInRow.buildSolarize
  | buildPseudocolor => exact Laws.EncodesInRow.buildPseudocolor
  | buildInvert => exact Laws.EncodesInRow.buildInvert
  | buildUnknown7 => exact Laws.EncodesInRow.buildUnknown7
  | buildUnknown8to15 sub => exact Laws.EncodesInRow.buildUnknown8to15 sub
  | apply mono => exact Laws.EncodesInRow.apply mono
  | grayLuma mono => exact Laws.EncodesInRow.grayLuma mono
  | grayAverage mono => exact Laws.EncodesInRow.grayAverage mono
  | graySimple ch mono => exact Laws.EncodesInRow.graySimple ch mono
  | grayUnknown3 arg mono => exact Laws.EncodesInRow.grayUnknown3 arg mono
  | grayUnknown4to7 sub arg mono => exact Laws.EncodesInRow.grayUnknown4to7 sub arg mono
  | grayUnknown8to15 sub arg mono => exact Laws.EncodesInRow.grayUnknown8to15 sub arg mono
  | valid => exact Laws.EncodesInRow.valid
  | illegal w => exact Laws.EncodesInRow.illegal w

/-- Every row before the last tests all of `RSV` and `OP`, and asks for `RSV = 0`. -/
theorem row_rsv_op : ∀ r ∈ opcodeTable.take 19,
    rsvField r.mask = BitVec.allOnes 14 ∧ opField r.mask = BitVec.allOnes 8 ∧ rsvField r.pattern = 0#14 := by decide

/-! Rows 10, 16 and 17 test a part of `SUB`: its top bit, or its two top bits. -/

theorem eight_le_sub_of_top_bit : ∀ sub : BitVec 4, sub &&& 8#4 = 8#4 → 8 ≤ sub.toNat := by decide

theorem sub_range_of_top_bits : ∀ sub : BitVec 4, sub &&& 12#4 = 4#4 → 4 ≤ sub.toNat ∧ sub.toNat ≤ 7 := by decide

/-- A word that a row before the last selects: `RSV` and `OP` are the row's, and the other fields pass its test. -/
theorem cmdWord_of_selects {r : TableRow} {w : Word} (hr : r ∈ opcodeTable.take 19) (h : r.selects w = true) :
    ∃ (sub arg : BitVec 4) (mono med : Bool), w = cmdWord (opField r.pattern) sub arg mono med ∧
      sub &&& subField r.mask = subField r.pattern ∧ arg &&& argField r.mask = argField r.pattern ∧
      (mono && monoField r.mask) = monoField r.pattern ∧ (med && medField r.mask) = medField r.pattern := by
  obtain ⟨hrsv, hop, hzero⟩ := row_rsv_op r hr
  refine ⟨subField w, argField w, monoField w, medField w, ?_⟩
  rw [← fieldWord_fields w, selects_fieldWord, hrsv, hop, BitVec.and_allOnes, BitVec.and_allOnes, hzero] at h
  simp only [Bool.and_eq_true, beq_iff_eq] at h
  obtain ⟨⟨⟨⟨⟨hr0, hmed⟩, hmono⟩, harg⟩, hsub⟩, ho⟩ := h
  refine ⟨?_, hsub, harg, hmono, hmed⟩
  rw [cmdWord_eq, ← hr0, ← ho, fieldWord_fields]

/-- A word that a row before the last selects is the word of a command of that row: the tested fields are the row's,
and the fields left free are the operands. -/
theorem exists_encode_of_selects {p : Nat} {r : TableRow} {w : Word} (hp : p < 19) (hr : opcodeTable[p]? = some r)
    (h : r.selects w = true) : ∃ i : Instr, i.wellFormed = true ∧ i.rowIndex = p ∧ encode i = w := by
  have hmem : r ∈ opcodeTable.take 19 := List.mem_of_getElem? ((List.getElem?_take_of_lt hp).trans hr)
  obtain ⟨sub, arg, mono, med, rfl, hsub, harg, hmono, hmed⟩ := cmdWord_of_selects hmem h
  have hfull : ∀ x : BitVec 4, x &&& 15#4 = x := fun _ => BitVec.and_allOnes
  clear h hmem
  interval_cases p <;> cases hr
  all_goals
    simp only [subField, argField, monoField, medField, BitVec.reduceExtractLsb', BitVec.extractLsb'_zero,
      BitVec.reduceGetLsb, hfull, BitVec.and_zero, Bool.and_true, Bool.and_false] at hsub harg hmono hmed
    subst_vars
  · exact ⟨.nop, rfl, rfl, rfl⟩
  · exact ⟨.conv mono med, rfl, rfl, rfl⟩
  · exact ⟨.buildBrightness, rfl, rfl, rfl⟩
  · exact ⟨.buildContrast, rfl, rfl, rfl⟩
  · exact ⟨.buildPosterize, rfl, rfl, rfl⟩
  · exact ⟨.buildThreshold, rfl, rfl, rfl⟩
  · exact ⟨.buildSolarize, rfl, rfl, rfl⟩
  · exact ⟨.buildPseudocolor, rfl, rfl, rfl⟩
  · exact ⟨.buildInvert, rfl, rfl, rfl⟩
  · exact ⟨.buildUnknown7, rfl, rfl, rfl⟩
  · exact ⟨.buildUnknown8to15 sub, decide_eq_true (eight_le_sub_of_top_bit sub hsub), rfl, rfl⟩
  · exact ⟨.apply mono, rfl, rfl, rfl⟩
  · exact ⟨.grayLuma mono, rfl, rfl, rfl⟩
  · exact ⟨.grayAverage mono, rfl, rfl, rfl⟩
  · exact ⟨.graySimple arg mono, rfl, rfl, rfl⟩
  · exact ⟨.grayUnknown3 arg mono, rfl, rfl, rfl⟩
  · obtain ⟨h4, h7⟩ := sub_range_of_top_bits sub hsub
    exact ⟨.grayUnknown4to7 sub arg mono, Bool.and_eq_true_iff.2 ⟨decide_eq_true h4, decide_eq_true h7⟩, rfl, rfl⟩
  · exact ⟨.grayUnknown8to15 sub arg mono, decide_eq_true (eight_le_sub_of_top_bit sub hsub), rfl, rfl⟩
  · exact ⟨.valid, rfl, rfl, rfl⟩

theorem rowIndex_of_selects {p : Nat} {r : TableRow} {w : Word} (hp : p < 19) (hr : opcodeTable[p]? = some r)
    (h : r.selects w = true) : (decode w).rowIndex = p := by
  obtain ⟨i, hi, rfl, rfl⟩ := exists_encode_of_selects hp hr h
  rw [decode_encode hi]

/-- The row of a command selects its word, and any earlier row that did would be its row too. -/
theorem tableIndex_encode {i : Instr} (hi : i.wellFormed = true) : tableIndex (encode i) = i.rowIndex := by
  obtain ⟨r, hr, hsel⟩ := Option.map_eq_some_iff.1 (row_selects_encode i hi)
  obtain ⟨hlt, rfl⟩ := List.getElem?_eq_some_iff.1 hr
  refine (List.findIdx_eq hlt).2 ⟨hsel, fun q hq => Bool.eq_false_iff.2 fun hq' => ?_⟩
  have hlen : opcodeTable.length = 20 := rfl
  have hrow := rowIndex_of_selects (by omega) (List.getElem?_eq_getElem _) hq'
  rw [decode_encode hi] at hrow
  omega

/-- Settles O3: every word is that of a command, which its row selects; two rows before the last that select one word
would both be the row of its command. -/
theorem opcodeTableAgreesWithDecoder : Obligations.OpcodeTableAgreesWithDecoder := by
  refine ⟨rfl, fun w => ?_, fun w p q a b hpq hq ha hb hsel => ?_, fun w a ha => ?_⟩
  · obtain ⟨i, hi, rfl⟩ := exists_encode w
    rw [decode_encode hi, tableIndex_encode hi]
  · obtain ⟨hsela, hselb⟩ := hsel
    have hp := rowIndex_of_selects (hpq.trans hq) ha (beq_iff_eq.2 hsela)
    have hq := rowIndex_of_selects hq hb (beq_iff_eq.2 hselb)
    omega
  · cases ha
    exact BitVec.and_zero

/-! ## The reserved words (R107) -/

theorem isIllegal_iff {i : Instr} : i.isIllegal = true ↔ ∃ w, i = .illegal w := by
  cases i with
  | illegal w => exact ⟨fun _ => ⟨w, rfl⟩, fun _ => rfl⟩
  | _ => exact ⟨nofun, nofun⟩

/-- An `illegal` that is decoded is well formed and encodes the word itself, so it carries a reserved word, this one. -/
theorem isIllegal_decode (w : Word) : (decode w).isIllegal = reservedWord w := by
  rw [Bool.eq_iff_iff, isIllegal_iff]
  refine ⟨fun ⟨v, hv⟩ => ?_, fun h => ⟨w, decode_reservedWord h⟩⟩
  obtain ⟨hwf, henc⟩ := encodeInvertsDecode w
  rw [hv] at hwf henc
  obtain rfl : v = w := henc
  exact hwf

end Sys2Proof

namespace Sys2Proof.Machine

/-- The complete step of a reserved word is the error of code 6 (R107, R286). -/
theorem exec_reservedWord {w : Word} (h : reservedWord w = true) (s : State) :
    exec (decode w) s = .next (failed s 6#4) := by
  rw [decode_reservedWord h, exec_error rfl, completeErr_eq]
  rfl

/-- Settles O4: the host's write is the accept step of the word, and the engine's move its complete step. -/
theorem reservedWordsFailAsIllegal : Obligations.ReservedWordsFailAsIllegal := by
  refine ⟨isIllegal_decode, fun s w rest hw hp hi => ?_⟩
  refine ⟨_, step_regWrite_idle hi (by decide) (regAt_cmd _) hp, ?_⟩
  rw [step_engine rfl, engineMove_calm rfl rfl]
  exact exec_reservedWord hw _

/-! ## What stops the machine (R21, R71) -/

theorem engineMove_next (s : State) : ∃ t, engineMove s = .next t := by
  cases hp : s.phase with
  | idle => exact ⟨_, engineMove_idle hp⟩
  | busy => exact ⟨_, engineMove_busy hp⟩

/-- Settles O11: a complete step always answers, and so does every other move but for an access of the host that is
misaligned or lies beyond frame memory. -/
theorem commandsNeverStopTheMachine : Obligations.CommandsNeverStopTheMachine := by
  refine ⟨fun i s => ⟨_, exec_eq i s⟩, fun s => ?_⟩
  cases hi : s.inputs with
  | nil => exact .inl (step_nil hi ▸ engineMove_next s)
  | cons e rest =>
    cases e with
    | engine => exact .inl (step_engine hi ▸ engineMove_next _)
    | reset => exact .inl ⟨_, step_reset hi⟩
    | regRead off =>
      by_cases ho : off.toNat % 4 = 0
      · exact .inl ⟨_, step_regRead hi ho⟩
      · exact .inr (.inl ⟨off, rest, hi, ho⟩)
    | regWrite off v =>
      by_cases ho : off.toNat % 4 = 0
      · exact .inl ⟨_, step_regWrite hi ho⟩
      · exact .inr (.inr (.inl ⟨off, v, rest, hi, ho⟩))
    | memRead a =>
      by_cases ha : a < s.cfg.fmBytes
      · exact .inl ⟨_, step_memRead hi ha⟩
      · exact .inr (.inr (.inr (.inl ⟨a, rest, hi, Nat.not_lt.1 ha⟩)))
    | memWrite a b =>
      by_cases ha : a < s.cfg.fmBytes
      · exact .inl ⟨_, step_memWrite hi ha⟩
      · exact .inr (.inr (.inr (.inr ⟨a, b, rest, hi, Nat.not_lt.1 ha⟩)))

end Sys2Proof.Machine
end

section
/-! PROOFS. The life cycle of a command (R130, R131), `NOP` (R133) and `VALID` (R134). -/

namespace Sys2Proof.Machine

/-! ## The accept step (R130) -/

/-- A write to `CMD` of an idle block is the accept step of the word (R130). -/
theorem step_cmd_idle {s : State} {w : Word} {rest : List Event} (hi : s.inputs = .regWrite 0x004#12 w :: rest)
    (hp : s.phase = .idle) : step s = .next (accept w { s with inputs := rest }) :=
  step_regWrite_idle hi (by decide) (regAt_cmd _) hp

/-- The write lock covers `CMD` (R44). -/
theorem lockedOffset_cmd (c : Config) : lockedOffset c 0x004#12 := .inl (.head _)

/-- Settles O6: while idle the write is the accept step, and while busy the write lock discards it. -/
theorem acceptStepLatchesCommand : Obligations.AcceptStepLatchesCommand := fun _ _ _ hi =>
  ⟨step_cmd_idle hi, step_regWrite_locked hi (by decide) (lockedOffset_cmd _)⟩

/-! ## What a successful command leaves as it is (R131) -/

/-- Only `BUILD` writes tables (R180). -/
theorem effect_lut_none {i : Instr} {s : State} {e : Effect} (he : commandEffect i s = .ok e)
    (hb : i.isBuild = false) : e.lut = none := by
  rcases effect_cases he with ⟨_, _, _, _, _, _, _, _, hlut, _⟩ | ⟨_, _, _, _, _, hlut⟩
  · exact hlut
  · simpa [hb] using hlut

/-- Only `CONV` writes the line buffer (R261). -/
theorem effect_lb_none {i : Instr} {s : State} {e : Effect} (he : commandEffect i s = .ok e)
    (hc : i.isConv = false) : e.lb = none := by
  rcases effect_cases he with ⟨_, _, _, _, _, _, _, _, _, hlb, _⟩ | ⟨_, _, _, hlb, _⟩
  · exact hlb hc
  · exact hlb

/-- A command with no destination writes no byte (R131). -/
theorem effect_no_output {i : Instr} {s : State} {e : Effect} (he : commandEffect i s = .ok e)
    (hd : i.depthOut = none) : e.fmWrites = [] ∧ e.outLen = 0 := by
  rcases effect_cases he with ⟨_, _, _, _, _, hsome, _⟩ | ⟨_, hw, hlen, _⟩
  · exact nomatch hd.symm.trans hsome
  · exact ⟨hw, hlen⟩

/-- Settles O9: an error writes what R290 lists, and a success its effect, which is empty where the command has no such
result. -/
theorem commandsChangeOnlyResults : Obligations.CommandsChangeOnlyResults := by
  intro i s t h
  rcases exec_cases h with ⟨e, he, rfl⟩ | ⟨k, -, rfl⟩
  · refine ⟨rfl, fun _ => ⟨rfl, rfl⟩, fun herr => absurd (completeOk_errcode e s) herr, fun hb => ?_, fun hc => ?_,
      fun hd => ?_⟩
    · rw [completeOk_lut, effect_lut_none he hb, Option.getD_none]
    · rw [completeOk_lb, effect_lb_none he hc, Option.getD_none]
    · obtain ⟨hw, hlen⟩ := effect_no_output he hd
      rw [completeOk_fm, completeOk_dstLen, hw, hlen]
      exact ⟨rfl, rfl⟩
  · exact ⟨rfl, fun hok => absurd hok (code_ne_zero k), fun _ => ⟨rfl, rfl⟩, fun _ => rfl, fun _ => rfl,
      fun _ => ⟨rfl, rfl⟩⟩

/-! ## Commands without a result (R133, R134) -/

/-- A command that succeeds with an empty effect writes the registers of the complete step alone (R131). -/
theorem exec_empty {i : Instr} {s : State} (h : commandEffect i s = .ok ⟨[], none, 0, none⟩) :
    exec i s = .next (passed s 0) := exec_ok h

theorem decode_zero : decode 0#32 = .nop := decode_of_encode rfl rfl

/-- Settles O12: `NOP` has the empty effect; the host's write is its accept step, and the engine's move its complete
step. -/
theorem nopCompletes : Obligations.NopCompletes := by
  have hnop (s : State) : exec .nop s = .next (passed s 0) := exec_empty rfl
  refine ⟨hnop, fun s rest hp hi => ⟨_, step_cmd_idle hi hp, rfl, ?_⟩⟩
  rw [step_engine rfl, engineMove_calm rfl rfl]
  change exec (decode 0#32) _ = _
  rw [decode_zero]
  exact hnop _

/-- Settles O13: on a source that passes the checks `VALID` has the empty effect. -/
theorem validCompletes : Obligations.ValidCompletes := fun _ d hs =>
  exec_empty (validEffect_ok_iff.2 ⟨⟨d, hs⟩, rfl⟩)

end Sys2Proof.Machine
end

section
/-! PROOFS. The commands whose decode raises an error (R164, R188, R286), and the grayscale reducer (R160 to R165). -/

namespace Sys2Proof.Machine

/-! ## Commands that name no operation (R164, R188, R286) -/

/-- A command whose `exec` raises an error ends in the failed state with its code (R290). -/
theorem exec_failed {i : Instr} {s : State} {k : ErrKind} (h : commandEffect i s = .error k) :
    exec i s = .next (failed s k.code) := exec_error h

/-- `BUILD` or `GRAY` of an unknown kind or mode raises its error before it reads anything (R164, R188). -/
theorem commandEffect_of_isUnknown {i : Instr} (h : i.isUnknown = true) (s : State) :
    commandEffect i s = .error .unknownTransformType := by
  cases i with
  | buildUnknown7 | buildUnknown8to15 | grayUnknown3 | grayUnknown4to7 | grayUnknown8to15 => rfl
  | _ => exact nomatch h

theorem commandEffect_of_isIllegal {i : Instr} (h : i.isIllegal = true) (s : State) :
    commandEffect i s = .error .illegalCommand := by
  obtain ⟨w, rfl⟩ := isIllegal_iff.1 h
  rfl

/-- Settles O14: the effect of the command is the error of its code, whatever the state. -/
theorem unknownAndIllegalCommandsFail : Obligations.UnknownAndIllegalCommandsFail := fun _ s =>
  ⟨fun h => exec_failed (commandEffect_of_isUnknown h s), fun h => exec_failed (commandEffect_of_isIllegal h s)⟩

/-! ## The reducer, for any luminance (R160) -/

/-- After a buffer command succeeds, the destination bytes of the pixel at `(x, y)` are that pixel (R138, R140). -/
theorem packedAs_completeOk {s : State} {d x y : Nat} {mono : Bool} {pixel : Nat → Pixel} (hx : x < s.width.toNat)
    (hy : y < s.height.toNat) (hm : s.fm.wf = true) :
    packedAs s (completeOk (bufferEffect s (shapeOf s d) mono pixel) s) mono (y * s.width.toNat + x)
      (pixel (y * s.width.toNat + x)) := packedAs_of_fm (sh := shapeOf s d) (pixel_lt hx hy) hm rfl

/-- On legal buffers a `GRAY` command with luminance `lum` completes with the result of R160. -/
theorem exec_gray {i : Instr} {s : State} {lum : Byte → Byte → Byte → Byte} {mono : Bool}
    (hi : commandEffect i s = grayEffect lum false mono s) (hs : SourceOk s 4) (hd : DestOk s mono)
    (hm : s.fm.wf = true) : ∃ t, exec i s = .next t ∧ grayResult s t mono lum := by
  refine ⟨_, exec_ok (hi.trans (grayEffect_ok_iff.2 ⟨hs, rfl, hd, rfl⟩)), rfl, fun x y hx hy => ?_, fun a ha => ?_⟩
  · exact packedAs_completeOk hx hy hm
  · exact read_bufferEffect_outside (sh := shapeOf s 4) ha s.fm

/-- A channel that R163 refuses is an error on every source of depth 4 (R285). -/
theorem grayEffect_badChannel {s : State} (hs : ShapeOk s 4) (lum : Byte → Byte → Byte → Byte) (mono : Bool) :
    grayEffect lum true mono s = .error .invalidParameter := by
  have hdepth : ¬ (shapeOf s 4).d ≠ 4 := fun h => h rfl
  rw [grayEffect, hs.shape_eq, ok_bind, raiseIf_bind, if_neg hdepth, raiseIf_bind, if_pos rfl]

/-! ## The three modes (R161, R162, R163) -/

/-- Settles O15: the reducer with the luminance of R161. -/
theorem grayLumaWritesLuminance : Obligations.GrayLumaWritesLuminance := fun _ _ hs hd hm => exec_gray rfl hs hd hm

/-- Settles O16: the reducer with the luminance of R162. -/
theorem grayAverageWritesMean : Obligations.GrayAverageWritesMean := fun _ _ hs hd hm => exec_gray rfl hs hd hm

/-- The test of R163 passes for a channel number below 3. -/
theorem graySimple_effect {ch : BitVec 4} (hch : ch.toNat < 3) (mono : Bool) (s : State) :
    commandEffect (.graySimple ch mono) s = grayEffect (channel ch) false mono s := by
  change grayEffect _ (decide (3 ≤ ch.toNat)) _ _ = _
  rw [decide_eq_false (Nat.not_le.2 hch)]

/-- The test of R163 fails for a channel number from 3 up. -/
theorem graySimple_badChannel {ch : BitVec 4} (hch : 3 ≤ ch.toNat) (mono : Bool) {s : State} (hs : ShapeOk s 4) :
    commandEffect (.graySimple ch mono) s = .error .invalidParameter := by
  change grayEffect _ (decide (3 ≤ ch.toNat)) _ _ = _
  rw [decide_eq_true hch, grayEffect_badChannel hs]

/-- Settles O17: the reducer with the luminance of R163 for channels 0 to 2, and the failed test of the channel for the
others. -/
theorem graySimpleCopiesChannel : Obligations.GraySimpleCopiesChannel := fun s _ mono hs =>
  ⟨fun hch hd hm => exec_gray (graySimple_effect hch mono s) hs hd hm,
    fun hch => exec_failed (graySimple_badChannel hch mono hs.shapeOk)⟩

/-! ## Gray pixels (R165)

The luminance of a gray pixel is its value, exactly, so rounding does nothing. -/

theorem luma_gray (mode : Rounding) (v : Byte) : luma mode v v v = v := by
  have hsum : (299 * v.toNat + 587 * v.toNat + 114 * v.toNat : Int) = v.toNat * 1000 := by ring
  rw [luma, hsum, clampRnd_exact mode (by decide)]

theorem average_gray (mode : Rounding) (v : Byte) : average mode v v v = v := by
  have hsum : (v.toNat + v.toNat + v.toNat : Int) = v.toNat * 3 := by ring
  rw [average, hsum, clampRnd_exact mode (by decide)]

theorem channel_gray (ch : BitVec 4) (v : Byte) : channel ch v v v = v := by
  rw [channel, ite_self, ite_self]

/-- A byte of a 4-channel source is a channel of one of its pixels (R72). -/
theorem exists_pixel_channel {s : State} (hs : ShapeOk s 4) {a : Nat} (ha : a < s.srcLen.toNat) :
    ∃ x y c, x < s.width.toNat ∧ y < s.height.toNat ∧ c < 4 ∧ a = (y * s.width.toNat + x) * 4 + c := by
  have hp : a / 4 < s.pixels := Nat.div_lt_of_lt_mul (by rw [hs.length] at ha; omega)
  obtain ⟨hx, hy⟩ := pixel_coords hp
  refine ⟨_, _, a % 4, hx, hy, Nat.mod_lt _ (by decide), ?_⟩
  rw [Nat.div_add_mod', Nat.div_add_mod']

/-- Channel by channel what it is for a pixel to be packed for full output (R138). -/
theorem packedAs_channel {s t : State} {p : Nat} {px : Nat → Byte}
    (h : packedAs s t false p ⟨px 0, px 1, px 2, px 3⟩) {c : Nat} (hc : c < 4) :
    t.fm.read (s.dstBase.toNat + (p * 4 + c)) = px c := by
  obtain ⟨h0, h1, h2, h3⟩ := h
  interval_cases c
  · exact h0
  · exact h1
  · exact h2
  · exact h3

/-- On a gray source a luminance that keeps gray pixels makes the destination the source, byte for byte. -/
theorem grayResult_copies {s t : State} {lum : Byte → Byte → Byte → Byte} (hr : grayResult s t false lum)
    (hlum : ∀ v, lum v v v = v) (hs : ShapeOk s 4)
    (hgray : ∀ x y, x < s.width.toNat → y < s.height.toNat →
      sourceByte s 4 x y 0 = sourceByte s 4 x y 1 ∧ sourceByte s 4 x y 1 = sourceByte s 4 x y 2)
    {a : Nat} (ha : a < s.srcLen.toNat) :
    t.fm.read (s.dstBase.toNat + a) = s.fm.read (s.srcBase.toNat + a) := by
  obtain ⟨-, hpix, -⟩ := hr
  obtain ⟨x, y, c, hx, hy, hc, rfl⟩ := exists_pixel_channel hs ha
  obtain ⟨h01, h12⟩ := hgray x y hx hy
  have hpacked : packedAs s t false (y * s.width.toNat + x) ⟨sourceByte s 4 x y 0, sourceByte s 4 x y 1,
      sourceByte s 4 x y 2, sourceByte s 4 x y 3⟩ := by
    simpa only [h01, h12, hlum] using hpix x y hx hy
  rw [packedAs_channel (px := sourceByte s 4 x y) hpacked hc, sourceByte, Nat.add_assoc]

/-- Every mode of `GRAY` is the reducer with a luminance that keeps gray pixels. -/
theorem gray_mode_keeps_gray {i : Instr} {mono : Bool} (s : State)
    (hi : i = .grayLuma mono ∨ i = .grayAverage mono ∨ ∃ ch : BitVec 4, ch.toNat < 3 ∧ i = .graySimple ch mono) :
    ∃ lum, commandEffect i s = grayEffect lum false mono s ∧ ∀ v, lum v v v = v := by
  rcases hi with rfl | rfl | ⟨ch, hch, rfl⟩
  · exact ⟨luma s.cfg.round, rfl, luma_gray _⟩
  · exact ⟨average s.cfg.round, rfl, average_gray _⟩
  · exact ⟨channel ch, graySimple_effect hch mono s, channel_gray ch⟩

/-- Settles O18: every mode is the reducer with a luminance that keeps gray pixels, and so copies a gray source. -/
theorem grayKeepsGrayPixels : Obligations.GrayKeepsGrayPixels := by
  intro s t i hs hd hm hi hgray ht a ha
  obtain ⟨lum, heff, hlum⟩ := gray_mode_keeps_gray s hi
  obtain ⟨t', ht', hr⟩ := exec_gray heff hs hd hm
  obtain rfl := Host.Outcome.next.inj (ht'.symm.trans ht)
  exact grayResult_copies hr hlum hs.shapeOk hgray ha

end Sys2Proof.Machine
end

section
/-! PROOFS. The tone-curve engine (42_tone_curve.md): the tables each kind of `BUILD` fills (R180 to R187), their shape
(R192), and `APPLY` (R189). -/

namespace Sys2Proof.Machine

/-! ## `BUILD`, for any tables (R180) -/

/-- A `BUILD` that raises no error completes in every state: its tables are stored, and of the rest only the registers
of R131 change. -/
theorem exec_build {i : Instr} {s : State} {tables : Tables} (h : commandEffect i s = .ok (buildEffect tables)) :
    ∃ t, exec i s = .next t ∧ buildResult s t ∧ t.lut = tables := ⟨_, exec_ok h, rfl, rfl⟩

/-- The same for a kind that fills its three tables with one curve `f`. -/
theorem exec_build_curve {i : Instr} {s : State} {f : Nat → Byte}
    (h : commandEffect i s = .ok (buildEffect (sameTables f))) :
    ∃ t, exec i s = .next t ∧ buildResult s t ∧ ∀ (k : Fin 3) (v : Fin 256), t.lutEntry k v = f v.val := by
  obtain ⟨t, ht, hr, -⟩ := exec_build h
  exact ⟨t, ht, hr, exec_build_entry ht h⟩

/-- Two entries of a table are in the order of the curve's values. -/
theorem exec_build_entry_le {i : Instr} {s t : State} {f : Nat → Byte} {k : Fin 3} {v v' : Fin 256}
    (h : exec i s = .next t) (hc : commandEffect i s = .ok (buildEffect (sameTables f)))
    (hf : (f v.val).toNat ≤ (f v'.val).toNat) : (t.lutEntry k v).toNat ≤ (t.lutEntry k v').toNat := by
  rwa [exec_build_entry h hc, exec_build_entry h hc]

/-! ## Brightness (R181) -/

theorem brightnessEntry_mono (level : Int) {v v' : Nat} (h : v ≤ v') :
    (brightnessEntry level v).toNat ≤ (brightnessEntry level v').toNat := clamp_mono (by omega)

/-- Settles O19: the curve is a clamped sum, and `clamp` saturates. -/
theorem brightnessFillsTables : Obligations.BrightnessFillsTables := by
  intro s
  obtain ⟨t, ht, hr, he⟩ := exec_build_curve (i := .buildBrightness) (s := s) rfl
  refine ⟨t, ht, hr, fun k v => ?_⟩
  rw [he, brightnessEntry, clamp_toNat, State.signedParam]

/-! ## Contrast (R182) -/

/-- Rounding and clamping keep order over a positive denominator (R12). -/
theorem clampRnd_mono (mode : Rounding) {n n' d : Int} (hd : 0 < d) (h : n ≤ n') :
    (clampRnd mode n d).toNat ≤ (clampRnd mode n' d).toNat := clamp_mono (rnd_mono mode hd h)

theorem contrastEntry_mono (mode : Rounding) {p : Int} (hp : 0 ≤ p) {v v' : Nat} (h : v ≤ v') :
    (contrastEntry mode p v).toNat ≤ (contrastEntry mode p v').toNat := by
  have hmul : ((v : Int) - 128) * p ≤ (v' - 128) * p := mul_le_mul_of_nonneg_right (by omega) hp
  exact clampRnd_mono mode (by decide) (by omega)

theorem contrastEntry_anti (mode : Rounding) {p : Int} (hp : p ≤ 0) {v v' : Nat} (h : v ≤ v') :
    (contrastEntry mode p v').toNat ≤ (contrastEntry mode p v).toNat := by
  have hmul : ((v' : Int) - 128) * p ≤ (v - 128) * p := mul_le_mul_of_nonpos_right (by omega) hp
  exact clampRnd_mono mode (by decide) (by omega)

/-- Settles O20: the curve is written as the one fraction over 65536. -/
theorem contrastFillsTables : Obligations.ContrastFillsTables := fun s =>
  exec_build_curve (f := contrastEntry s.cfg.round s.signedParam) rfl

/-! ## Posterize (R183) -/

theorem posterizeEntry_last (mode : Rounding) {levels v : Nat} (h : v * levels / 256 = levels - 1) :
    posterizeEntry mode levels v = 255#8 := if_pos h

theorem posterizeEntry_below (mode : Rounding) {levels v : Nat} (h : v * levels / 256 ≠ levels - 1) :
    posterizeEntry mode levels v = clampRnd mode ((v * levels / 256 : Nat) * 256) (levels - 1 : Nat) := if_neg h

/-- Band 0 holds 0: there is a last band above it. -/
theorem posterizeEntry_first (mode : Rounding) {levels v : Nat} (hl : 2 ≤ levels) (h : v * levels / 256 = 0) :
    posterizeEntry mode levels v = 0#8 := by
  have hzero : ((0 : Nat) : Int) * 256 = (0#8).toNat * (levels - 1 : Nat) := by simp
  rw [posterizeEntry_below mode (by omega), h, hzero, clampRnd_exact mode (by omega)]

theorem band_le_last {levels v : Nat} (hl : 2 ≤ levels) (hv : v < 256) : v * levels / 256 ≤ levels - 1 := by
  have hmul : v * levels ≤ 255 * levels := Nat.mul_le_mul_right _ (by omega)
  omega

theorem posterizeEntry_mono (mode : Rounding) {levels v v' : Nat} (hl : 2 ≤ levels) (h : v ≤ v') (hv' : v' < 256) :
    (posterizeEntry mode levels v).toNat ≤ (posterizeEntry mode levels v').toNat := by
  have hband : v * levels / 256 ≤ v' * levels / 256 := Nat.div_le_div_right (Nat.mul_le_mul_right _ h)
  have hlast := band_le_last hl hv'
  by_cases hb' : v' * levels / 256 = levels - 1
  · rw [posterizeEntry_last mode hb']
    exact Nat.le_of_lt_succ (BitVec.isLt _)
  · rw [posterizeEntry_below mode hb', posterizeEntry_below mode (v := v) (by omega)]
    exact clampRnd_mono mode (by omega) (by omega)

/-- With at least 2 levels `BUILD.POSTERIZE` raises no error. -/
theorem posterize_effect {s : State} (hl : 2 ≤ s.lutParam.toNat) :
    commandEffect .buildPosterize s = .ok (buildEffect (sameTables (posterizeEntry s.cfg.round s.lutParam.toNat))) :=
  posterizeEffect_ok_iff.2 ⟨hl, rfl⟩

/-- With fewer than 2 levels it is an error (R285). -/
theorem posterize_badLevels {s : State} (hl : s.lutParam.toNat < 2) :
    commandEffect .buildPosterize s = .error .invalidParameter := by
  change posterizeEffect s = _
  rw [posterizeEffect, raiseIf_bind, State.levels, if_pos hl]

/-- Settles O21: the level count decides between the bands of the curve and the error of R285. -/
theorem posterizeFillsTables : Obligations.PosterizeFillsTables := by
  refine fun s => ⟨fun hl => ?_, fun hl => exec_failed (posterize_badLevels hl)⟩
  obtain ⟨t, ht, hr, he⟩ := exec_build_curve (posterize_effect hl)
  refine ⟨t, ht, hr, fun k v => ?_⟩
  dsimp only
  rw [he]
  split_ifs with hb
  · exact posterizeEntry_last _ (by omega)
  · rw [posterizeEntry_below _ (by omega), clampRnd, Nat.cast_sub (by omega), Nat.cast_one]

/-! ## Threshold (R184) -/

theorem thresholdEntry_values (level : Int) (v : Nat) : thresholdEntry level v = 0#8 ∨ thresholdEntry level v = 255#8 :=
  (ite_eq_or_eq _ _ _).symm

theorem thresholdEntry_mono (level : Int) {v v' : Nat} (h : v ≤ v') :
    (thresholdEntry level v).toNat ≤ (thresholdEntry level v').toNat := by
  by_cases hv : level ≤ v
  · rw [thresholdEntry, thresholdEntry, if_pos hv, if_pos (by omega)]
  · rw [thresholdEntry, if_neg hv]
    exact Nat.zero_le _

/-- Settles O22: the curve is the comparison itself. -/
theorem thresholdFillsTables : Obligations.ThresholdFillsTables := fun s =>
  exec_build_curve (f := thresholdEntry s.signedParam) rfl

/-! ## Solarize (R185) -/

/-- The three bands by their first and last `v`: 256/3 lies between 85 and 86, and 512/3 between 170 and 171. -/
theorem solarizeEntry_toNat {v : Nat} (hv : v < 256) :
    (solarizeEntry v).toNat = if v ≤ 85 then 255 - 3 * v else if v ≤ 170 then 3 * v - 256 else 767 - 3 * v := by
  rw [solarizeEntry]
  by_cases h1 : v ≤ 85
  · rw [if_pos h1, if_pos (by omega)]
    exact Nat.mod_eq_of_lt (by omega)
  · rw [if_neg h1, if_neg (by omega)]
    by_cases h2 : v ≤ 170
    · rw [if_pos h2, if_pos (by omega)]
      exact Nat.mod_eq_of_lt (by omega)
    · rw [if_neg h2, if_neg (by omega)]
      exact Nat.mod_eq_of_lt (by omega)

/-- Settles O23: each band of the curve, where the subtraction on numbers is the one on integers. -/
theorem solarizeFillsTables : Obligations.SolarizeFillsTables := by
  intro s
  obtain ⟨t, ht, hr, he⟩ := exec_build_curve (i := .buildSolarize) (s := s) rfl
  refine ⟨t, ht, hr, fun k v => ?_⟩
  rw [he, solarizeEntry_toNat v.isLt]
  split_ifs <;> omega

/-! ## Pseudocolor and invert (R186, R187) -/

/-- Settles O24: the tables stored are `PSEUDO_ROM` as it stands. -/
theorem pseudocolorCopiesRom : Obligations.PseudocolorCopiesRom := by
  intro s
  obtain ⟨t, ht, hr, he⟩ := exec_build (i := .buildPseudocolor) (s := s) rfl
  refine ⟨t, ht, hr, fun k v => ?_⟩
  rw [State.lutEntry, he]

theorem invertEntry_toNat (v : Nat) : (invertEntry v).toNat = 255 - v := Nat.mod_eq_of_lt (by omega)

/-- Settles O25: the difference is a byte, so nothing is lost. -/
theorem invertFillsTables : Obligations.InvertFillsTables := by
  intro s
  obtain ⟨t, ht, hr, he⟩ := exec_build_curve (i := .buildInvert) (s := s) rfl
  refine ⟨t, ht, hr, fun k v => ?_⟩
  rw [he, invertEntry_toNat]

/-! ## The shape of the tables (R192) -/

/-- A `BUILD.POSTERIZE` that ends without an error had at least 2 levels. -/
theorem two_le_levels {s t : State} (h : exec .buildPosterize s = .next t) (h0 : t.errcode = 0#4) :
    2 ≤ s.lutParam.toNat := by
  rcases exec_cases h with ⟨e, he, -⟩ | ⟨k, -, rfl⟩
  · exact (posterizeEffect_ok_iff.1 he).1
  · exact absurd h0 (code_ne_zero k)

/-- The values of a posterize table that R192 (3) names. -/
theorem posterize_values {s t : State} (k : Fin 3) (h : exec .buildPosterize s = .next t)
    (hl : 2 ≤ s.lutParam.toNat) (hl' : s.lutParam.toNat ≤ 256) :
    t.lutEntry k 255 = 255#8 ∧ t.lutEntry k 0 = 0#8 ∧
      (s.lutParam.toNat = 2 → ∀ v, t.lutEntry k v = 0#8 ∨ t.lutEntry k v = 255#8) := by
  have he := exec_build_entry h (posterize_effect hl) k
  refine ⟨?_, ?_, fun h2 v => ?_⟩
  · rw [he]
    exact posterizeEntry_last _ (show 255 * _ / 256 = _ by omega)
  · rw [he]
    exact posterizeEntry_first _ hl (show 0 * _ / 256 = _ by omega)
  · rw [he, h2]
    have hband : v.val * 2 / 256 = 0 ∨ v.val * 2 / 256 = 2 - 1 := by omega
    exact hband.imp (posterizeEntry_first _ (le_refl 2)) (posterizeEntry_last _)

/-- Settles O26, kind by kind from its curve. -/
theorem tablesHaveTheirShape : Obligations.TablesHaveTheirShape := by
  intro s t k
  refine ⟨fun v v' hv => ⟨?brightness, ?threshold, ?posterize, ?contrastUp, ?contrastDown, ?invert⟩, ?solarize,
    ?thresholdValues, posterize_values k⟩
  case brightness => exact fun h => exec_build_entry_le h rfl (brightnessEntry_mono _ hv)
  case threshold => exact fun h => exec_build_entry_le h rfl (thresholdEntry_mono _ hv)
  case posterize =>
    intro h h0
    have hl := two_le_levels h h0
    exact exec_build_entry_le h (posterize_effect hl) (posterizeEntry_mono _ hl hv v'.isLt)
  case contrastUp => exact fun h hp => exec_build_entry_le h rfl (contrastEntry_mono _ hp hv)
  case contrastDown => exact fun h hp => exec_build_entry_le h rfl (contrastEntry_anti _ hp hv)
  case invert =>
    intro h hlt
    rw [exec_build_entry h rfl, exec_build_entry h rfl, invertEntry_toNat, invertEntry_toNat]
    omega
  case solarize =>
    intro h
    rw [exec_build_entry h rfl, exec_build_entry h rfl, exec_build_entry h rfl]
    decide
  case thresholdValues =>
    intro h v
    rw [exec_build_entry h rfl]
    exact thresholdEntry_values _ _

/-! ## `APPLY` (R189) -/

/-- `fetch_pixel` at `(x, y)` by the depth of the source (R139). -/
theorem fetchPixel_eq (s : State) (d x y : Nat) : fetchPixel s (shapeOf s d) (y * s.width.toNat + x) =
    if d = 4 then ⟨sourceByte s d x y 0, sourceByte s d x y 1, sourceByte s d x y 2, sourceByte s d x y 3⟩
    else ⟨sourceByte s d x y 0, sourceByte s d x y 0, sourceByte s d x y 0, 255#8⟩ := rfl

/-- The pixel that `APPLY` writes for pixel `p` of a source of depth `d` (R189). -/
def appliedPixel (s : State) (d p : Nat) : Pixel :=
  let px := fetchPixel s (shapeOf s d) p
  ⟨remap s 0 px.c0, remap s 1 px.c1, remap s 2 px.c2, px.a⟩

/-- On legal buffers `APPLY` writes these pixels. -/
theorem apply_effect {s : State} {d : Nat} {mono : Bool} (hs : SourceOk s d) (hd : DestOk s mono) :
    commandEffect (.apply mono) s = .ok (bufferEffect s (shapeOf s d) mono (appliedPixel s d)) :=
  applyEffect_ok_iff.2 ⟨d, hs, hd, rfl⟩

theorem appliedPixel_eq (s : State) (d x y : Nat) : appliedPixel s d (y * s.width.toNat + x) =
    if d = 4 then
      ⟨s.lutEntry 0 (sourceByte s d x y 0).toFin, s.lutEntry 1 (sourceByte s d x y 1).toFin,
        s.lutEntry 2 (sourceByte s d x y 2).toFin, sourceByte s d x y 3⟩
    else
      ⟨s.lutEntry 0 (sourceByte s d x y 0).toFin, s.lutEntry 1 (sourceByte s d x y 0).toFin,
        s.lutEntry 2 (sourceByte s d x y 0).toFin, 255#8⟩ := by
  rw [appliedPixel, fetchPixel_eq]
  by_cases h : d = 4
  · simp only [if_pos h, remap]
  · simp only [if_neg h, remap]

/-- Settles O27: the pixel `APPLY` writes at `(x, y)` is the fetched one, colour by colour through the tables. -/
theorem applyRemapsColours : Obligations.ApplyRemapsColours := by
  intro s d mono hs hd hm
  refine ⟨_, exec_ok (apply_effect hs hd), rfl, fun x y hx hy => ?_, fun a ha => ?_⟩
  · rw [← appliedPixel_eq]
    exact packedAs_completeOk hx hy hm
  · exact read_bufferEffect_outside (sh := shapeOf s d) ha s.fm

end Sys2Proof.Machine
end

section
/-! PROOFS. The convolution engine (43_convolution.md): the weighted sum and its bounds (R224, R230), the two modes
(R225, R228), and the kernels that change nothing (R231, R233, R234). -/

namespace Sys2Proof.Machine

/-! ## The weighted sum (R224) -/

theorem windowSum_eq_sum (s : State) (d x y c : Nat) : windowSum s d x y c =
    ∑ j ∈ Finset.range ((2 * s.kradius.toNat + 1) ^ 2),
      ((windowByte s d x y c j).toNat : Int) * (s.kw.getD j 0#16).toInt := rfl

/-- The weighted value of a window, in the terms of R224. -/
theorem weightedValue_window (s : State) (d x y c : Nat) :
    weightedValue s (window s (shapeOf s d) s.kradius.toNat x y c) =
      clampRnd s.cfg.round (windowSum s d x y c * s.divDen.toNat) s.divNum.toInt := by
  rw [weightedValue, accumulate_window, State.den, State.num]

/-- A byte times a 16-bit weight. -/
theorem byte_mul_weight_le (b : Byte) (w : Weight) : |(b.toNat : Int) * w.toInt| ≤ 255 * 32768 := by
  have hw : |w.toInt| ≤ 32768 := abs_le.2 ⟨w.le_toInt, w.toInt_lt.le⟩
  rw [abs_mul, Nat.abs_cast]
  exact mul_le_mul (by omega) hw (abs_nonneg _) (by decide)

/-- A window has at most 169 bytes, for R8 allows no `RMAX` above 6. -/
theorem window_le_169 {s : State} (hv : s.cfg.valid = true) (hr : s.kradius.toNat ≤ s.cfg.rmax) :
    (2 * s.kradius.toNat + 1) ^ 2 ≤ 169 := by
  simp only [Config.valid, Bool.and_eq_true, decide_eq_true_eq] at hv
  exact Nat.pow_le_pow_left (show _ ≤ 13 by omega) 2

theorem windowSum_le {s : State} (hv : s.cfg.valid = true) (hr : s.kradius.toNat ≤ s.cfg.rmax) (d x y c : Nat) :
    |windowSum s d x y c| ≤ 1412136960 := by
  have hk := window_le_169 hv hr
  rw [windowSum_eq_sum]
  generalize (2 * s.kradius.toNat + 1) ^ 2 = k at hk
  calc |∑ j ∈ Finset.range k, ((windowByte s d x y c j).toNat : Int) * (s.kw.getD j 0#16).toInt|
      ≤ ∑ j ∈ Finset.range k, |((windowByte s d x y c j).toNat : Int) * (s.kw.getD j 0#16).toInt| :=
        Finset.abs_sum_le_sum_abs _ _
    _ ≤ (Finset.range k).card • (255 * 32768 : Int) :=
        Finset.sum_le_card_nsmul _ _ _ fun _ _ => byte_mul_weight_le _ _
    _ ≤ 1412136960 := by
        rw [Finset.card_range, nsmul_eq_mul]
        omega

/-- Settles O34: at most 169 products of a byte and a weight, and a divisor register of 32 bits. -/
theorem accumulatorFitsThirtyTwoBits : Obligations.AccumulatorFitsThirtyTwoBits := by
  intro s d x y c hv hr
  have hsum := windowSum_le hv hr d x y c
  have hden : (s.divDen.toNat : Int) ≤ 2 ^ 32 := by omega
  refine ⟨hsum, by omega, ?_⟩
  calc |windowSum s d x y c * s.divDen.toNat| = |windowSum s d x y c| * s.divDen.toNat := by
        rw [abs_mul, Nat.abs_cast]
    _ ≤ 1412136960 * 2 ^ 32 := mul_le_mul hsum hden (Int.natCast_nonneg _) (by decide)
    _ < 2 ^ 63 := by decide

/-! ## `CONV`, for any value of a window (R228) -/

/-- An interior pixel has the value of its window (R224, R225). -/
theorem convValue_interior {s : State} {x y : Nat} (h : isInterior s x y) (med : Bool) (d c : Nat) :
    convValue med s (shapeOf s d) s.kradius.toNat x y c =
      windowValue med s (window s (shapeOf s d) s.kradius.toNat x y c) := if_pos (interior_iff_isInterior.2 h)

/-- Any other pixel has the source byte (R226). -/
theorem convValue_border {s : State} {x y : Nat} (h : ¬ isInterior s x y) (med : Bool) (d c : Nat) :
    convValue med s (shapeOf s d) s.kradius.toNat x y c = sourceByte s d x y c :=
  if_neg (mt interior_iff_isInterior.1 h)

/-- A colour of the pixel that `CONV` writes at `(x, y)`: a source of depth 1 supplies each from channel 0. -/
theorem convPixel_colour {s : State} {d r x y : Nat} {med : Bool} (hx : x < s.width.toNat) (k : Fin 3) :
    (convPixel med s (shapeOf s d) r (y * s.width.toNat + x)).colour k =
      convValue med s (shapeOf s d) r x y (if d = 4 then k.val else 0) := by
  rw [convPixel_at hx]
  match k with
  | 0 => rfl
  | 1 => rfl
  | 2 => rfl

/-- When every check passes `CONV` completes with the result of R228 for the values its windows have. -/
theorem exec_conv {s : State} {d : Nat} {mono med : Bool} {interiorValue : Nat → Nat → Nat → Byte → Prop}
    (hs : SourceOk s d) (hd : DestOk s mono) (hk : KernelOk s med) (hm : s.fm.wf = true)
    (hval : ∀ x y c, interiorValue x y c (windowValue med s (window s (shapeOf s d) s.kradius.toNat x y c))) :
    ∃ t, exec (.conv mono med) s = .next t ∧ convResult s t d mono interiorValue := by
  refine ⟨_, exec_ok (convEffect_ok_iff.2 ⟨d, hs, hd, hk, rfl⟩), rfl, fun x y hx hy => ?_, fun a ha => ?_⟩
  · have hpacked := fun t ht => packedAs_of_fm (t := t) (sh := shapeOf s d) (mono := mono)
      (pixel := convPixel med s (shapeOf s d) s.kradius.toNat) (pixel_lt hx hy) hm ht
    refine ⟨_, hpacked _ rfl, ?_, fun k => ⟨fun hi => ?_, fun hi => ?_⟩⟩
    · rw [convPixel_at hx]
      rfl
    · rw [convPixel_colour hx, convValue_interior hi]
      exact hval x y _
    · rw [convPixel_colour hx, convValue_border hi]
  · exact read_bufferEffect_outside (sh := shapeOf s d) ha s.fm

/-- Settles O28: the value of a window is its weighted sum over the divisor. -/
theorem convWeightedWritesQuotient : Obligations.ConvWeightedWritesQuotient := fun s d _ hs hd hk hm =>
  exec_conv hs hd hk hm (weightedValue_window s d)

/-- The middle element of the sorted window is its median: sorting keeps the bytes, and the window's bytes are those of
R223. -/
theorem isMedian_medianValue (s : State) (d x y c : Nat) :
    isMedian s d x y c (medianValue (window s (shapeOf s d) s.kradius.toNat x y c)) := by
  have hne : window s (shapeOf s d) s.kradius.toNat x y c ≠ [] := by
    rw [window_eq, ne_eq, List.map_eq_nil_iff, List.range_eq_nil]
    positivity
  obtain ⟨hmem, hbelow, hupTo⟩ := medianValue_rank hne
  generalize medianValue _ = b at hmem hbelow hupTo ⊢
  rw [window_eq] at hmem hbelow hupTo
  rw [List.length_map, List.length_range, List.countP_map] at hbelow hupTo
  obtain ⟨j, hj, hb⟩ := List.mem_map.1 hmem
  exact ⟨⟨j, List.mem_range.1 hj, hb⟩, hbelow, hupTo⟩

/-- Settles O29: the value of a window is the middle element of its sorted bytes. -/
theorem convMedianWritesMedian : Obligations.ConvMedianWritesMedian := fun s d _ hs hd hk hm =>
  exec_conv hs hd hk hm (isMedian_medianValue s d)

/-! ## The identity kernel (R231) -/

/-- The middle of the window is the pixel itself (R223). -/
theorem windowByte_centre (s : State) (d x y c : Nat) :
    windowByte s d x y c (((2 * s.kradius.toNat + 1) ^ 2 - 1) / 2) = sourceByte s d x y c := by
  rw [windowByte]
  generalize s.kradius.toNat = r
  have hcentre : ((2 * r + 1) ^ 2 - 1) / 2 = (2 * r + 1) * r + r := by
    rw [show (2 * r + 1) ^ 2 = 2 * ((2 * r + 1) * r + r) + 1 by ring]
    omega
  have hmod : ((2 * r + 1) * r + r) % (2 * r + 1) = r := by
    rw [Nat.mul_add_mod, Nat.mod_eq_of_lt (by omega)]
  have hdiv : ((2 * r + 1) * r + r) / (2 * r + 1) = r := by
    rw [Nat.mul_add_div (by omega), Nat.div_eq_of_lt (by omega), Nat.add_zero]
  simp only [hcentre, hmod, hdiv, Nat.add_sub_cancel]

/-- With weight 1 in the middle and 0 elsewhere the sum is the pixel's own byte. -/
theorem windowSum_identity {s : State} (hkw : ∀ j, j < (2 * s.kradius.toNat + 1) ^ 2 →
      (s.kw.getD j 0#16).toInt = if j = ((2 * s.kradius.toNat + 1) ^ 2 - 1) / 2 then 1 else 0) (d x y c : Nat) :
    windowSum s d x y c = (sourceByte s d x y c).toNat := by
  have hcentre : ((2 * s.kradius.toNat + 1) ^ 2 - 1) / 2 < (2 * s.kradius.toNat + 1) ^ 2 := by
    have : 0 < (2 * s.kradius.toNat + 1) ^ 2 := by positivity
    omega
  rw [windowSum_eq_sum, Finset.sum_eq_single_of_mem _ (Finset.mem_range.2 hcentre), hkw _ hcentre, if_pos rfl, mul_one,
    windowByte_centre]
  intro j hj hne
  rw [hkw j (Finset.mem_range.1 hj), if_neg hne, mul_zero]

/-- When the values of the interior pixels are the source's, every pixel is packed as it was fetched: the border and the
alpha are the source's in any case (R226, R227). -/
theorem packedAs_fetchPixel_of_convResult {s t : State} {d x y : Nat} {mono : Bool}
    (hx : x < s.width.toNat) (hy : y < s.height.toNat)
    (hr : convResult s t d mono fun x y c b => b = sourceByte s d x y c) :
    packedAs s t mono (y * s.width.toNat + x) (fetchPixel s (shapeOf s d) (y * s.width.toNat + x)) := by
  obtain ⟨-, hpix, -⟩ := hr
  obtain ⟨⟨c0, c1, c2, a⟩, hpacked, ha, hcol⟩ := hpix x y hx hy
  have hcol' : ∀ k : Fin 3, Pixel.colour ⟨c0, c1, c2, a⟩ k = sourceByte s d x y (if d = 4 then k.val else 0) :=
    fun k => (em (isInterior s x y)).elim (hcol k).1 (hcol k).2
  have h0 : c0 = _ := hcol' 0
  have h1 : c1 = _ := hcol' 1
  have h2 : c2 = _ := hcol' 2
  have ha' : a = _ := ha
  rw [h0, h1, h2, ha'] at hpacked
  rw [fetchPixel_eq]
  split_ifs at hpacked ⊢ <;> exact hpacked

/-- A source of depth 1 supplies every colour of a fetched pixel from its one channel (R139). -/
theorem fetchPixel_colour_one (s : State) (p : Nat) (k : Fin 3) :
    (fetchPixel s (shapeOf s 1) p).colour k = s.fm.read (s.srcBase.toNat + p) := by
  have hsrc : src s (shapeOf s 1) p 0 = s.fm.read (s.srcBase.toNat + p) :=
    congrArg (fun i => s.fm.read (s.srcBase.toNat + i)) (Nat.mul_one p)
  match k with
  | 0 => exact hsrc
  | 1 => exact hsrc
  | 2 => exact hsrc

/-- When the output has the depth of the source and every pixel is packed as it was fetched, the destination is the
source, byte for byte. -/
theorem read_dst_eq_read_src {s t : State} {mono : Bool} (hs : SourceOk s (outDepth mono))
    (hpix : ∀ x y, x < s.width.toNat → y < s.height.toNat → packedAs s t mono (y * s.width.toNat + x)
      (fetchPixel s (shapeOf s (outDepth mono)) (y * s.width.toNat + x))) {a : Nat} (ha : a < s.srcLen.toNat) :
    t.fm.read (s.dstBase.toNat + a) = s.fm.read (s.srcBase.toNat + a) := by
  cases mono with
  | false =>
    obtain ⟨x, y, c, hx, hy, hc, rfl⟩ := exists_pixel_channel hs.shapeOk ha
    have hpacked := hpix x y hx hy
    rw [packedAs_channel (px := sourceByte s 4 x y) hpacked hc, sourceByte, Nat.add_assoc]
  | true =>
    have hp : a < s.pixels := by
      rw [hs.length] at ha
      exact ha.trans_eq (Nat.mul_one _)
    obtain ⟨hx, hy⟩ := pixel_coords hp
    have hpacked := hpix _ _ hx hy
    rw [Nat.div_add_mod'] at hpacked
    exact hpacked.trans (fetchPixel_colour_one s a _)

/-- Settles O32: a window's weighted sum is its middle byte, so every pixel is packed as it was fetched. -/
theorem identityKernelCopiesImage : Obligations.IdentityKernelCopiesImage := by
  rintro s t _ mono hs hd hk hm rfl hnum hden hkw ht a ha
  have hval : ∀ x y c, windowValue false s (window s (shapeOf s (outDepth mono)) s.kradius.toNat x y c) =
      sourceByte s (outDepth mono) x y c := by
    intro x y c
    change weightedValue _ _ = _
    rw [weightedValue_window, windowSum_identity hkw, hnum, hden]
    exact clampRnd_exact _ (by decide) _
  obtain ⟨t', ht', hr⟩ := exec_conv (interiorValue := fun x y c b => b = sourceByte s (outDepth mono) x y c)
    hs hd hk hm hval
  obtain rfl := Host.Outcome.next.inj (ht'.symm.trans ht)
  exact read_dst_eq_read_src hs (fun x y hx hy => packedAs_fetchPixel_of_convResult hx hy hr) ha

/-! ## Another kernel with the same values (R233, R234) -/

/-- `s` with other weights and another divisor. -/
def State.withWeights (s : State) (kw : List Weight) (num : Word) : State := { s with kw := kw, divNum := num }

/-- The checks of R221 read no weight, and of the divisor only whether it is 0. -/
theorem checkKernel_withWeights {s : State} {num : Word} (hnum : num.toInt = 0 ↔ s.divNum.toInt = 0)
    (kw : List Weight) (med : Bool) (sh : Shape) :
    checkKernel med (s.withWeights kw num) sh = checkKernel med s sh := by
  simp only [checkKernel, State.num, State.withWeights, hnum]
  rfl

/-! The other parts of a `CONV` read neither. -/

section
variable (s : State) (kw : List Weight) (num : Word)

theorem shape_withWeights : shape (s.withWeights kw num) = shape s := rfl

theorem checkRange_withWeights (sh : Shape) (od : Nat) :
    checkRange (s.withWeights kw num) sh od = checkRange s sh od := rfl

theorem checkOverlap_withWeights (sh : Shape) (od : Nat) :
    checkOverlap (s.withWeights kw num) sh od = checkOverlap s sh od := rfl

theorem bufferEffect_withWeights (sh : Shape) (mono : Bool) (pixel : Nat → Pixel) :
    bufferEffect (s.withWeights kw num) sh mono pixel = bufferEffect s sh mono pixel := rfl

theorem fetchAll_withWeights (sh : Shape) : fetchAll (s.withWeights kw num) sh = fetchAll s sh := rfl

theorem window_withWeights (sh : Shape) (r x y c : Nat) :
    window (s.withWeights kw num) sh r x y c = window s sh r x y c := rfl

theorem srcByte_withWeights (sh : Shape) (x y c : Nat) :
    srcByte (s.withWeights kw num) sh x y c = srcByte s sh x y c := rfl

end

/-- A pixel has its value again when its window has: outside the interior there is none (R226). -/
theorem convValue_withWeights {s : State} {kw : List Weight} {num : Word} {med : Bool} {d x y c : Nat}
    (hwin : isInterior s x y →
      windowValue med (s.withWeights kw num) (window s (shapeOf s d) s.kradius.toNat x y c) =
        windowValue med s (window s (shapeOf s d) s.kradius.toNat x y c)) :
    convValue med (s.withWeights kw num) (shapeOf s d) s.kradius.toNat x y c =
      convValue med s (shapeOf s d) s.kradius.toNat x y c := by
  rw [convValue, convValue, window_withWeights, srcByte_withWeights]
  split_ifs with hi
  · exact hwin (interior_iff_isInterior.1 hi)
  · rfl

/-- A `CONV` has the same effect with other weights and another divisor when every window inside the image has its value
again. -/
theorem convEffect_withWeights {s : State} {kw : List Weight} {num : Word} {med : Bool}
    (hnum : num.toInt = 0 ↔ s.divNum.toInt = 0)
    (hwin : KernelOk s med → ∀ d x y c, isInterior s x y →
      windowValue med (s.withWeights kw num) (window s (shapeOf s d) s.kradius.toNat x y c) =
        windowValue med s (window s (shapeOf s d) s.kradius.toNat x y c)) (mono : Bool) :
    convEffect mono med (s.withWeights kw num) = convEffect mono med s := by
  simp only [convEffect, shape_withWeights, checkKernel_withWeights hnum, checkRange_withWeights,
    checkOverlap_withWeights, bufferEffect_withWeights, fetchAll_withWeights]
  cases hsh : shape s with
  | error k => rw [error_bind, error_bind]
  | ok sh =>
    obtain ⟨d, -, rfl⟩ := shape_ok_iff.1 hsh
    rw [ok_bind, ok_bind]
    cases hker : checkKernel med s (shapeOf s d) with
    | error k => rw [error_bind, error_bind]
    | ok r =>
      obtain ⟨hk, rfl⟩ := checkKernel_ok_iff.1 hker
      have hpix : convPixel med (s.withWeights kw num) (shapeOf s d) s.kradius.toNat =
          convPixel med s (shapeOf s d) s.kradius.toNat := by
        funext p
        simp only [convPixel, convValue_withWeights (hwin hk d _ _ _), srcByte_withWeights]
      rw [ok_bind, ok_bind, hpix]

/-- The complete step on one effect, with other weights and another divisor. -/
theorem complete_withWeights (r : Except ErrKind Effect) (s : State) (kw : List Weight) (num : Word) :
    complete r (s.withWeights kw num) = (complete r s).withWeights kw num := by
  cases r <;> rfl

/-- A `CONV` whose effect does not change with the kernel ends in states that differ in the kernel only. -/
theorem exec_conv_withWeights {s t : State} {kw : List Weight} {num : Word} {mono med : Bool}
    (he : convEffect mono med (s.withWeights kw num) = convEffect mono med s) (h : exec (.conv mono med) s = .next t) :
    exec (.conv mono med) (s.withWeights kw num) = .next (t.withWeights kw num) := by
  rw [exec_next_iff] at h ⊢
  rw [h, ← complete_withWeights]
  exact congrArg (complete · _) he.symm

/-- Every weight times `m` is the sum times `m`. -/
theorem windowSum_scaled {s : State} {kw : List Weight} {m : Int}
    (hkw : ∀ j, (kw.getD j 0#16).toInt = m * (s.kw.getD j 0#16).toInt) (num : Word) (d x y c : Nat) :
    windowSum (s.withWeights kw num) d x y c = m * windowSum s d x y c := by
  rw [windowSum_eq_sum, windowSum_eq_sum, Finset.mul_sum]
  refine Finset.sum_congr rfl fun j _ => ?_
  change _ * (kw.getD j 0#16).toInt = _
  rw [hkw, mul_left_comm]
  rfl

/-- Numerator and divisor both times `m` are the same rational, and so one value. -/
theorem weightedValue_scaled {s : State} {kw : List Weight} {num : Word} {m : Int} (hm : m ≠ 0)
    (hnum : num.toInt = m * s.divNum.toInt) (hkw : ∀ j, (kw.getD j 0#16).toInt = m * (s.kw.getD j 0#16).toInt)
    (h0 : s.divNum.toInt ≠ 0) (d x y c : Nat) :
    weightedValue (s.withWeights kw num) (window s (shapeOf s d) s.kradius.toNat x y c) =
      weightedValue s (window s (shapeOf s d) s.kradius.toNat x y c) := by
  rw [weightedValue_window]
  refine (weightedValue_window (s.withWeights kw num) d x y c).trans ?_
  rw [windowSum_scaled hkw]
  change clampRnd s.cfg.round (m * windowSum s d x y c * s.divDen.toNat) num.toInt = _
  rw [clampRnd, clampRnd, hnum]
  exact congrArg clamp (rnd_congr _ (mul_ne_zero hm h0) h0 (by ring))

/-- Settles O33: the scaled sum over the scaled divisor is the same rational, and the divisor is 0 in both states or in
neither. -/
theorem scaledKernelSameResult : Obligations.ScaledKernelSameResult := by
  intro s s' t m mono hm hs hnum hkw h
  have hm0 : (m : Int) ≠ 0 := by omega
  have hzero : s'.divNum.toInt = 0 ↔ s.divNum.toInt = 0 := by
    rw [hnum, mul_eq_zero]
    exact or_iff_right hm0
  have he : convEffect mono false (s.withWeights s'.kw s'.divNum) = convEffect mono false s :=
    convEffect_withWeights (med := false) hzero
      (fun hk d x y c _ => weightedValue_scaled hm0 hnum hkw hk.num d x y c) mono
  rw [hs]
  exact exec_conv_withWeights he h

/-- An image smaller than the window has no interior pixel (R222). -/
theorem not_isInterior_of_small {s : State}
    (h : s.width.toNat < 2 * s.kradius.toNat + 1 ∨ s.height.toNat < 2 * s.kradius.toNat + 1) (x y : Nat) :
    ¬ isInterior s x y := by
  rw [isInterior]
  omega

/-- Settles O35: every pixel is on the border, where no weight is read. -/
theorem smallImageNeedsNoWeights : Obligations.SmallImageNeedsNoWeights := by
  intro s t kw mono med hsmall h
  have hdiv : t.divNum = s.divNum := by
    rcases exec_cases h with ⟨e, -, rfl⟩ | ⟨k, -, rfl⟩ <;> rfl
  have he : convEffect mono med (s.withWeights kw s.divNum) = convEffect mono med s :=
    convEffect_withWeights Iff.rfl (fun _ _ x y _ hi => absurd hi (not_isInterior_of_small hsmall x y)) mono
  have hend : t.withWeights kw s.divNum = { t with kw := kw } := by
    rw [← hdiv]
    rfl
  exact (exec_conv_withWeights he h).trans (congrArg _ hend)

end Sys2Proof.Machine
end

section
/-! PROOFS. The line buffer (44_line_buffer.md): the rows a `CONV` leaves in it (R266), the streamed computation through
it (R262, R265, R267), and that no command's result depends on it (R269). -/

namespace Sys2Proof.Machine

/-! ## The rows that stay (R266) -/

/-- The effect of a `CONV` that passes its checks (R228): the packed pixels, and every row fetched. -/
theorem commandEffect_conv {s : State} {d : Nat} {mono med : Bool} (hs : SourceOk s d) (hd : DestOk s mono)
    (hk : KernelOk s med) : commandEffect (.conv mono med) s =
      .ok { bufferEffect s (shapeOf s d) mono (convPixel med s (shapeOf s d) s.kradius.toNat) with
        lb := some (fetchAll s (shapeOf s d)) } :=
  convEffect_ok_iff.2 ⟨d, hs, hd, hk, rfl⟩

/-- The line buffer a successful `CONV` leaves: the one into which every row of the image was fetched in turn. -/
theorem exec_conv_lb {s t : State} {d : Nat} {mono med : Bool} (hs : SourceOk s d) (hd : DestOk s mono)
    (hk : KernelOk s med) (h : exec (.conv mono med) s = .next t) :
    t.lb = fetched s (shapeOf s d) s.height.toNat := by
  rw [exec_next_iff, commandEffect_conv hs hd hk] at h
  rw [h]
  rfl

/-- Among `n` rows the last one in the slot of row `q` is one of the last `m`. -/
theorem exists_last_row_of_slot {q n : Nat} (hq : q < n) {m : Nat} (hm : 0 < m) :
    ∃ p, p < n ∧ n ≤ p + m ∧ p % m = q % m := by
  have hdiv := Nat.div_add_mod (n - 1 - q) m
  have hmod := Nat.mod_lt (n - 1 - q) hm
  exact ⟨q + m * ((n - 1 - q) / m), by omega, by omega, Nat.add_mul_mod_self_left _ _ _⟩

/-- Settles O30: the last `NR` rows are valid where they were fetched, and a slot of none of them is the slot of no row
at all, so it keeps the invalid tag that the command began with. -/
theorem convLeavesLastRowsBuffered : Obligations.ConvLeavesLastRowsBuffered := by
  intro s t d mono med hinv hs hd hk h
  rw [exec_conv_lb hs hd hk h]
  refine ⟨fun q hq hlast => fetched_valid hinv.slots hq hlast,
    fun i x hx hnone => fetched_invalid hx fun q hq => ?_⟩
  obtain ⟨p, hp, hlast, hslot⟩ := exists_last_row_of_slot hq (nr_pos s.cfg)
  exact hslot ▸ hnone p hp hlast

/-! ## The streamed form (R262 to R267) -/

/-- The `pack` calls of the direct form for the pixels of the first `y` rows (R228). -/
def packedRows (mono med : Bool) (s : State) (d y : Nat) : List Host.Cell :=
  (List.range (y * s.width.toNat)).flatMap fun p =>
    pack s mono p (convPixel med s (shapeOf s d) s.kradius.toNat p)

/-- The rows of the whole image are the writes of the command. -/
theorem packedRows_height (mono med : Bool) (s : State) (d : Nat) :
    packedRows mono med s d s.height.toNat =
      (bufferEffect s (shapeOf s d) mono (convPixel med s (shapeOf s d) s.kradius.toNat)).fmWrites := by
  rw [packedRows, Nat.mul_comm]
  rfl

/-- One more row appends its pixels, left to right. -/
theorem packedRows_succ (mono med : Bool) (s : State) (d y : Nat) :
    packedRows mono med s d (y + 1) = packedRows mono med s d y ++
      ((List.range s.width.toNat).map fun x => pack s mono (y * s.width.toNat + x)
        (convPixel med s (shapeOf s d) s.kradius.toNat (y * s.width.toNat + x))).flatten := by
  rw [packedRows, packedRows, Nat.succ_mul, List.range_add, List.flatMap_append, List.flatMap_map, ← List.flatMap_def]

section
variable {s : State} {d : Nat} {mono med : Bool} (hinv : s.Inv) (hs : SourceOk s d) (hk : KernelOk s med)
include hinv hs hk

/-- With the rows of output row `y` fetched and none past its window, the window former hands `pack` the pixel of the
direct form. -/
theorem streamPixel_fetched {n x y : Nat} (hn : n ≤ y + s.kradius.toNat + 1)
    (htop : topRow (shapeOf s d) s.kradius.toNat y < n) (hx : x < s.width.toNat) (hy : y < s.height.toNat) :
    streamPixel med s (shapeOf s d) s.kradius.toNat (fetched s (shapeOf s d) n) x y =
      some (convPixel med s (shapeOf s d) s.kradius.toNat (y * s.width.toNat + x)) := by
  have hvalue : ∀ k < 3, streamValue med s (shapeOf s d) s.kradius.toNat (fetched s (shapeOf s d) n) x y
      (colourChannel (shapeOf s d) k) =
        some (convValue med s (shapeOf s d) s.kradius.toNat x y (colourChannel (shapeOf s d) k)) := fun k hk3 =>
    streamValue_fetched hinv.slots hk.radiusMax hn htop hx hy (colourChannel_lt hs.depth hk3)
  rw [streamPixel, hvalue 0 (by omega), hvalue 1 (by omega), hvalue 2 (by omega), convPixel_at hx]
  rcases hs.depth with rfl | rfl
  · rfl
  · have hbounds := topRow_bounds (s := s) (d := 4) (r := s.kradius.toNat) hy
    have hrmax := hk.radiusMax
    have hnr : s.cfg.nr = 2 * s.cfg.rmax + 1 := rfl
    have halpha : tap s (shapeOf s 4) (fetched s (shapeOf s 4) n) x y 3 = some (srcByte s (shapeOf s 4) x y 3) :=
      tap_fetched hinv.slots (by omega) (by omega) hx (show 3 < 4 by decide)
    rw [halpha]
    rfl

/-- One output row of the streamed form fetches up to its top row and appends the writes of the direct form. -/
theorem streamRow_fetched {n y : Nat} (hn : n ≤ y + s.kradius.toNat) (hy : y < s.height.toNat) :
    let nxt := max n (topRow (shapeOf s d) s.kradius.toNat y + 1)
    streamRow mono med s (shapeOf s d) s.kradius.toNat
        (fetched s (shapeOf s d) n, n, packedRows mono med s d y) y =
      some (fetched s (shapeOf s d) nxt, nxt, packedRows mono med s d (y + 1)) := by
  intro nxt
  have hbounds := topRow_bounds (s := s) (d := d) (r := s.kradius.toNat) hy
  have hcells : ((List.range (shapeOf s d).w).mapM fun x =>
      (streamPixel med s (shapeOf s d) s.kradius.toNat (fetched s (shapeOf s d) nxt) x y).map
        (pack s mono (y * (shapeOf s d).w + x))) =
      some ((List.range s.width.toNat).map fun x => pack s mono (y * s.width.toNat + x)
        (convPixel med s (shapeOf s d) s.kradius.toNat (y * s.width.toNat + x))) :=
    mapM_eq_some fun x hx => by
      rw [streamPixel_fetched hinv hs hk (by omega) (by omega) (List.mem_range.1 hx) hy]
      rfl
  rw [streamRow, fetchTo_fetched, packedRows_succ]
  dsimp only
  rw [hcells]
  rfl

/-- After `y` output rows the streamed form has fetched at least `y` rows, at most `r` more, and no row past the image,
and it has made the writes of the direct form for these rows. -/
theorem foldlM_streamRow : ∀ {y : Nat}, y ≤ s.height.toNat → ∃ n, y ≤ n ∧ n ≤ y + s.kradius.toNat ∧
    n ≤ s.height.toNat ∧
      (List.range y).foldlM (streamRow mono med s (shapeOf s d) s.kradius.toNat)
          (LineBuffer.invalidate s.lb, 0, []) =
        some (fetched s (shapeOf s d) n, n, packedRows mono med s d y)
  | 0, _ => ⟨0, by omega, by omega, by omega, by rw [packedRows, Nat.zero_mul]; rfl⟩
  | y + 1, hy => by
    obtain ⟨n, hyn, hn, hnh, hfold⟩ := foldlM_streamRow (y := y) (by omega)
    have hbounds := topRow_bounds (s := s) (d := d) (r := s.kradius.toNat) hy
    refine ⟨max n (topRow (shapeOf s d) s.kradius.toNat y + 1), by omega, by omega, by omega, ?_⟩
    rw [List.range_succ, List.foldlM_append, hfold, Option.bind_eq_bind, Option.bind_some, List.foldlM_cons,
      streamRow_fetched hinv hs hk hn hy]
    rfl

/-- The streamed form ends, with every row fetched, on the writes of the direct form (R267). -/
theorem convStreamed_eq : convStreamed mono med s (shapeOf s d) s.kradius.toNat =
    some (fetchAll s (shapeOf s d),
      (bufferEffect s (shapeOf s d) mono (convPixel med s (shapeOf s d) s.kradius.toNat)).fmWrites) := by
  obtain ⟨n, hn, -, hn', hfold⟩ := foldlM_streamRow (mono := mono) hinv hs hk le_rfl
  obtain rfl : n = s.height.toNat := le_antisymm hn' hn
  rw [convStreamed, ← packedRows_height]
  exact congrArg (Option.map _) hfold

end

/-- Settles O31: row by row the streamed form makes the writes of the direct one, and it ends with every row
fetched. -/
theorem streamedConvEqualsDirect : Obligations.StreamedConvEqualsDirect := by
  intro s d mono med hinv hs hd hk
  have he := commandEffect_conv hs hd hk
  have hlen := bufferEffect_length s (shapeOf s d) mono (convPixel med s (shapeOf s d) s.kradius.toNat)
  refine ⟨_, _, _, convStreamed_eq hinv hs hk, ⟨_, he, rfl, hlen.symm⟩, exec_ok he, rfl, rfl, rfl, ?_⟩
  rw [completeOk_dstLen, dstLen_toNat hinv.cfgValid he]
  exact hlen

/-! ## Nothing else reads the line buffer (R269) -/

/-- Settles O36: the two commands have one effect but for what it leaves in the line buffer, so both complete with it or
both fail with one error. -/
theorem lineBufferNeverObserved : Obligations.LineBufferNeverObserved := by
  intro i s t lb h
  have hops : SameOperands s { s with lb := lb } := ⟨rfl, rfl, rfl, rfl, rfl, rfl, rfl, rfl, rfl, rfl, rfl⟩
  rw [exec_next_iff] at h
  rcases map_visible_eq (commandEffect_congr hops (fun _ _ _ => rfl) rfl rfl i) with
    ⟨k, he, he'⟩ | ⟨e, e', he, he', hw, hl, hn⟩
  · rw [h, he]
    exact ⟨lb, exec_error he'⟩
  · rw [h, he]
    refine ⟨e'.lb.getD lb, (exec_ok he').trans ?_⟩
    rw [complete, completeOk, completeOk, hw, hl, hn]

end Sys2Proof.Machine
end

section
/-! PROOFS. Errors (60_exceptions.md): what a failed command changes (R290), and which error it reports (R291). -/

namespace Sys2Proof.Machine

/-! ## What a failed command changes (R290) -/

/-- Settles O8: an error completes as `failed` says, and of the two ends of a complete step only an error leaves a
nonzero `ERRCODE`. -/
theorem failedCommandChangesFiveItems : Obligations.FailedCommandChangesFiveItems := by
  refine ⟨fun _ _ _ h => exec_failed h, fun i s t h herr => ?_⟩
  rcases exec_cases h with ⟨e, -, rfl⟩ | ⟨k, -, rfl⟩
  · exact absurd (completeOk_errcode e s) herr
  · rw [completeErr_errcode, completeErr_eq]

/-! ## The error code of an effect, one check after another (R291) -/

/-- The `ERRCODE` a complete step takes from what `exec` answered: the code of the error, or 0 (R131). -/
def errorCode : Except ErrKind Effect → BitVec 4
  | .ok _ => 0#4
  | .error k => k.code

theorem complete_errcode (r : Except ErrKind Effect) (s : State) : (complete r s).errcode = errorCode r := by
  cases r <;> rfl

/-- A check reports its cause when that holds, and otherwise the first of the causes after it. -/
theorem errorCode_raiseIf {c : Prop} [Decidable c] {k : ErrKind} {f : Unit → Except ErrKind Effect} {holds : Bool}
    {rest : List (Bool × BitVec 4)} (hc : holds = true ↔ c) (hf : ¬ c → errorCode (f ()) = firstError rest) :
    errorCode (raiseIf c k >>= f) = firstError ((holds, k.code) :: rest) := by
  rw [raiseIf_bind, firstError]
  simp only [hc]
  split_ifs with h
  · rfl
  · exact hf h

theorem beq_zero_iff_toNat (v : Word) : (v == 0#32) = true ↔ v.toNat = 0 := by
  rw [beq_iff_eq, ← BitVec.toNat_inj, BitVec.toNat_zero]

theorem beq_zero_iff_toInt (v : Word) : (v == 0#32) = true ↔ v.toInt = 0 := by
  rw [beq_iff_eq, ← BitVec.toInt_inj, BitVec.toInt_zero]

/-! ## The checks that commands share (R291) -/

/-- The causes of `shape()` (R135): a zero dimension, then a length that is no multiple, then a wrong depth. -/
def shapeCauses (s : State) : List (Bool × BitVec 4) :=
  [ (s.width == 0#32 || s.height == 0#32, 1#4),
    (s.srcLen.toNat % s.pixels != 0, 1#4),
    (s.srcLen.toNat / s.pixels != 1 && s.srcLen.toNat / s.pixels != 4, 2#4) ]

/-- The causes of the region checks (R78, R79): the source range, then the destination range, then the overlap. -/
def regionCauses (s : State) (od : Nat) : List (Bool × BitVec 4) :=
  [ (decide (s.cfg.fmBytes < s.srcBase.toNat + s.srcLen.toNat), 7#4),
    (decide (s.cfg.fmBytes < s.dstBase.toNat + s.pixels * od), 7#4),
    (decide (s.srcBase.toNat < s.dstBase.toNat + s.pixels * od) &&
      decide (s.dstBase.toNat < s.srcBase.toNat + s.srcLen.toNat), 8#4) ]

/-- The causes of `check_kernel` (R221). -/
def kernelCauses (med : Bool) (s : State) : List (Bool × BitVec 4) :=
  [ (s.klen == 0#32 || s.kradius == 0#32, 3#4),
    (s.divNum == 0#32 || s.divDen == 0#32, 5#4),
    (decide (s.cfg.rmax < s.kradius.toNat), 5#4),
    (!med && decide (s.klen.toNat ≠ (2 * s.kradius.toNat + 1) ^ 2), 5#4),
    (decide (s.cfg.wmax < s.width.toNat), 9#4) ]

theorem errorCode_shape {s : State} {f : Shape → Except ErrKind Effect} {rest : List (Bool × BitVec 4)}
    (hf : ∀ d, ShapeOk s d → errorCode (f (shapeOf s d)) = firstError rest) :
    errorCode (shape s >>= f) = firstError (shapeCauses s ++ rest) := by
  rw [shape]
  simp only [bind_assoc]
  refine errorCode_raiseIf (by rw [Bool.or_eq_true, beq_zero_iff_toNat, beq_zero_iff_toNat]) fun hdim =>
    errorCode_raiseIf bne_iff_ne fun hlen =>
    errorCode_raiseIf (by rw [Bool.and_eq_true, bne_iff_ne, bne_iff_ne]; rfl) fun hdepth => hf _ ?_
  obtain ⟨hw, hh⟩ := not_or.1 hdim
  have hdvd : s.pixels ∣ s.srcLen.toNat := Nat.dvd_of_mod_eq_zero (not_not.1 hlen)
  exact ⟨hw, hh, by tauto, (Nat.mul_div_cancel' hdvd).symm⟩

theorem errorCode_regions (s : State) (d od : Nat) (e : Effect) :
    errorCode (do checkRange s (shapeOf s d) od; checkOverlap s (shapeOf s d) od; return e) =
      firstError (regionCauses s od) := by
  rw [checkRange, bind_assoc]
  refine errorCode_raiseIf decide_eq_true_iff fun _ => errorCode_raiseIf decide_eq_true_iff fun _ =>
    errorCode_raiseIf ?_ fun _ => rfl
  rw [Bool.and_eq_true, decide_eq_true_iff, decide_eq_true_iff]
  rfl

theorem errorCode_checkKernel {s : State} {d : Nat} {med : Bool} {f : Nat → Except ErrKind Effect}
    {rest : List (Bool × BitVec 4)} (hf : errorCode (f s.kradius.toNat) = firstError rest) :
    errorCode (checkKernel med s (shapeOf s d) >>= f) = firstError (kernelCauses med s ++ rest) := by
  rw [checkKernel]
  simp only [bind_assoc]
  refine errorCode_raiseIf (by rw [Bool.or_eq_true, beq_zero_iff_toNat, beq_zero_iff_toNat]; rfl) fun _ =>
    errorCode_raiseIf (by rw [Bool.or_eq_true, beq_zero_iff_toInt, beq_zero_iff_toNat]; rfl) fun _ =>
    errorCode_raiseIf decide_eq_true_iff fun _ => errorCode_raiseIf ?_ fun _ =>
    errorCode_raiseIf decide_eq_true_iff fun _ => hf
  rw [Bool.and_eq_true, Bool.not_eq_true', decide_eq_true_iff]
  rfl

/-! ## The commands (R291) -/

/-- After `shape()` a `GRAY` command reports depth 1, then a bad channel, then its regions (R160, R163). -/
theorem errorCode_grayEffect (lum : Byte → Byte → Byte → Byte) (bad mono : Bool) (s : State) :
    errorCode (grayEffect lum bad mono s) = firstError
      (shapeCauses s ++ (s.srcLen.toNat / s.pixels == 1, 2#4) :: (bad, 5#4) :: regionCauses s (outDepth mono)) := by
  refine errorCode_shape fun d hs => errorCode_raiseIf ?_ fun _ => errorCode_raiseIf Iff.rfl fun _ =>
    errorCode_regions ..
  rw [beq_iff_eq, hs.length, Nat.mul_div_cancel_left _ hs.pixels_pos]
  change d = 1 ↔ d ≠ 4
  have hd := hs.depth
  omega

/-- Each command makes its checks in the order of R291. A cause it has no check for is `false` in its list, and so
drops out of `firstError` by computation. -/
theorem errorCode_commandEffect (i : Instr) (s : State) :
    errorCode (commandEffect i s) = firstError (errorCauses i s) := by
  cases i with
  | conv => exact errorCode_shape fun _ _ => errorCode_checkKernel (errorCode_regions ..)
  | apply => exact errorCode_shape fun _ _ => errorCode_regions ..
  | valid => exact errorCode_shape fun _ _ => errorCode_raiseIf decide_eq_true_iff fun _ => rfl
  | buildPosterize => exact errorCode_raiseIf decide_eq_true_iff fun _ => rfl
  | grayLuma | grayAverage | graySimple => exact errorCode_grayEffect ..
  | nop | buildBrightness | buildContrast | buildThreshold | buildSolarize | buildPseudocolor | buildInvert
  | buildUnknown7 | buildUnknown8to15 | grayUnknown3 | grayUnknown4to7 | grayUnknown8to15 | illegal => rfl

/-- Settles O10: a complete step takes its `ERRCODE` from the effect, and that reports the first cause. -/
theorem errorCodeFollowsPriority : Obligations.ErrorCodeFollowsPriority := fun i s =>
  ⟨_, exec_eq i s, (complete_errcode _ s).trans (errorCode_commandEffect i s)⟩

end Sys2Proof.Machine
end

section
/-! PROOFS. Reset and hazards (70_reset_and_hazards.md): what reset gives in any state (R320) and leaves of a command it
abandons (R322), what a table read sees during a `BUILD` (R333), and that a busy block leaves its command (R336). -/

namespace Sys2Proof.Machine

/-! ## What stands of a command before its complete step (R322, R333)

`u` is the state that the complete step of the command in `LASTCMD` would leave. -/

section
variable {s u : State} (hu : exec (decode s.lastcmd) s = .next u)
include hu

/-- A table entry seen before the complete step is the entry before the command or the one it gives (R333). -/
theorem lutSeen_old_or_new (k : Fin 3) (v : Fin 256) :
    lutSeen s k v = s.lutEntry k v ∨ lutSeen s k v = u.lutEntry k v := by
  rw [lutSeen]
  cases he : inFlight s with
  | none => exact .inl rfl
  | some e =>
    obtain ⟨-, rfl⟩ := completeOk_of_inFlight hu he
    rw [State.lutEntry, State.lutEntry, completeOk_lut]
    dsimp only
    cases e.lut with
    | none => exact .inl rfl
    | some tables =>
      cases Config.freeBit s.freeCount (256 * k.val + v.val) with
      | false => exact .inl rfl
      | true => exact .inr rfl

/-- Reset leaves every byte of an undisturbed command old or new (R322). -/
theorem read_landedCells_old_or_new (hwf : s.fm.wf = true) (hd : s.disturbed = false) (a : Nat) :
    Memory.read (s.fm.writeAll (landedCells s)) a = s.fm.read a ∨
      Memory.read (s.fm.writeAll (landedCells s)) a = u.fm.read a := by
  rw [landedCells]
  cases he : inFlight s with
  | none => exact .inl rfl
  | some e =>
    obtain ⟨-, rfl⟩ := completeOk_of_inFlight hu he
    rw [hd, completeOk_fm]
    have hread := Memory.read_writeAll_filter (a := a) (Config.freeBit s.freeCount) (ws := e.fmWrites) hwf
    cases hbit : Config.freeBit s.freeCount a with
    | false => exact .inl (by simpa [hbit] using hread)
    | true => exact .inr (by simpa [hbit] using hread)

end

/-- Reset leaves in a table what a host read would have seen there: the free bit that picks old or new is the same. -/
theorem landedTables_entry (s : State) (k : Fin 3) (v : Fin 256) : (landedTables s)[k][v] = lutSeen s k v := by
  rw [landedTables, lutSeen]
  cases inFlight s with
  | none => rfl
  | some e =>
    dsimp only
    cases e.lut with
    | none => rfl
    | some tables => exact tablesOf_entry _ k v

/-- The bytes an abandoned command has written, free or its own, lie in its destination region (R322). -/
theorem inDstRegion_of_mem_landedCells {s : State} {c : Host.Cell} (hc : c ∈ landedCells s) :
    inDstRegion s c.1 = true := by
  rw [landedCells] at hc
  cases he : inFlight s with
  | none =>
    rw [he] at hc
    cases hc
  | some e =>
    rw [he] at hc
    refine inDstRegion_iff.2 ⟨e, he, ?_⟩
    have hmem := (List.mem_filter.1 hc).1
    split at hmem
    · exact mem_freeCells hmem
    · exact fmWrites_bounds (inFlight_some he).2 hmem

theorem landedCells_idle {s : State} (hp : s.phase = .idle) : landedCells s = [] := by
  rw [landedCells, inFlight_idle hp]

theorem landedTables_idle {s : State} (hp : s.phase = .idle) : landedTables s = s.lut := by
  rw [landedTables, inFlight_idle hp]

/-! ## Reset (R320, R322) -/

/-- Settles O51: the bytes and entries that an abandoned command has written are some of those it would write. -/
theorem resetDuringCommand : Obligations.ResetDuringCommand := by
  intro s u t rest hv hwf hi hp hu ht
  rw [step_reset hi] at ht
  obtain rfl := Host.Outcome.next.inj ht
  rw [resetMove_fm, landedCells_inputs]
  refine ⟨read_landedCells_old_or_new hu hwf, fun a ha => ?_, fun k v => ?_, rfl⟩
  · refine Memory.read_writeAll_other (fun c hc he => ha ?_) s.fm
    rw [← he]
    exact (inDstRegion_iff_dstLen hu hv hp).1 (inDstRegion_of_mem_landedCells hc)
  · rw [State.lutEntry, resetMove_lut, landedTables_inputs, landedTables_entry]
    exact lutSeen_old_or_new hu k v

/-- Settles O50: the reset move, with nothing landed when no command is in execution. -/
theorem resetEventRestoresRegisters : Obligations.ResetEventRestoresRegisters := by
  intro s rest hi
  refine ⟨_, step_reset hi, rfl, ?_, fun hp => ?_⟩
  · rw [State.irq, resetMove_irqst, resetMove_irqen]
    rfl
  · rw [resetMove_lut, resetMove_fm, landedTables_inputs, landedTables_idle hp, landedCells_inputs,
      landedCells_idle hp]
    exact ⟨rfl, rfl⟩

/-! ## A table read during a `BUILD` (R45, R333) -/

/-- Settles O48: the host reads the entry as `lutSeen` gives it. -/
theorem tableReadDuringBuild : Obligations.TableReadDuringBuild := by
  intro s k v rest hi
  have ho : (BitVec.ofNat 12 (0x400 + 4 * (256 * k.val + v.val))).toNat % 4 = 0 := by
    rw [lutOffset_toNat]
    omega
  refine ⟨_, step_regRead hi ho, ?_⟩
  rw [regAt_lut, readReg]
  refine ⟨fun _ => ⟨_, exec_eq _ s, ?_⟩, fun hno => congrArg (BitVec.setWidth 32) (lutSeen_settled hno k v)⟩
  exact (lutSeen_old_or_new (exec_eq _ s) k v).imp (congrArg (BitVec.setWidth 32)) (congrArg (BitVec.setWidth 32))

/-! ## A busy block leaves its command (R131, R336) -/

theorem storeReg_inputs (s : State) (r : Reg) (v : Word) : (storeReg s r v).inputs = s.inputs := by
  cases r <;> rfl

theorem writeReg_inputs (s : State) (r : Reg) (v : Word) : (writeReg s r v).inputs = s.inputs := by
  rw [writeReg]
  split
  · rfl
  · exact storeReg_inputs s r v

theorem complete_inputs (r : Except ErrKind Effect) (s : State) : (complete r s).inputs = s.inputs := by
  cases r <;> rfl

theorem engineEnd_inputs (s : State) : (engineEnd s).inputs = s.inputs := by
  rw [engineEnd]
  split
  · exact complete_inputs _ s
  · exact complete_inputs _ s

/-- A step takes the next move and no other (R9). -/
theorem step_inputs {s t : State} (h : step s = .next t) : t.inputs = s.inputs.tail := by
  have htail {move : Event} {rest : List Event} (hi : s.inputs = move :: rest) : rest = s.inputs.tail := by
    rw [hi, List.tail_cons]
  rcases step_cases h with ⟨off, v, rest, hi, -, rfl⟩ | ⟨rest, d, rfl, ⟨off, hi, -⟩ | ⟨a, hi, -⟩⟩ |
    ⟨a, b, rest, hi, -, rfl⟩ | ⟨rest, hi, hend⟩ | ⟨rest, hi, rfl⟩
  · exact (writeReg_inputs _ _ _).trans (htail hi)
  · exact htail hi
  · exact htail hi
  · exact htail hi
  · have hrest : rest = s.inputs.tail := by
      rcases hi with hi | ⟨hi, rfl⟩
      · exact htail hi
      · rw [hi, List.tail_nil]
    rcases hend with ⟨-, rfl⟩ | ⟨-, rfl⟩
    · exact (engineEnd_inputs _).trans hrest
    · exact hrest
  · exact htail hi

/-- With no move to come a busy block takes its complete step (R336, log entry 6). -/
theorem step_nil_busy {s : State} (hp : s.phase = .busy) (hi : s.inputs = []) :
    ∃ t, step s = .next t ∧ t.phase = .idle :=
  ⟨engineEnd s, (step_nil hi).trans (engineMove_busy hp), (engineEnd_registers s).2.2.1⟩

/-- Settles O59, by induction on the moves to come: a step that answers and leaves the block busy has taken one. -/
theorem busyEngineCompletes : Obligations.BusyEngineCompletes := by
  intro s hp
  induction hi : s.inputs generalizing s with
  | nil => exact ⟨0, s, Nat.le_refl 0, rfl, hp, .inl (step_nil_busy hp hi)⟩
  | cons move rest ih =>
    by_cases hstep : ∃ s', step s = .next s'
    · obtain ⟨s', hs'⟩ := hstep
      cases hp' : s'.phase with
      | idle => exact ⟨0, s, Nat.zero_le _, rfl, hp, .inl ⟨s', hs', hp'⟩⟩
      | busy =>
        obtain ⟨k, t, hk, hrun, hend⟩ := ih s' hp' (by rw [step_inputs hs', hi, List.tail_cons])
        exact ⟨k + 1, t, Nat.succ_le_succ hk, (run_succ (M := core) hs').trans hrun, hend⟩
    · exact ⟨0, s, Nat.zero_le _, rfl, hp, .inr hstep⟩

end Sys2Proof.Machine
end
